-- ==== Sys2Proof/Word.lean ====
section
/-! DEFINITION. The word types: bytes, 32-bit words, 64-bit lengths (`00_scope.md` R6, R9). -/

namespace Sys2Proof

/-- A byte of `BUF` or of an operand (`00_scope.md` R11). -/
abbrev Byte := BitVec 8

/-- A register or a chaining word: 32 bits (`00_scope.md` R6, R9). -/
abbrev Word := BitVec 32

/-- The latch's length counter and a 64-bit argument (`00_scope.md` R6). -/
abbrev Dword := BitVec 64

end Sys2Proof
end

