-- ==== Sys2Proof/Config.lean ====
section
/-! DEFINITION. What is fixed for a block: the fixed parameters (`00_scope.md` R6), the open parameters (R7) as
plain data with the spec's defaults, and the free values (draws, and the cipher pair that is not AES-128). -/

namespace Sys2Proof

namespace Config

/-- `BLOCK`, `KEYLEN` and `IVLEN`: 16 bytes (`00_scope.md` R6). -/
def block : Nat := 16

/-- `NONCELEN`: 8 bytes (`00_scope.md` R6). -/
def nonceLen : Nat := 8

/-- `CHUNK`: 64 bytes (`00_scope.md` R6). -/
def chunk : Nat := 64

/-- `PAD_DEFAULT`: 16 (`00_scope.md` R6). -/
def padDefault : Nat := 16

/-- What the register `ID` reads, "CPX1" (`10_state.md` R22). -/
def idValue : Word := 0x43505831

/-- The size of the register window in bytes (`20_memory.md` R62). -/
def regWindow : Nat := 0x1000

/-- The size of the window the block decodes in the host's address space (`20_memory.md` R63). -/
def hostWindow : Nat := 0x2000000

/-- A DRAW: the value the block answers to the n-th host read that the spec leaves free (`10_state.md` R36,
`20_memory.md` R66). It has no body, so nothing can be proved of its values. Log 5. -/
opaque draw : Nat → Word

/-- `E` of a block whose cipher is not AES-128, from a block and a key of 16 bytes each (`00_scope.md` R7). It has no
body: what is proved of it holds of every function. Log 2. -/
opaque otherE : BitVec 128 → BitVec 128 → BitVec 128

/-- `D` of such a block (`00_scope.md` R7). Log 2. -/
opaque otherD : BitVec 128 → BitVec 128 → BitVec 128

end Config

/-- The pair `E`, `D` of a block (`00_scope.md` R7): the default, AES-128, or another pair. -/
inductive CipherChoice
  | aes128
  | other
  deriving DecidableEq, Repr

/-- The open parameters of `00_scope.md` R7. They are no state of the block: a `State` carries them so that a statement
about every state is a statement about every value of them. Logs 1, 2. -/
structure Params where
  cipher    : CipherChoice
  bufBytes  : Nat
  base      : Nat
  bufOffset : Nat
  deriving DecidableEq, Repr

/-- The defaults of `00_scope.md` R7; `BASE` has none, 0 is a DESIGN CHOICE (log 1). -/
def Params.default : Params := { cipher := .aes128, bufBytes := 65536, base := 0, bufOffset := 0x10000 }

/-- The powers of two from 4096 to 2^24, the legal values of `BUF_BYTES` (`00_scope.md` R7). -/
def Params.bufSizes : List Nat := (List.range 13).map fun k => 2 ^ (12 + k)

/-- The numbers among the parameters are legal (`00_scope.md` R7). -/
abbrev Params.Legal (p : Params) : Prop :=
  p.bufBytes ∈ Params.bufSizes ∧ p.base % Config.hostWindow = 0 ∧ p.bufOffset % p.bufBytes = 0 ∧
    Config.regWindow ≤ p.bufOffset ∧ p.bufOffset + p.bufBytes ≤ Config.hostWindow

/-- The pair `E`, `D` is legal: `D(E(b, k), k) = b` (`00_scope.md` R7). For AES-128 it is `40_cipher.md` R113. -/
def Params.LegalCipher (p : Params) : Prop :=
  p.cipher = .other → ∀ b k : BitVec 128, Config.otherD (Config.otherE b k) k = b

end Sys2Proof
end

