-- ==== Sys2Proof/Syntax.lean ====
section
/-! DEFINITION. Syntax: hash families, the 19 commands (one constructor per row of spec/opcode_table.json), the
command word's fields, the host's actions on the block, and the host program lines of `30_encoding.md` R87 to R89. -/

namespace Sys2Proof

/-- The hash family, `CMD.FAM` and `L.FAM`: 0 = A (SHA-1, N = 5), 1 = B (MD4, N = 4) (`30_encoding.md` R80). -/
inductive Family
  | A
  | B
  deriving DecidableEq, Repr

/-- N, the number of chaining words (`10_state.md` R41). -/
def Family.words : Family → Nat
  | .A => 5
  | .B => 4

/-- The value of the field `FAM`. -/
def Family.bit : Family → Bool
  | .A => false
  | .B => true

/-- The family a `FAM` bit names. -/
def Family.ofBit : Bool → Family
  | false => .A
  | true => .B

/-- A command (`30_encoding.md` R81). The hash commands carry `CMD.FAM`. -/
inductive Instr
  | nop
  | blkEnc
  | blkDec
  | ecbEnc
  | ecbDec
  | cbcEnc
  | cbcDec
  | ctrXor
  | ctrEdit
  | pad
  | unpad
  | hInit (fam : Family)
  | hAbsorb (fam : Family)
  | hFinal (fam : Family)
  | hMdpad (fam : Family)
  | hImport (fam : Family)
  | hExport (fam : Family)
  | mac (fam : Family)
  | forge (fam : Family)
  deriving DecidableEq, Repr

/-- The opcode of a command (`30_encoding.md` R81). -/
def Instr.op : Instr → BitVec 8
  | .nop => 0x00
  | .blkEnc => 0x01
  | .blkDec => 0x02
  | .ecbEnc => 0x10
  | .ecbDec => 0x11
  | .cbcEnc => 0x12
  | .cbcDec => 0x13
  | .ctrXor => 0x14
  | .ctrEdit => 0x15
  | .pad => 0x20
  | .unpad => 0x21
  | .hInit _ => 0x30
  | .hAbsorb _ => 0x31
  | .hFinal _ => 0x32
  | .hMdpad _ => 0x33
  | .hImport _ => 0x34
  | .hExport _ => 0x35
  | .mac _ => 0x38
  | .forge _ => 0x39

/-- The `FAM` field of a command's word: the family of a hash command, 0 for every other (`30_encoding.md` R80). -/
def Instr.fam : Instr → Family
  | .nop => .A
  | .blkEnc => .A
  | .blkDec => .A
  | .ecbEnc => .A
  | .ecbDec => .A
  | .cbcEnc => .A
  | .cbcDec => .A
  | .ctrXor => .A
  | .ctrEdit => .A
  | .pad => .A
  | .unpad => .A
  | .hInit f => f
  | .hAbsorb f => f
  | .hFinal f => f
  | .hMdpad f => f
  | .hImport f => f
  | .hExport f => f
  | .mac f => f
  | .forge f => f

/-- The three fields of a command word (`30_encoding.md` R80). -/
structure CmdWord where
  op  : BitVec 8
  fam : Bool
  rsv : BitVec 23
  deriving DecidableEq, Repr

/-- The fields of the word of a command (`30_encoding.md` R82). -/
def Instr.fields (i : Instr) : CmdWord := { op := i.op, fam := i.fam.bit, rsv := 0 }

/-- A source region of a command, `S0` to `S3` (`10_state.md` R28). -/
inductive Src
  | s0
  | s1
  | s2
  | s3
  deriving DecidableEq, Repr

/-- A destination of a command, `DST0` or `DST1` (`10_state.md` R28). -/
inductive Dst
  | d0
  | d1
  deriving DecidableEq, Repr

/-- The operand registers, in offset order (`10_state.md` R21, R28). -/
inductive OpReg
  | srcAddr (k : Src)
  | srcLen (k : Src)
  | dstAddr (k : Dst)
  | arg0
  | arg1
  deriving DecidableEq, Repr

/-- The operand registers in offset order, 0x010 to 0x03C (`10_state.md` R21). -/
def OpReg.all : List OpReg :=
  [.srcAddr .s0, .srcLen .s0, .srcAddr .s1, .srcLen .s1, .srcAddr .s2, .srcLen .s2, .srcAddr .s3, .srcLen .s3,
    .dstAddr .d0, .dstAddr .d1, .arg0, .arg1]

/-- The registers of the register window (`10_state.md` R21). -/
inductive Reg
  | id
  | cmd
  | status
  | ctrl
  | operand (r : OpReg)
  | res0Len
  | res1Len
  | ciphCnt
  | compCnt
  | latchInfo
  | lenLo
  | lenHi
  | h (i : Fin 5)
  | chunk (k : Fin 16)
  | reserved
  deriving DecidableEq, Repr

/-- One host access, at an address of the host's address space (`20_memory.md` R63); a host may ask for any width in bytes
(R64). -/
inductive Access
  | read (addr : Nat) (width : Nat)
  | write (addr : Nat) (width : Nat) (value : Word)
  deriving DecidableEq, Repr

/-- Whose turn it is next (`20_memory.md` R74): the engine, a host access, the host's polling loop `WAIT`
(`30_encoding.md` R89), or the platform's reset signal (`70_reset_and_hazards.md` R272). -/
inductive Turn
  | engine
  | access (a : Access)
  | wait
  | hardReset
  deriving DecidableEq, Repr

/-- The command names of a host program line (`30_encoding.md` R81, R87). -/
inductive Mnemonic
  | NOP | BLK_ENC | BLK_DEC | ECB_ENC | ECB_DEC | CBC_ENC | CBC_DEC | CTR_XOR | CTR_EDIT | PAD | UNPAD
  | H_INIT | H_ABSORB | H_FINAL | H_MDPAD | H_IMPORT | H_EXPORT | MAC | FORGE
  deriving DecidableEq, Repr

/-- An operand of a command line (`30_encoding.md` R87). -/
inductive LineOperand
  | src (k : Src) (addr len : Nat)
  | dst (k : Dst) (addr : Nat)
  | a0 (v : Nat)
  | a1 (v : Nat)
  | a64 (v : Nat)
  deriving DecidableEq, Repr

/-- A command line `MNEMONIC [.FAMILY] OPERANDS` (`30_encoding.md` R87). -/
structure CommandLine where
  mnemonic : Mnemonic
  family   : Option Family
  operands : List LineOperand
  deriving DecidableEq, Repr

/-- A line of a host program: a command line, or a pseudo-instruction (`30_encoding.md` R87, R89). -/
inductive HostLine
  | command (l : CommandLine)
  | wait
  | put (addr : Nat) (bytes : List Byte)
  | get (addr n : Nat)
  | check (err : Nat)
  | clrst
  | srst
  | blen (bits : Bool)
  | wr (r : Reg) (v : Word)
  | rd (r : Reg)
  deriving DecidableEq, Repr

end Sys2Proof
end

