-- ==== Sys2Proof/WellFormed.lean ====
section
/-! DEFINITION. Well-formedness: of a command word's fields (`30_encoding.md` R83, R84), of a command, and of a
command line (R87). -/

namespace Sys2Proof

/-- The assigned opcodes, in the order of the table of `30_encoding.md` R81. -/
def assignedOps : List (BitVec 8) :=
  [0x00, 0x01, 0x02, 0x10, 0x11, 0x12, 0x13, 0x14, 0x15, 0x20, 0x21] ++
    [0x30, 0x31, 0x32, 0x33, 0x34, 0x35, 0x38, 0x39]

/-- The reserved bits are 0 (`30_encoding.md` R84). -/
def CmdWord.rsvZero (w : CmdWord) : Bool := w.rsv == 0

/-- The opcode is assigned (`30_encoding.md` R81). -/
def CmdWord.opAssigned (w : CmdWord) : Bool := assignedOps.contains w.op

/-- `FAM` is 0 unless the opcode is a hash command's, 0x30 and above (`30_encoding.md` R83). -/
def CmdWord.famAllowed (w : CmdWord) : Bool := !w.fam || 0x30 ≤ w.op.toNat

/-- The word is that of a command (`30_encoding.md` R83). -/
def CmdWord.wf (w : CmdWord) : Bool := w.rsvZero && w.opAssigned && w.famAllowed

/-- A command is well formed when its word is. -/
def Instr.wf (i : Instr) : Bool := i.fields.wf

/-- The hash commands, the only ones that take a family (`30_encoding.md` R87). -/
def Mnemonic.isHash : Mnemonic → Bool
  | .H_INIT | .H_ABSORB | .H_FINAL | .H_MDPAD | .H_IMPORT | .H_EXPORT | .MAC | .FORGE => true
  | .NOP | .BLK_ENC | .BLK_DEC | .ECB_ENC | .ECB_DEC | .CBC_ENC | .CBC_DEC | .CTR_XOR | .CTR_EDIT
  | .PAD | .UNPAD => false

/-- The registers an operand names, each with its value; `a64=v` stands for `a0=(v mod 2^32) a1=(v div 2^32)`
(`30_encoding.md` R87). -/
def LineOperand.settings : LineOperand → List (OpReg × Nat)
  | .src k a n => [(.srcAddr k, a), (.srcLen k, n)]
  | .dst k a => [(.dstAddr k, a)]
  | .a0 v => [(.arg0, v)]
  | .a1 v => [(.arg1, v)]
  | .a64 v => [(.arg0, v % 2 ^ 32), (.arg1, v / 2 ^ 32)]

/-- All the settings of a line, in the order written. -/
def CommandLine.settings (l : CommandLine) : List (OpReg × Nat) := l.operands.flatMap LineOperand.settings

/-- A family stands only on a hash command (`30_encoding.md` R87). -/
def CommandLine.familyAllowed (l : CommandLine) : Bool := l.family.isNone || l.mnemonic.isHash

/-- Every value fits its 32-bit register (`10_state.md` R28). DESIGN CHOICE, log 10: R87 sets no bound on a literal and gives
no meaning to one that does not fit. -/
def CommandLine.valuesFit (l : CommandLine) : Bool := l.settings.all fun p => p.2 < 2 ^ 32

/-- No register is named twice. DESIGN CHOICE, log 10: R87 gives no meaning to a line that does. -/
def CommandLine.namedOnce (l : CommandLine) : Bool := decide (l.settings.map Prod.fst).Nodup

/-- The line is one of `30_encoding.md` R87. -/
def CommandLine.wf (l : CommandLine) : Bool := l.familyAllowed && l.valuesFit && l.namedOnce

end Sys2Proof
end

