-- ==== Sys2Proof/Decode.lean ====
section
/-! DEFINITION. The decoder of command words (`30_encoding.md` R83), total on every 32-bit value and rejecting by
name, and the encoder (R82). -/

namespace Sys2Proof

/-- Why a command word does not decode (`30_encoding.md` R84). -/
inductive DecodeError
  /-- A bit of `RSV` [31:9] is 1. -/
  | reservedBits
  /-- `OP` is not in the table of R81. -/
  | unassignedOp
  /-- `FAM` = 1 with `OP` < 0x30. -/
  | familyOnNonHash
  deriving DecidableEq, Repr

/-- `OP` = bits [7:0] of a command word (`30_encoding.md` R80). -/
def opField (v : Word) : BitVec 8 := v.extractLsb' 0 8

/-- `FAM` = bit [8] (`30_encoding.md` R80). -/
def famField (v : Word) : Bool := v.getLsbD 8

/-- `RSV` = bits [31:9] (`30_encoding.md` R80). -/
def rsvField (v : Word) : BitVec 23 := v.extractLsb' 9 23

/-- The table of `30_encoding.md` R81: the command of an opcode. -/
def commandOf (op : Nat) (fam : Family) : Option Instr :=
  match op with
  | 0x00 => some .nop
  | 0x01 => some .blkEnc
  | 0x02 => some .blkDec
  | 0x10 => some .ecbEnc
  | 0x11 => some .ecbDec
  | 0x12 => some .cbcEnc
  | 0x13 => some .cbcDec
  | 0x14 => some .ctrXor
  | 0x15 => some .ctrEdit
  | 0x20 => some .pad
  | 0x21 => some .unpad
  | 0x30 => some (.hInit fam)
  | 0x31 => some (.hAbsorb fam)
  | 0x32 => some (.hFinal fam)
  | 0x33 => some (.hMdpad fam)
  | 0x34 => some (.hImport fam)
  | 0x35 => some (.hExport fam)
  | 0x38 => some (.mac fam)
  | 0x39 => some (.forge fam)
  | _ => none

/-- The decoder, the checks in the order of `30_encoding.md` R83. -/
def decode (v : Word) : Except DecodeError Instr :=
  if rsvField v ≠ 0 then .error .reservedBits
  else
    match commandOf (opField v).toNat (Family.ofBit (famField v)) with
    | none => .error .unassignedOp
    | some i =>
      if (opField v).toNat < 0x30 ∧ famField v = true then .error .familyOnNonHash else .ok i

/-- The encoder: `OP | (FAM << 8)` (`30_encoding.md` R82). -/
def encode (i : Instr) : Word := i.op.setWidth 32 ||| ((BitVec.ofBool i.fam.bit).setWidth 32 <<< 8)

/-- The instruction the decoder reads from a word of the opcode table; bits from `nbits` up are 0. -/
def decodeTableWord (nbits w : Nat) : Option Instr :=
  match decode (BitVec.ofNat 32 (w % 2 ^ nbits)) with
  | .ok i => some i
  | .error _ => none

end Sys2Proof
end

