-- ==== Sys2Proof/Machine/State.lean ====
section
/-! DEFINITION. The state of the block as plain data (`10_state.md` R20, `20_memory.md` R60), with the host's
pending actions and the answer of the bus beside it, and the state after a hard reset (`70_reset_and_hazards.md` R270). -/

namespace Sys2Proof.Machine

/-- The error codes of `STATUS.ERR` (`60_exceptions.md` R245); codes 7 to 15 are never produced. -/
inductive Err
  | ok
  | validation
  | padding
  | alignment
  | range
  | illegalOp
  | state
  deriving DecidableEq, Repr

/-- The fields of `STATUS` that are not reserved (`10_state.md` R24). -/
structure Status where
  busy   : Bool
  done   : Bool
  err    : Err
  sticky : Bool
  ovr    : Bool
  deriving DecidableEq, Repr

/-- The operand registers (`10_state.md` R28). -/
structure OperandRegs where
  src0Addr : Word
  src0Len  : Word
  src1Addr : Word
  src1Len  : Word
  src2Addr : Word
  src2Len  : Word
  src3Addr : Word
  src3Len  : Word
  dst0Addr : Word
  dst1Addr : Word
  arg0     : Word
  arg1     : Word
  deriving DecidableEq, Repr

/-- Five chaining words `H[0..4]`, of which the first N are used (`10_state.md` R40). -/
structure Chain where
  h0 : Word
  h1 : Word
  h2 : Word
  h3 : Word
  h4 : Word
  deriving DecidableEq, Repr

/-- The chaining-state latch `L` (`10_state.md` R40). -/
structure Latch where
  valid : Bool
  fam   : Family
  h     : Chain
  len   : Dword
  part  : List Byte
  deriving DecidableEq, Repr

/-- The buffer memory: the written bytes by address, addresses strictly rising. An address that is not listed is
unwritten and holds no value (`70_reset_and_hazards.md` R272). -/
abbrev Memory := List Host.Cell

/-- The canonical form of a memory: addresses strictly rising. An unlisted address reads as no value, so no entry can
equal what it reads as. -/
abbrev Memory.wf (m : Memory) : Prop := m.Pairwise fun c d => c.1 < d.1

/-- What the bus answered to the last host action (`20_memory.md` R64, R65). -/
inductive Resp
  /-- No host action yet. -/
  | none
  /-- A read's value, of the width asked for. -/
  | data (width : Nat) (value : Word)
  /-- A write that completed, accepted, ignored or refused. -/
  | ack
  /-- A bus error: illegal width, alignment or target inside the block's window. -/
  | busError
  /-- An access outside the block's window: the block does not answer (log 9). -/
  | notSelected
  deriving DecidableEq, Repr

/-- Why the model stops. -/
inductive Fault
  /-- Raised by a command's source region, or by a host read while `BUSY` = 0, that covers an unwritten byte of `BUF`,
  at its first unwritten address (`70_reset_and_hazards.md` R272). SAFE: the chip returns an unspecified byte there. -/
  | unwrittenByte (addr : Nat)
  deriving DecidableEq, Repr

/-- Why an instruction is refused. -/
inductive Refusal
  /-- Raised by an arm of `exec` whose instruction has no meaning yet; no arm does. SAFE. -/
  | notModelled (mnemonic : String)
  deriving DecidableEq, Repr

/-- The whole state. `par`, `turns`, `resp` and `draws` are the model's own (logs 1, 3, 4, 5). -/
structure State where
  par     : Params
  cmd     : Word
  status  : Status
  blenBits : Bool
  ops     : OperandRegs
  res0Len : Word
  res1Len : Word
  ciphCnt : Word
  compCnt : Word
  latch   : Latch
  buf     : Memory
  turns   : List Turn
  resp    : Resp
  draws   : Nat
  deriving DecidableEq, Repr

/-- `STATUS` after reset (`70_reset_and_hazards.md` R270). -/
def Status.reset : Status := { busy := false, done := false, err := .ok, sticky := false, ovr := false }

/-- The operand registers after reset (`70_reset_and_hazards.md` R270). -/
def OperandRegs.reset : OperandRegs :=
  { src0Addr := 0, src0Len := 0, src1Addr := 0, src1Len := 0, src2Addr := 0, src2Len := 0, src3Addr := 0,
    src3Len := 0, dst0Addr := 0, dst1Addr := 0, arg0 := 0, arg1 := 0 }

/-- The latch after reset (`10_state.md` R45). -/
def Latch.reset : Latch :=
  { valid := false, fam := .A, h := { h0 := 0, h1 := 0, h2 := 0, h3 := 0, h4 := 0 }, len := 0, part := [] }

/-- The block right after a hard reset (`70_reset_and_hazards.md` R270, R272): every byte of `BUF` unwritten, no
pending command. The last three fields are the model's own (logs 3, 4, 5). -/
def State.reset : State :=
  { par := Params.default, cmd := 0, status := Status.reset, blenBits := false, ops := OperandRegs.reset,
    res0Len := 0, res1Len := 0, ciphCnt := 0, compCnt := 0, latch := Latch.reset, buf := [],
    turns := [], resp := .none, draws := 0 }

end Sys2Proof.Machine
end

