-- ==== Sys2Proof/Machine/Bytes.lean ====
section
/-! DEFINITION. Byte sequences and the encodings of integers as bytes (`00_scope.md` R10, R11, R12). -/

namespace Sys2Proof.Machine

/-- `rotl32(a, s)` (`00_scope.md` R10). -/
def rotl32 (a : Word) (s : Nat) : Word := (a <<< s) ||| (a >>> (32 - s))

/-- `LE_n(v)`: byte `i` is `(v div 2^(8i)) mod 256` (`00_scope.md` R12). -/
def leBytes : (n v : Nat) → List Byte
  | 0, _ => []
  | n + 1, v => BitVec.ofNat 8 v :: leBytes n (v / 256)

/-- `BE_n(v)`: the bytes of `LE_n(v)` in the other order (`00_scope.md` R12). -/
def beBytes (n v : Nat) : List Byte := (leBytes n v).reverse

/-- `fromLE` (`00_scope.md` R12). -/
def fromLE : List Byte → Nat
  | [] => 0
  | b :: s => b.toNat + 256 * fromLE s

/-- `fromBE` (`00_scope.md` R12). -/
def fromBE (s : List Byte) : Nat := fromLE s.reverse

/-- `s ^ t`, byte by byte (`00_scope.md` R11). -/
def xorBytes (s t : List Byte) : List Byte := List.zipWith (· ^^^ ·) s t

/-- `rep(b, n)` (`00_scope.md` R11). -/
def rep (b : Byte) (n : Nat) : List Byte := List.replicate n b

/-- `s[i .. j)` (`00_scope.md` R11): empty when `j ≤ i`. -/
def slice (s : List Byte) (i j : Nat) : List Byte := (s.drop i).take (j - i)

/-- The first `m` runs of `n` bytes of a sequence. -/
def runs (n : Nat) : (m : Nat) → List Byte → List (List Byte)
  | 0, _ => []
  | m + 1, s => s.take n :: runs n m (s.drop n)

end Sys2Proof.Machine
end

