-- ==== Sys2Proof/Machine/Flags.lean ====
section
/-! DEFINITION. `STATUS`: its word, what a host write clears, what an accepted or refused write does to it, and what
the completion of a command leaves in it (`10_state.md` R23 to R25, `60_exceptions.md` R245, R246). -/

namespace Sys2Proof.Machine

/-- The codes of `60_exceptions.md` R245. -/
def Err.code : Err → Nat
  | .ok => 0
  | .validation => 1
  | .padding => 2
  | .alignment => 3
  | .range => 4
  | .illegalOp => 5
  | .state => 6

/-- The word `STATUS` reads (`10_state.md` R24). -/
def Status.word (s : Status) : Word :=
  BitVec.ofNat 32
    (s.busy.toNat + 2 * s.done.toNat + 2 ^ 4 * s.err.code + 2 ^ 8 * s.sticky.toNat + 2 ^ 9 * s.ovr.toNat)

/-- A host write of `v` to `STATUS` (`10_state.md` R25). -/
def Status.hostWrite (s : Status) (v : Word) : Status :=
  { s with
    done := s.done && !v.getLsbD 1
    sticky := s.sticky && !v.getLsbD 8
    ovr := s.ovr && !v.getLsbD 9 }

/-- An accepted `CMD` write (`10_state.md` R23). -/
def Status.issued (s : Status) : Status := { s with busy := true, done := false }

/-- A write refused because `BUSY` = 1 (`10_state.md` R24). -/
def Status.refused (s : Status) : Status := { s with ovr := true }

/-- The completion of a command with code `e` (`60_exceptions.md` R246); `OVR` is unchanged. -/
def Status.completed (s : Status) (e : Err) : Status :=
  { busy := false, done := true, err := e, sticky := s.sticky || e ≠ .ok, ovr := s.ovr }

end Sys2Proof.Machine
end

