-- ==== Sys2Proof/Machine/Operands.lean ====
section
/-! DEFINITION. The operand registers by name, and the operands a command takes from them (`10_state.md` R28,
`30_encoding.md` R85). -/

namespace Sys2Proof.Machine

/-- `x[SRCk_ADDR]`. -/
def OperandRegs.srcAddr (o : OperandRegs) : Src → Word
  | .s0 => o.src0Addr
  | .s1 => o.src1Addr
  | .s2 => o.src2Addr
  | .s3 => o.src3Addr

/-- `x[SRCk_LEN]`. -/
def OperandRegs.srcLen (o : OperandRegs) : Src → Word
  | .s0 => o.src0Len
  | .s1 => o.src1Len
  | .s2 => o.src2Len
  | .s3 => o.src3Len

/-- `x[DSTk_ADDR]`. -/
def OperandRegs.dstAddr (o : OperandRegs) : Dst → Word
  | .d0 => o.dst0Addr
  | .d1 => o.dst1Addr

/-- Reading an operand register (`10_state.md` R28). -/
def OperandRegs.get (o : OperandRegs) : OpReg → Word
  | .srcAddr k => o.srcAddr k
  | .srcLen k => o.srcLen k
  | .dstAddr k => o.dstAddr k
  | .arg0 => o.arg0
  | .arg1 => o.arg1

/-- Writing an operand register (`10_state.md` R28). -/
def OperandRegs.set (o : OperandRegs) (r : OpReg) (v : Word) : OperandRegs :=
  match r with
  | .srcAddr .s0 => { o with src0Addr := v }
  | .srcLen .s0 => { o with src0Len := v }
  | .srcAddr .s1 => { o with src1Addr := v }
  | .srcLen .s1 => { o with src1Len := v }
  | .srcAddr .s2 => { o with src2Addr := v }
  | .srcLen .s2 => { o with src2Len := v }
  | .srcAddr .s3 => { o with src3Addr := v }
  | .srcLen .s3 => { o with src3Len := v }
  | .dstAddr .d0 => { o with dst0Addr := v }
  | .dstAddr .d1 => { o with dst1Addr := v }
  | .arg0 => { o with arg0 := v }
  | .arg1 => { o with arg1 := v }

/-- `ARG64 = x[ARG1] * 2^32 + x[ARG0]` (`30_encoding.md` R85). -/
def OperandRegs.arg64 (o : OperandRegs) : Dword := o.arg1 ++ o.arg0

/-- The PKCS#7 block size `B` (`42_padding.md` R160). -/
def OperandRegs.blockSize (o : OperandRegs) : Nat := if o.arg0 = 0 then Config.padDefault else o.arg0.toNat

end Sys2Proof.Machine
end

