-- ==== Sys2Proof/Machine/Ops.lean ====
section
/-! DEFINITION. The shared operations: bytes of `BUF`, the helpers `S`, `need`, `emit`, `count` and `latch` of every
command's pseudocode, and the end of a command: commit, failure, model fault (`60_exceptions.md` R246 to R249).

The block has no traps (`60_exceptions.md` R256): no exception is taken and none is returned from. What stands in
their place is `perform`, the one operation by which a command ends. -/

namespace Sys2Proof.Machine

/-! ### The buffer memory (`20_memory.md` R60) -/

/-- One byte of `BUF`; `none` for a byte nothing has written (`70_reset_and_hazards.md` R272). -/
def Memory.read : Memory → Nat → Option Byte
  | [], _ => none
  | (x, b) :: m, a => if x = a then some b else Memory.read m a

/-- Writing one byte; the canonical form is kept. -/
def Memory.write : Memory → Nat → Byte → Memory
  | [], a, b => [(a, b)]
  | (x, c) :: m, a, b =>
    if a < x then (a, b) :: (x, c) :: m
    else if a = x then (a, b) :: m
    else (x, c) :: Memory.write m a b

/-- `MemRead(a, n)` (`00_scope.md` R13), or the address of the first unwritten byte. -/
def Memory.readBytes (m : Memory) : (a n : Nat) → Except Nat (List Byte)
  | _, 0 => .ok []
  | a, n + 1 =>
    match m.read a with
    | none => .error a
    | some b =>
      match m.readBytes (a + 1) n with
      | .error e => .error e
      | .ok s => .ok (b :: s)

/-- `MemWrite(a, len(d), d)` (`00_scope.md` R13). -/
def Memory.writeBytes (m : Memory) (a : Nat) : List Byte → Memory
  | [] => m
  | b :: d => Memory.writeBytes (m.write a b) (a + 1) d

/-- A region is in range iff `a + n ≤ BUF_BYTES`, without wrap-around (`20_memory.md` R61). -/
def inRange (p : Params) (a n : Nat) : Bool := a + n ≤ p.bufBytes

/-! ### A command's pseudocode (`60_exceptions.md` R248) -/

/-- How a command's pseudocode ends early: `raise`, or a model fault (`70_reset_and_hazards.md` R272). -/
inductive Stop
  | raise (e : Err)
  | fault (f : Fault)
  deriving DecidableEq, Repr

/-- `S(k)`: the bytes of source region `k` (`60_exceptions.md` R248). -/
def source (s : State) (k : Src) : Except Stop (List Byte) :=
  if inRange s.par (s.ops.srcAddr k).toNat (s.ops.srcLen k).toNat then
    match s.buf.readBytes (s.ops.srcAddr k).toNat (s.ops.srcLen k).toNat with
    | .ok d => .ok d
    | .error a => .error (.fault (.unwrittenByte a))
  else .error (.raise .range)

/-- `need(c)`: `VALIDATION` unless `c` (`60_exceptions.md` R248). -/
def need (c : Bool) : Except Stop Unit := if c then .ok () else .error (.raise .validation)

/-- `if not c: raise e`. -/
def check (c : Bool) (e : Err) : Except Stop Unit := if c then .ok () else .error (.raise e)

/-- What a command has gathered for its commit: `pending`, `res`, `cc`, `hc` and `newL` (`60_exceptions.md` R248). -/
structure Effect where
  pending : List (Nat × List Byte)
  res0    : Nat
  res1    : Nat
  cc      : Nat
  hc      : Nat
  newL    : Latch
  deriving DecidableEq, Repr

/-- Nothing gathered yet. -/
def Effect.start (s : State) : Effect :=
  { pending := [], res0 := 0, res1 := 0, cc := 0, hc := 0, newL := s.latch }

/-- `emit(k, d)` (`60_exceptions.md` R248). -/
def Effect.emit (e : Effect) (s : State) (k : Dst) (d : List Byte) : Effect :=
  let e := { e with pending := e.pending ++ [((s.ops.dstAddr k).toNat, d)] }
  match k with
  | .d0 => { e with res0 := d.length }
  | .d1 => { e with res1 := d.length }

/-- `count(cipher = c, comp = h)` (`60_exceptions.md` R248). -/
def Effect.count (e : Effect) (c h : Nat) : Effect := { e with cc := e.cc + c, hc := e.hc + h }

/-- `latch(S)` (`60_exceptions.md` R248). -/
def Effect.latch (e : Effect) (l : Latch) : Effect := { e with newL := l }

/-! ### The end of a command -/

/-- Completion with code `e` (`60_exceptions.md` R246). With a code other than OK this is all a command does (R249). -/
def State.complete (s : State) (e : Err) : State := { s with status := s.status.completed e }

/-- All pending writes, in order; the later wins where two overlap (`00_scope.md` R14). -/
def Memory.writeAll (m : Memory) : List (Nat × List Byte) → Memory
  | [] => m
  | (a, d) :: w => Memory.writeAll (m.writeBytes a d) w

/-- The commit of a command: the writes, the result lengths, the counters and the latch (`60_exceptions.md` R248). -/
def State.commit (s : State) (e : Effect) : State :=
  { s with
    buf := s.buf.writeAll e.pending
    res0Len := BitVec.ofNat 32 e.res0
    res1Len := BitVec.ofNat 32 e.res1
    ciphCnt := s.ciphCnt + BitVec.ofNat 32 e.cc
    compCnt := s.compCnt + BitVec.ofNat 32 e.hc
    latch := e.newL }

/-- Every destination is in range (`60_exceptions.md` R248). -/
def Effect.fits (e : Effect) (s : State) : Bool := e.pending.all fun w => inRange s.par w.1 w.2.length

/-- The end of a command (`60_exceptions.md` R248): the destination checks, then the commit; or the failure with a
code (R249); or the model fault. -/
def perform (s : State) (body : Except Stop Effect) : Host.Outcome State Fault Refusal :=
  match body with
  | .error (.fault f) => .fault f
  | .error (.raise e) => .next (s.complete e)
  | .ok e => if e.fits s then .next ((s.commit e).complete .ok) else .next (s.complete .range)

end Sys2Proof.Machine
end

