-- ==== Sys2Proof/Machine/Control.lean ====
section
/-! DEFINITION. The control command NOP (`45_control.md` R240), and the command word that does not decode
(`60_exceptions.md` R245, R248). -/

namespace Sys2Proof.Machine

/-- `NOP`: a successful command with no output (`45_control.md` R240). -/
def execNop (s : State) : Host.Outcome State Fault Refusal := perform s (.ok (Effect.start s))

/-- A command word that decodes to ILLEGAL fails with `ILLEGAL_OP` (`30_encoding.md` R83, R84). -/
def failIllegal (s : State) : Host.Outcome State Fault Refusal := perform s (.error (.raise .illegalOp))

end Sys2Proof.Machine
end

