-- ==== Sys2Proof/Machine/Hash.lean ====
section
/-! DEFINITION. The hash engine: SHA-1 and MD4 compression, MD padding, serialisation and absorption (`43_hash.md`
R180 to R193), and the commands H_INIT, H_ABSORB, H_FINAL, H_MDPAD, H_IMPORT and H_EXPORT (R194 to R200). -/

namespace Sys2Proof.Machine

/-! ### Chunk words (`43_hash.md` R182) -/

/-- The 4-byte words of a sequence, each read by `f`. -/
def wordsBy (f : List Byte → Nat) : List Byte → List Word
  | a :: b :: c :: d :: s => BitVec.ofNat 32 (f [a, b, c, d]) :: wordsBy f s
  | _ => []

/-- `M[0 .. 16)` of a chunk: big-endian for family A, little-endian for B (`43_hash.md` R182). -/
def chunkWords : Family → List Byte → List Word
  | .A => wordsBy fromBE
  | .B => wordsBy fromLE

/-! ### SHA-1 (`43_hash.md` R183, R184, R186) -/

/-- `f_t(b, c, d)` (`43_hash.md` R183). -/
def sha1F (t : Nat) (b c d : Word) : Word :=
  if t < 20 then (b &&& c) ^^^ (~~~b &&& d)
  else if t < 40 then b ^^^ c ^^^ d
  else if t < 60 then (b &&& c) ^^^ (b &&& d) ^^^ (c &&& d)
  else b ^^^ c ^^^ d

/-- `K_t` (`43_hash.md` R183). -/
def sha1K (t : Nat) : Word :=
  if t < 20 then 0x5A827999
  else if t < 40 then 0x6ED9EBA1
  else if t < 60 then 0x8F1BBCDC
  else 0xCA62C1D6

/-- `W[t]` for `t ≥ 16` from the words before it, the latest first (`43_hash.md` R184). -/
def sha1NextW (w : List Word) : Word := rotl32 (w.getD 2 0 ^^^ w.getD 7 0 ^^^ w.getD 13 0 ^^^ w.getD 15 0) 1

/-- `W[0 .. 16 + n)`, the latest first (`43_hash.md` R184). -/
def sha1Schedule (M : List Word) : Nat → List Word
  | 0 => M.reverse
  | n + 1 => let w := sha1Schedule M n; sha1NextW w :: w

/-- One step of the compression; the working registers a to e stand in `h0` to `h4` (`43_hash.md` R186). -/
def sha1Step (v : Chain) (t : Nat) (Wt : Word) : Chain :=
  { h0 := rotl32 v.h0 5 + sha1F t v.h1 v.h2 v.h3 + v.h4 + sha1K t + Wt
    h1 := v.h0
    h2 := rotl32 v.h1 30
    h3 := v.h2
    h4 := v.h3 }

/-- The steps from `t` on, over the remaining schedule words. -/
def sha1Steps : (t : Nat) → List Word → Chain → Chain
  | _, [], v => v
  | t, Wt :: ws, v => sha1Steps (t + 1) ws (sha1Step v t Wt)

/-- `compress(A, H, m)` (`43_hash.md` R186). -/
def sha1Compress (H : Chain) (m : List Byte) : Chain :=
  let v := sha1Steps 0 (sha1Schedule (chunkWords .A m) 64).reverse H
  { h0 := H.h0 + v.h0, h1 := H.h1 + v.h1, h2 := H.h2 + v.h2, h3 := H.h3 + v.h3, h4 := H.h4 + v.h4 }

/-! ### MD4 (`43_hash.md` R185, R187) -/

/-- `F`, `G`, `H` of rounds 1, 2, 3 (`43_hash.md` R185). -/
def md4F (r : Nat) (x y z : Word) : Word :=
  if r = 1 then (x &&& y) ||| (~~~x &&& z)
  else if r = 2 then (x &&& y) ||| (x &&& z) ||| (y &&& z)
  else x ^^^ y ^^^ z

/-- The round constants (`43_hash.md` R185). -/
def md4K (r : Nat) : Word := if r = 1 then 0 else if r = 2 then 0x5A827999 else 0x6ED9EBA1

/-- `table[r]`: message word and shift of each step (`43_hash.md` R187). -/
def md4Table : Nat → List (Nat × Nat)
  | 1 => [(0, 3), (1, 7), (2, 11), (3, 19), (4, 3), (5, 7), (6, 11), (7, 19),
      (8, 3), (9, 7), (10, 11), (11, 19), (12, 3), (13, 7), (14, 11), (15, 19)]
  | 2 => [(0, 3), (4, 5), (8, 9), (12, 13), (1, 3), (5, 5), (9, 9), (13, 13),
      (2, 3), (6, 5), (10, 9), (14, 13), (3, 3), (7, 5), (11, 9), (15, 13)]
  | _ => [(0, 3), (8, 9), (4, 11), (12, 15), (2, 3), (10, 9), (6, 11), (14, 15),
      (1, 3), (9, 9), (5, 11), (13, 15), (3, 3), (11, 9), (7, 11), (15, 15)]

/-- One step of round `r` (`43_hash.md` R187). The register it updates, `v[t]` with `t = (−q) mod 4`, stands in `h0`
and the three after it in `h1` to `h3`; the next step's register is the one before, so the four are turned by one
place, and after 16 steps they stand as A, B, C, D again. -/
def md4Step (r : Nat) (X : List Word) (v : Chain) (js : Nat × Nat) : Chain :=
  let u := rotl32 (v.h0 + md4F r v.h1 v.h2 v.h3 + X.getD js.1 0 + md4K r) js.2
  { v with h0 := v.h3, h1 := u, h2 := v.h1, h3 := v.h2 }

/-- The 16 steps of round `r` (`43_hash.md` R187). -/
def md4Round (X : List Word) (v : Chain) (r : Nat) : Chain := (md4Table r).foldl (md4Step r X) v

/-- `compress(B, H, m)` (`43_hash.md` R187); `H[4]` is not used and stays (`10_state.md` R42). -/
def md4Compress (H : Chain) (m : List Byte) : Chain :=
  let X := chunkWords .B m
  let v := md4Round X (md4Round X (md4Round X H 1) 2) 3
  { h0 := H.h0 + v.h0, h1 := H.h1 + v.h1, h2 := H.h2 + v.h2, h3 := H.h3 + v.h3, h4 := H.h4 }

/-! ### Family records, padding, serialisation, absorption (`43_hash.md` R180, R189 to R193) -/

/-- `compress(fam, H, chunk)` (`43_hash.md` R180). -/
def compress : Family → Chain → List Byte → Chain
  | .A => sha1Compress
  | .B => md4Compress

/-- The initial words of a family; `H[N..5) = 0` (`10_state.md` R41, `43_hash.md` R194). -/
def initialWords : Family → Chain
  | .A => { h0 := 0x67452301, h1 := 0xEFCDAB89, h2 := 0x98BADCFE, h3 := 0x10325476, h4 := 0xC3D2E1F0 }
  | .B => { h0 := 0x67452301, h1 := 0xEFCDAB89, h2 := 0x98BADCFE, h3 := 0x10325476, h4 := 0 }

/-- `lenfield(fam, Lt)`; `bits` is `CTRL.BLEN_BITS` (`43_hash.md` R189). -/
def lenField (fam : Family) (bits : Bool) (Lt : Dword) : List Byte :=
  match fam with
  | .A => beBytes 8 (8 * Lt).toNat
  | .B => if bits then leBytes 8 (8 * Lt).toNat else leBytes 8 Lt.toNat

/-- `z = (55 − (Lt mod 64)) mod 64`, the zero bytes of the padding (`43_hash.md` R190). -/
def padZeros (Lt : Dword) : Nat := (55 + 64 - Lt.toNat % 64) % 64

/-- `mdpad(fam, Lt) = 0x80 ∥ rep(0x00, z) ∥ lenfield(fam, Lt)` (`43_hash.md` R190). -/
def mdpad (fam : Family) (bits : Bool) (Lt : Dword) : List Byte :=
  0x80 :: (rep 0x00 (padZeros Lt) ++ lenField fam bits Lt)

/-- The N chaining words of a family, in order. -/
def Chain.used (H : Chain) : Family → List Word
  | .A => [H.h0, H.h1, H.h2, H.h3, H.h4]
  | .B => [H.h0, H.h1, H.h2, H.h3]

/-- `serialize(fam, H)` (`43_hash.md` R192). -/
def serialize (fam : Family) (H : Chain) : List Byte :=
  match fam with
  | .A => (H.used .A).flatMap fun w => beBytes 4 w.toNat
  | .B => (H.used .B).flatMap fun w => leBytes 4 w.toNat

/-- `parse(fam, d)`; `H[N..5) = 0` (`43_hash.md` R192, R198). -/
def parse (fam : Family) (d : List Byte) : Chain :=
  let w := chunkWords fam d
  match fam with
  | .A => { h0 := w.getD 0 0, h1 := w.getD 1 0, h2 := w.getD 2 0, h3 := w.getD 3 0, h4 := w.getD 4 0 }
  | .B => { h0 := w.getD 0 0, h1 := w.getD 1 0, h2 := w.getD 2 0, h3 := w.getD 3 0, h4 := 0 }

/-- `n` chunks of `buf` compressed into `H` (the loop of `43_hash.md` R193). -/
def compressChunks (fam : Family) : (n : Nat) → Chain → List Byte → Chain
  | 0, H, _ => H
  | n + 1, H, buf => compressChunks fam n (compress fam H (buf.take 64)) (buf.drop 64)

/-- The compressions that absorbing `d` takes: `(len(S.PART) + len(d)) div 64` (`43_hash.md` R193). -/
def absorbCount (S : Latch) (d : List Byte) : Nat := (S.part.length + d.length) / 64

/-- `absorb(S, d)`, the new latch value (`43_hash.md` R193). -/
def absorb (S : Latch) (d : List Byte) : Latch :=
  { S with
    h := compressChunks S.fam (absorbCount S d) S.h (S.part ++ d)
    part := (S.part ++ d).drop (64 * absorbCount S d)
    len := S.len + BitVec.ofNat 64 d.length }

/-- `init(fam)`, the latch `H_INIT` writes (`43_hash.md` R194). -/
def initLatch (fam : Family) : Latch :=
  { valid := true, fam := fam, h := initialWords fam, len := 0, part := [] }

/-- `import(fam, t, Ld)`, the latch `H_IMPORT` writes (`43_hash.md` R198). -/
def importLatch (fam : Family) (t : List Byte) (Ld : Dword) : Latch :=
  { valid := true, fam := fam, h := parse fam t, len := Ld, part := [] }

/-- The bytes that finish the latch's message (`43_hash.md` R196). -/
def finalPad (S : Latch) (bits : Bool) : List Byte := mdpad S.fam bits S.len

/-! ### Commands -/

/-- `H_INIT` (`43_hash.md` R194). -/
def execHInit (fam : Family) (s : State) : Host.Outcome State Fault Refusal :=
  perform s (.ok ((Effect.start s).latch (initLatch fam)))

/-- `H_ABSORB` (`43_hash.md` R195). -/
def execHAbsorb (fam : Family) (s : State) : Host.Outcome State Fault Refusal :=
  perform s do
    check s.latch.valid .state
    let d ← source s .s0
    need (fam == s.latch.fam)
    return (((Effect.start s).latch (absorb s.latch d)).count 0 (absorbCount s.latch d))

/-- `H_FINAL` (`43_hash.md` R196). -/
def execHFinal (fam : Family) (s : State) : Host.Outcome State Fault Refusal :=
  perform s do
    check s.latch.valid .state
    need (fam == s.latch.fam)
    let p := finalPad s.latch s.blenBits
    let L := absorb s.latch p
    return ((((Effect.start s).emit s .d0 (serialize s.latch.fam L.h)).latch L).count 0 (absorbCount s.latch p))

/-- `H_MDPAD` (`43_hash.md` R197). -/
def execHMdpad (fam : Family) (s : State) : Host.Outcome State Fault Refusal :=
  perform s (.ok ((Effect.start s).emit s .d0 (mdpad fam s.blenBits s.ops.arg64)))

/-- `H_IMPORT` (`43_hash.md` R198). -/
def execHImport (fam : Family) (s : State) : Host.Outcome State Fault Refusal :=
  perform s do
    let dg ← source s .s0
    need (dg.length == 4 * fam.words)
    check (s.ops.arg64.toNat % 64 == 0) .alignment
    return (Effect.start s).latch (importLatch fam dg s.ops.arg64)

/-- `H_EXPORT` (`43_hash.md` R199). -/
def execHExport (fam : Family) (s : State) : Host.Outcome State Fault Refusal :=
  perform s do
    check s.latch.valid .state
    need (fam == s.latch.fam)
    return (Effect.start s).emit s .d0 (serialize s.latch.fam s.latch.h)

end Sys2Proof.Machine
end

