-- ==== Sys2Proof/Machine/MacForge.lean ====
section
/-! DEFINITION. The prefix MAC and the length-extension forgery (`44_mac_forge.md` R220 to R222). -/

namespace Sys2Proof.Machine

/-- `MAC` (`44_mac_forge.md` R221). -/
def execMac (fam : Family) (s : State) : Host.Outcome State Fault Refusal :=
  perform s do
    let m ← source s .s0
    let k ← source s .s1
    let S1 := absorb (initLatch fam) (k ++ m)
    let c1 := absorbCount (initLatch fam) (k ++ m)
    let p := finalPad S1 s.blenBits
    let S2 := absorb S1 p
    let c2 := absorbCount S1 p
    return ((((Effect.start s).emit s .d0 (serialize fam S2.h)).latch S2).count 0 (c1 + c2))

/-- `T = (x[ARG0] + len(m)) mod 2^64` (`44_mac_forge.md` R222). -/
def forgeTotal (g : Word) (m : List Byte) : Dword := BitVec.ofNat 64 (g.toNat + m.length)

/-- `Ld = (T + len(p)) mod 2^64` (`44_mac_forge.md` R222). -/
def forgeDeclared (T : Dword) (p : List Byte) : Dword := T + BitVec.ofNat 64 p.length

/-- `FORGE` (`44_mac_forge.md` R222): the forged message to DST1 first, then the digest to DST0. -/
def execForge (fam : Family) (s : State) : Host.Outcome State Fault Refusal :=
  perform s do
    let m ← source s .s0
    let x ← source s .s1
    let t ← source s .s2
    need (t.length == 4 * fam.words)
    let T := forgeTotal s.ops.arg0 m
    let p := mdpad fam s.blenBits T
    let Ld := forgeDeclared T p
    check (Ld.toNat % 64 == 0) .alignment
    let S0 := importLatch fam t Ld
    let S1 := absorb S0 x
    let c1 := absorbCount S0 x
    let q := finalPad S1 s.blenBits
    let S2 := absorb S1 q
    let c2 := absorbCount S1 q
    let e := ((Effect.start s).emit s .d1 (m ++ p ++ x)).emit s .d0 (serialize fam S2.h)
    return (e.latch S2).count 0 (c1 + c2)

end Sys2Proof.Machine
end

