-- ==== Sys2Proof/Machine/Cipher.lean ====
section
/-! DEFINITION. The single-block cipher: the contract (`40_cipher.md` R100), AES-128 (R101 to R112), the pair of a block
(`00_scope.md` R7), and the commands BLK_ENC and BLK_DEC (R116, R117). -/

namespace Sys2Proof.Machine

/-- The pair `E(b, k)`, `D(b, k)` (`40_cipher.md` R100). Log 2. -/
structure BlockCipher where
  enc : List Byte → List Byte → List Byte
  dec : List Byte → List Byte → List Byte

/-! ### Field arithmetic (`40_cipher.md` R102) -/

/-- `xtime(a)`. -/
def xtime (a : Byte) : Byte := (a <<< 1) ^^^ (if a.getLsbD 7 then 0x1B else 0x00)

/-- `xtime^i(a)`. -/
def xtimes : Nat → Byte → Byte
  | 0, a => a
  | i + 1, a => xtimes i (xtime a)

/-- `a • b`: the XOR over the bits `i` of `b` that are 1 of `xtime^i(a)`. -/
def gmul (a b : Byte) : Byte :=
  (List.range 8).foldl (fun r i => if b.getLsbD i then r ^^^ xtimes i a else r) 0x00

/-! ### S-boxes (`40_cipher.md` R103, R104): one number a row, first byte most significant -/

/-- The table of `Sbox` (`40_cipher.md` R103). -/
def sboxRows : List Nat :=
  [0x637c777bf26b6fc53001672bfed7ab76, 0xca82c97dfa5947f0add4a2af9ca472c0,
    0xb7fd9326363ff7cc34a5e5f171d83115, 0x04c723c31896059a071280e2eb27b275] ++
  [0x09832c1a1b6e5aa0523bd6b329e32f84, 0x53d100ed20fcb15b6acbbe394a4c58cf,
    0xd0efaafb434d338545f9027f503c9fa8, 0x51a3408f929d38f5bcb6da2110fff3d2] ++
  [0xcd0c13ec5f974417c4a77e3d645d1973, 0x60814fdc222a908846eeb814de5e0bdb,
    0xe0323a0a4906245cc2d3ac629195e479, 0xe7c8376d8dd54ea96c56f4ea657aae08] ++
  [0xba78252e1ca6b4c6e8dd741f4bbd8b8a, 0x703eb5664803f60e613557b986c11d9e,
    0xe1f8981169d98e949b1e87e9ce5528df, 0x8ca1890dbfe6426841992d0fb054bb16]

/-- The table of `InvSbox` (`40_cipher.md` R104). -/
def invSboxRows : List Nat :=
  [0x52096ad53036a538bf40a39e81f3d7fb, 0x7ce339829b2fff87348e4344c4dee9cb,
    0x547b9432a6c2233dee4c950b42fac34e, 0x082ea16628d924b2765ba2496d8bd125] ++
  [0x72f8f66486689816d4a45ccc5d65b692, 0x6c704850fdedb9da5e154657a78d9d84,
    0x90d8ab008cbcd30af7e45805b8b34506, 0xd02c1e8fca3f0f02c1afbd0301138a6b] ++
  [0x3a9111414f67dcea97f2cfcef0b4e673, 0x96ac7422e7ad3585e2f937e81c75df6e,
    0x47f11a711d29c5896fb7620eaa18be1b, 0xfc563e4bc6d279209adbc0fe78cd5af4] ++
  [0x1fdda8338807c731b11210592780ec5f, 0x60517fa919b54a0d2de57a9f93c99cef,
    0xa0e03b4dae2af5b0c8ebbb3c83539961, 0x172b047eba77d626e169146355210c7d]

/-- The byte of a table: row = high nibble, column = low nibble (`40_cipher.md` R103). -/
def tableByte (rows : List Nat) (x : Byte) : Byte :=
  BitVec.ofNat 8 (rows.getD (x.toNat / 16) 0 >>> (8 * (15 - x.toNat % 16)))

/-- `Sbox(x)` (`40_cipher.md` R103). -/
def sbox (x : Byte) : Byte := tableByte sboxRows x

/-- `InvSbox(x)` (`40_cipher.md` R104). -/
def invSbox (x : Byte) : Byte := tableByte invSboxRows x

/-! ### Key expansion (`40_cipher.md` R105, R106) -/

/-- `Rcon[j] = xtime^(j−1)(0x01)` (`40_cipher.md` R105). -/
def rcon (j : Nat) : Byte := xtimes (j - 1) 0x01

/-- RotWord, SubWord and the round constant (`40_cipher.md` R106). -/
def keyCore (j : Nat) : List Byte → List Byte
  | [t0, t1, t2, t3] => [sbox t1 ^^^ rcon j, sbox t2, sbox t3, sbox t0]
  | t => t

/-- `w[i]` from the words before it, the latest first (`40_cipher.md` R106). -/
def nextKeyWord (i : Nat) (w : List (List Byte)) : List Byte :=
  let t := w.getD 0 []
  xorBytes (w.getD 3 []) (if i % 4 = 0 then keyCore (i / 4) t else t)

/-- The words `w[0 .. 4 + n)`, the latest first (`40_cipher.md` R106). -/
def keyWords (k : List Byte) : Nat → List (List Byte)
  | 0 => (runs 4 4 k).reverse
  | n + 1 => nextKeyWord (4 + n) (keyWords k n) :: keyWords k n

/-- `w[0 .. 44)` in order (`40_cipher.md` R106). -/
def keySchedule (k : List Byte) : List (List Byte) := (keyWords k 40).reverse

/-- Round key `r`: `w[4r] ∥ w[4r+1] ∥ w[4r+2] ∥ w[4r+3]` (`40_cipher.md` R106). -/
def roundKey (w : List (List Byte)) (r : Nat) : List Byte := ((w.drop (4 * r)).take 4).flatten

/-! ### The steps of a round (`40_cipher.md` R107 to R109, R112) -/

/-- `AddRoundKey` (`40_cipher.md` R107). -/
def addRoundKey (s rk : List Byte) : List Byte := xorBytes s rk

/-- `SubBytes` (`40_cipher.md` R108). -/
def subBytes (s : List Byte) : List Byte := s.map sbox

/-- `InvSubBytes` (`40_cipher.md` R108). -/
def invSubBytes (s : List Byte) : List Byte := s.map invSbox

/-- `ShiftRows`: byte `r + 4c` of the result is byte `r + 4((c + r) mod 4)` (`40_cipher.md` R108). -/
def shiftRows (s : List Byte) : List Byte :=
  (List.range 16).map fun i => s.getD (i % 4 + 4 * ((i / 4 + i % 4) % 4)) 0x00

/-- `InvShiftRows`: byte `r + 4c` of the result is byte `r + 4((c − r) mod 4)` (`40_cipher.md` R108). -/
def invShiftRows (s : List Byte) : List Byte :=
  (List.range 16).map fun i => s.getD (i % 4 + 4 * ((i / 4 + (4 - i % 4)) % 4)) 0x00

/-- `MixColumns`, column by column (`40_cipher.md` R109). -/
def mixColumns : List Byte → List Byte
  | a0 :: a1 :: a2 :: a3 :: s =>
    (gmul a0 0x02 ^^^ gmul a1 0x03 ^^^ a2 ^^^ a3) ::
    (a0 ^^^ gmul a1 0x02 ^^^ gmul a2 0x03 ^^^ a3) ::
    (a0 ^^^ a1 ^^^ gmul a2 0x02 ^^^ gmul a3 0x03) ::
    (gmul a0 0x03 ^^^ a1 ^^^ a2 ^^^ gmul a3 0x02) :: mixColumns s
  | _ => []

/-- `InvMixColumns`, column by column (`40_cipher.md` R112). -/
def invMixColumns : List Byte → List Byte
  | a0 :: a1 :: a2 :: a3 :: s =>
    (gmul a0 0x0E ^^^ gmul a1 0x0B ^^^ gmul a2 0x0D ^^^ gmul a3 0x09) ::
    (gmul a0 0x09 ^^^ gmul a1 0x0E ^^^ gmul a2 0x0B ^^^ gmul a3 0x0D) ::
    (gmul a0 0x0D ^^^ gmul a1 0x09 ^^^ gmul a2 0x0E ^^^ gmul a3 0x0B) ::
    (gmul a0 0x0B ^^^ gmul a1 0x0D ^^^ gmul a2 0x09 ^^^ gmul a3 0x0E) :: invMixColumns s
  | _ => []

/-- One of the rounds 1 to 9 of the cipher (`40_cipher.md` R110). -/
def encRound (rk s : List Byte) : List Byte := addRoundKey (mixColumns (shiftRows (subBytes s))) rk

/-- One of the rounds 9 down to 1 of the inverse cipher (`40_cipher.md` R111). -/
def decRound (rk s : List Byte) : List Byte := invMixColumns (addRoundKey (invSubBytes (invShiftRows s)) rk)

/-- Rounds 1 to `n` of the cipher (`40_cipher.md` R110). -/
def encRounds (w : List (List Byte)) : Nat → List Byte → List Byte
  | 0, s => s
  | n + 1, s => encRound (roundKey w (n + 1)) (encRounds w n s)

/-- Rounds `n` down to 1 of the inverse cipher (`40_cipher.md` R111). -/
def decRounds (w : List (List Byte)) : Nat → List Byte → List Byte
  | 0, s => s
  | n + 1, s => decRounds w n (decRound (roundKey w (n + 1)) s)

/-- Cipher `E(b, k)` (`40_cipher.md` R110). -/
def aesEnc (b k : List Byte) : List Byte :=
  let w := keySchedule k
  addRoundKey (shiftRows (subBytes (encRounds w 9 (addRoundKey b (roundKey w 0))))) (roundKey w 10)

/-- InvCipher `D(b, k)` (`40_cipher.md` R111). -/
def aesDec (b k : List Byte) : List Byte :=
  let w := keySchedule k
  addRoundKey (invSubBytes (invShiftRows (decRounds w 9 (addRoundKey b (roundKey w 10))))) (roundKey w 0)

/-- AES-128 as a cipher pair (`40_cipher.md` R100, D15). -/
def aes128 : BlockCipher := { enc := aesEnc, dec := aesDec }

/-! ### The pair of a block (`00_scope.md` R7) -/

/-- A function of 128-bit values as one of 16-byte sequences. -/
def onBlocks (f : BitVec 128 → BitVec 128 → BitVec 128) (b k : List Byte) : List Byte :=
  beBytes 16 (f (BitVec.ofNat 128 (fromBE b)) (BitVec.ofNat 128 (fromBE k))).toNat

/-- The pair `E`, `D` of a block with these parameters (`00_scope.md` R7, `40_cipher.md` R100). Log 2. -/
def cipherOf (p : Params) : BlockCipher :=
  match p.cipher with
  | .aes128 => aes128
  | .other => { enc := onBlocks Config.otherE, dec := onBlocks Config.otherD }

/-! ### Commands -/

/-- `BLK_ENC` (`40_cipher.md` R116). -/
def execBlkEnc (s : State) : Host.Outcome State Fault Refusal :=
  perform s do
    let b ← source s .s0
    let k ← source s .s1
    need (b.length == 16 && k.length == 16)
    return (((Effect.start s).emit s .d0 ((cipherOf s.par).enc b k)).count 1 0)

/-- `BLK_DEC` (`40_cipher.md` R117). -/
def execBlkDec (s : State) : Host.Outcome State Fault Refusal :=
  perform s do
    let b ← source s .s0
    let k ← source s .s1
    need (b.length == 16 && k.length == 16)
    return (((Effect.start s).emit s .d0 ((cipherOf s.par).dec b k)).count 1 0)

end Sys2Proof.Machine
end

