-- ==== Sys2Proof/Machine/Padding.lean ====
section
/-! DEFINITION. PKCS#7 padding (`42_padding.md` R160 to R162) and the commands PAD and UNPAD (R163, R164). -/

namespace Sys2Proof.Machine

/-- `pkcs7_pad(s, B)` (`42_padding.md` R161). -/
def pkcs7Pad (s : List Byte) (B : Nat) : List Byte :=
  let n := B - s.length % B
  s ++ rep (BitVec.ofNat 8 n) n

/-- `pkcs7_unpad(s, B)`, the checks in the order of `42_padding.md` R162. -/
def pkcs7Unpad (s : List Byte) (B : Nat) : Except Stop (List Byte) := do
  check (B ≤ s.length) .padding
  let last := s.getD (s.length - 1) 0x00
  let n := last.toNat
  check (n ≠ 0) .padding
  check (n ≤ B) .padding
  check (n ≤ s.length) .padding
  check ((s.drop (s.length - n)).all (· == last)) .padding
  return s.take (s.length - n)

/-- `PAD` (`42_padding.md` R163). -/
def execPad (s : State) : Host.Outcome State Fault Refusal :=
  perform s do
    let d ← source s .s0
    need (s.ops.arg0.toNat ≤ 255)
    return (Effect.start s).emit s .d0 (pkcs7Pad d s.ops.blockSize)

/-- `UNPAD`, the padding validator (`42_padding.md` R164). -/
def execUnpad (s : State) : Host.Outcome State Fault Refusal :=
  perform s do
    let d ← source s .s0
    need (s.ops.arg0.toNat ≤ 255)
    let p ← pkcs7Unpad d s.ops.blockSize
    return (Effect.start s).emit s .d0 p

end Sys2Proof.Machine
end

