-- ==== Sys2Proof/Machine/Modes.lean ====
section
/-! DEFINITION. The mode engine over any cipher pair `C` (`41_modes.md` R130 to R147), and the commands ECB_ENC,
ECB_DEC, CBC_ENC, CBC_DEC, CTR_XOR and CTR_EDIT, which take the pair of the block. -/

namespace Sys2Proof.Machine

/-! ### ECB (`41_modes.md` R131, R132) -/

/-- `E` of each of the `m` blocks of `q`, concatenated (`41_modes.md` R131). -/
def ecbEncrypt (C : BlockCipher) (k : List Byte) (m : Nat) (q : List Byte) : List Byte :=
  ((runs 16 m q).map fun b => C.enc b k).flatten

/-- `D` of each of the `m` blocks of `c`, concatenated (`41_modes.md` R132). -/
def ecbDecrypt (C : BlockCipher) (k : List Byte) (m : Nat) (c : List Byte) : List Byte :=
  ((runs 16 m c).map fun b => C.dec b k).flatten

/-! ### CBC (`41_modes.md` R134, R135) -/

/-- CBC encryption of a list of blocks after `prev` (`41_modes.md` R134). -/
def cbcEncBlocks (C : BlockCipher) (k : List Byte) : (prev : List Byte) → List (List Byte) → List Byte
  | _, [] => []
  | prev, b :: bs =>
    let ci := C.enc (xorBytes b prev) k
    ci ++ cbcEncBlocks C k ci bs

/-- CBC decryption of a list of blocks after `prev` (`41_modes.md` R135). -/
def cbcDecBlocks (C : BlockCipher) (k : List Byte) : (prev : List Byte) → List (List Byte) → List Byte
  | _, [] => []
  | prev, ci :: bs => xorBytes (C.dec ci k) prev ++ cbcDecBlocks C k ci bs

/-- CBC encryption of the `m` blocks of `q` (`41_modes.md` R134). -/
def cbcEncrypt (C : BlockCipher) (k iv : List Byte) (m : Nat) (q : List Byte) : List Byte :=
  cbcEncBlocks C k iv (runs 16 m q)

/-- CBC decryption of the `m` blocks of `c` (`41_modes.md` R135). -/
def cbcDecrypt (C : BlockCipher) (k iv : List Byte) (m : Nat) (c : List Byte) : List Byte :=
  cbcDecBlocks C k iv (runs 16 m c)

/-! ### CTR (`41_modes.md` R140, R141, R143) -/

/-- Keystream block `ks(i) = E(n ∥ LE_8(i), k)` (`41_modes.md` R140). -/
def keystreamBlock (C : BlockCipher) (k n : List Byte) (i : Nat) : List Byte := C.enc (n ++ leBytes 8 i) k

/-- `ks(i) ∥ ks(i + 1) ∥ ...`, `m` blocks (`41_modes.md` R140). -/
def keystream (C : BlockCipher) (k n : List Byte) : (i m : Nat) → List Byte
  | _, 0 => []
  | i, m + 1 => keystreamBlock C k n i ++ keystream C k n (i + 1) m

/-- The blocks of a stream of `len` bytes: `(len + 15) div 16` (`41_modes.md` R141). -/
def ctrBlocks (len : Nat) : Nat := (len + 15) / 16

/-- `d ^ (ks(0) ∥ ... ∥ ks(m − 1))[0 .. len(d))` (`41_modes.md` R141). -/
def ctrXor (C : BlockCipher) (k n d : List Byte) : List Byte := xorBytes d (keystream C k n 0 (ctrBlocks d.length))

/-- The number of keystream blocks an edit of `len` bytes at `off` computes: `last − first + 1`, or 0 when it is
empty (`41_modes.md` R143). -/
def editBlocks (off len : Nat) : Nat := if len = 0 then 0 else (off + len - 1) / 16 - off / 16 + 1

/-- The edited bytes: `r[j − off] ^ ks(j div 16)[j mod 16]` for `off ≤ j < off + len(r)`, from the keystream blocks
`first` to `last` only (`41_modes.md` R143, R145). -/
def editBytes (C : BlockCipher) (k n : List Byte) (off : Nat) (r : List Byte) : List Byte :=
  xorBytes r ((keystream C k n (off / 16) (editBlocks off r.length)).drop (off % 16))

/-- The ciphertext with the edited bytes spliced in at `off` (`41_modes.md` R143). -/
def ctrEdit (C : BlockCipher) (k n c : List Byte) (off : Nat) (r : List Byte) : List Byte :=
  c.take off ++ editBytes C k n off r ++ c.drop (off + r.length)

/-! ### Commands -/

/-- `ECB_ENC` (`41_modes.md` R131). -/
def execEcbEnc (s : State) : Host.Outcome State Fault Refusal :=
  perform s do
    let p ← source s .s0
    let k ← source s .s1
    need (k.length == 16)
    let q := pkcs7Pad p 16
    let m := q.length / 16
    return (((Effect.start s).emit s .d0 (ecbEncrypt (cipherOf s.par) k m q)).count m 0)

/-- `ECB_DEC` (`41_modes.md` R132). -/
def execEcbDec (s : State) : Host.Outcome State Fault Refusal :=
  perform s do
    let c ← source s .s0
    let k ← source s .s1
    need (k.length == 16 && c.length % 16 == 0)
    let m := c.length / 16
    let p ← pkcs7Unpad (ecbDecrypt (cipherOf s.par) k m c) 16
    return (((Effect.start s).emit s .d0 p).count m 0)

/-- `CBC_ENC` (`41_modes.md` R134). -/
def execCbcEnc (s : State) : Host.Outcome State Fault Refusal :=
  perform s do
    let p ← source s .s0
    let k ← source s .s1
    let iv ← source s .s2
    need (k.length == 16 && iv.length == 16)
    let q := pkcs7Pad p 16
    let m := q.length / 16
    return (((Effect.start s).emit s .d0 (cbcEncrypt (cipherOf s.par) k iv m q)).count m 0)

/-- `CBC_DEC` (`41_modes.md` R135). -/
def execCbcDec (s : State) : Host.Outcome State Fault Refusal :=
  perform s do
    let c ← source s .s0
    let k ← source s .s1
    let iv ← source s .s2
    need (k.length == 16 && iv.length == 16 && c.length % 16 == 0)
    let m := c.length / 16
    let p ← pkcs7Unpad (cbcDecrypt (cipherOf s.par) k iv m c) 16
    return (((Effect.start s).emit s .d0 p).count m 0)

/-- `CTR_XOR` (`41_modes.md` R141). -/
def execCtrXor (s : State) : Host.Outcome State Fault Refusal :=
  perform s do
    let d ← source s .s0
    let k ← source s .s1
    let n ← source s .s2
    need (k.length == 16 && n.length == 8)
    return (((Effect.start s).emit s .d0 (ctrXor (cipherOf s.par) k n d)).count (ctrBlocks d.length) 0)

/-- `CTR_EDIT` (`41_modes.md` R143). -/
def execCtrEdit (s : State) : Host.Outcome State Fault Refusal :=
  perform s do
    let c ← source s .s0
    let k ← source s .s1
    let n ← source s .s2
    let r ← source s .s3
    let off := s.ops.arg0.toNat
    need (k.length == 16 && n.length == 8)
    need (off + r.length ≤ c.length)
    return (((Effect.start s).emit s .d0 (ctrEdit (cipherOf s.par) k n c off r)).count (editBlocks off r.length) 0)

end Sys2Proof.Machine
end

