-- ==== Sys2Proof/Machine/Dispatch.lean ====
section
/-! DEFINITION. The dispatch: one arm per command. -/

namespace Sys2Proof.Machine

def exec (i : Instr) (s : State) : Host.Outcome State Fault Refusal :=
  match i with
  | .nop => Sys2Proof.Machine.execNop s
  | .blkEnc => Sys2Proof.Machine.execBlkEnc s
  | .blkDec => Sys2Proof.Machine.execBlkDec s
  | .ecbEnc => Sys2Proof.Machine.execEcbEnc s
  | .ecbDec => Sys2Proof.Machine.execEcbDec s
  | .cbcEnc => Sys2Proof.Machine.execCbcEnc s
  | .cbcDec => Sys2Proof.Machine.execCbcDec s
  | .ctrXor => Sys2Proof.Machine.execCtrXor s
  | .ctrEdit => Sys2Proof.Machine.execCtrEdit s
  | .pad => Sys2Proof.Machine.execPad s
  | .unpad => Sys2Proof.Machine.execUnpad s
  | .hInit fam => Sys2Proof.Machine.execHInit fam s
  | .hAbsorb fam => Sys2Proof.Machine.execHAbsorb fam s
  | .hFinal fam => Sys2Proof.Machine.execHFinal fam s
  | .hMdpad fam => Sys2Proof.Machine.execHMdpad fam s
  | .hImport fam => Sys2Proof.Machine.execHImport fam s
  | .hExport fam => Sys2Proof.Machine.execHExport fam s
  | .mac fam => Sys2Proof.Machine.execMac fam s
  | .forge fam => Sys2Proof.Machine.execForge fam s

end Sys2Proof.Machine
end

