-- ==== Sys2Proof/Machine/HostPort.lean ====
section
/-! DEFINITION. The host's side of the block: the address map, register and buffer accesses, refusals while busy,
draws, and the two resets (`10_state.md` R21 to R36, `20_memory.md` R63 to R66, `60_exceptions.md` R265,
`70_reset_and_hazards.md` R270 to R273). -/

namespace Sys2Proof.Machine

/-- The register at an offset of the register window (`10_state.md` R21); an offset that is in no row is reserved. -/
def regAt (off : Nat) : Reg :=
  match off with
  | 0x000 => .id
  | 0x004 => .cmd
  | 0x008 => .status
  | 0x00C => .ctrl
  | 0x010 => .operand (.srcAddr .s0)
  | 0x014 => .operand (.srcLen .s0)
  | 0x018 => .operand (.srcAddr .s1)
  | 0x01C => .operand (.srcLen .s1)
  | 0x020 => .operand (.srcAddr .s2)
  | 0x024 => .operand (.srcLen .s2)
  | 0x028 => .operand (.srcAddr .s3)
  | 0x02C => .operand (.srcLen .s3)
  | 0x030 => .operand (.dstAddr .d0)
  | 0x034 => .operand (.dstAddr .d1)
  | 0x038 => .operand .arg0
  | 0x03C => .operand .arg1
  | 0x040 => .res0Len
  | 0x044 => .res1Len
  | 0x048 => .ciphCnt
  | 0x04C => .compCnt
  | 0x050 => .latchInfo
  | 0x054 => .lenLo
  | 0x058 => .lenHi
  | 0x060 => .h 0
  | 0x064 => .h 1
  | 0x068 => .h 2
  | 0x06C => .h 3
  | 0x070 => .h 4
  | 0x080 => .chunk 0
  | 0x084 => .chunk 1
  | 0x088 => .chunk 2
  | 0x08C => .chunk 3
  | 0x090 => .chunk 4
  | 0x094 => .chunk 5
  | 0x098 => .chunk 6
  | 0x09C => .chunk 7
  | 0x0A0 => .chunk 8
  | 0x0A4 => .chunk 9
  | 0x0A8 => .chunk 10
  | 0x0AC => .chunk 11
  | 0x0B0 => .chunk 12
  | 0x0B4 => .chunk 13
  | 0x0B8 => .chunk 14
  | 0x0BC => .chunk 15
  | _ => .reserved

/-- The offset of a register (`10_state.md` R21); for the reserved ones, the first reserved offset. -/
def regOffset : Reg → Nat
  | .id => 0x000
  | .cmd => 0x004
  | .status => 0x008
  | .ctrl => 0x00C
  | .operand (.srcAddr .s0) => 0x010
  | .operand (.srcLen .s0) => 0x014
  | .operand (.srcAddr .s1) => 0x018
  | .operand (.srcLen .s1) => 0x01C
  | .operand (.srcAddr .s2) => 0x020
  | .operand (.srcLen .s2) => 0x024
  | .operand (.srcAddr .s3) => 0x028
  | .operand (.srcLen .s3) => 0x02C
  | .operand (.dstAddr .d0) => 0x030
  | .operand (.dstAddr .d1) => 0x034
  | .operand .arg0 => 0x038
  | .operand .arg1 => 0x03C
  | .res0Len => 0x040
  | .res1Len => 0x044
  | .ciphCnt => 0x048
  | .compCnt => 0x04C
  | .latchInfo => 0x050
  | .lenLo => 0x054
  | .lenHi => 0x058
  | .h i => 0x060 + 4 * i.val
  | .chunk k => 0x080 + 4 * k.val
  | .reserved => 0x05C

/-! ### Reading (`10_state.md` R22 to R36) -/

/-- `CTRL`: `SRST` reads 0, `BLEN_BITS` is bit 1 (`10_state.md` R26). -/
def ctrlWord (s : State) : Word := BitVec.ofNat 32 (2 * s.blenBits.toNat)

/-- `LATCH_INFO` (`10_state.md` R31). -/
def latchInfo (l : Latch) : Word :=
  BitVec.ofNat 32 (l.valid.toNat + 2 * l.fam.bit.toNat + 2 ^ 8 * (l.part.length % 64))

/-- `Hi` (`10_state.md` R33): `H4` reads 0 when `L.FAM` = B. -/
def latchWord (l : Latch) (i : Fin 5) : Word :=
  match i with
  | 0 => l.h.h0
  | 1 => l.h.h1
  | 2 => l.h.h2
  | 3 => l.h.h3
  | 4 => if l.fam = .B then 0 else l.h.h4

/-- `CHUNKk` (`10_state.md` R34). -/
def chunkWord (l : Latch) (k : Fin 16) : Word :=
  BitVec.ofNat 32 (fromLE ((List.range 4).map fun j => l.part.getD (4 * k.val + j) 0x00))

/-- The exact value of a register (`10_state.md` R22 to R35). -/
def regValue (s : State) : Reg → Word
  | .id => Config.idValue
  | .cmd => s.cmd
  | .status => s.status.word
  | .ctrl => ctrlWord s
  | .operand r => s.ops.get r
  | .res0Len => s.res0Len
  | .res1Len => s.res1Len
  | .ciphCnt => s.ciphCnt
  | .compCnt => s.compCnt
  | .latchInfo => latchInfo s.latch
  | .lenLo => s.latch.len.extractLsb' 0 32
  | .lenHi => s.latch.len.extractLsb' 32 32
  | .h i => latchWord s.latch i
  | .chunk k => chunkWord s.latch k
  | .reserved => 0

/-- The registers that read as a draw while `BUSY` = 1 (`10_state.md` R36). -/
def drawnWhileBusy : Reg → Bool
  | .res0Len | .res1Len | .ciphCnt | .compCnt | .latchInfo | .lenLo | .lenHi | .h _ | .chunk _ => true
  | .id | .cmd | .status | .ctrl | .operand _ | .reserved => false

/-- The bus answers `r` to the host. -/
def State.answer (s : State) (r : Resp) : State := { s with resp := r }

/-- The bus answers a read of width `w` with a draw: any value of that width (log 5). -/
def State.answerDraw (s : State) (w : Nat) : State :=
  { s with resp := .data w (BitVec.ofNat 32 ((Config.draw s.draws).toNat % 2 ^ (8 * w))), draws := s.draws + 1 }

/-- A host read of a register. -/
def readReg (s : State) (r : Reg) : State :=
  if s.status.busy && drawnWhileBusy r then s.answerDraw 4 else s.answer (.data 4 (regValue s r))

/-- A host read of `w` bytes of `BUF` at `a` (`20_memory.md` R65, R66, `70_reset_and_hazards.md` R272). -/
def readBuf (s : State) (a : Nat) (w : Nat) : Host.Outcome State Fault Refusal :=
  if s.status.busy then .next (s.answerDraw w)
  else
    match s.buf.readBytes a w with
    | .ok d => .next (s.answer (.data w (BitVec.ofNat 32 (fromLE d))))
    | .error b => .fault (.unwrittenByte b)

/-! ### Resets (`70_reset_and_hazards.md` R270 to R273) -/

/-- Soft reset: every register and the latch to the reset values, `BUF` unchanged; a pending command is gone. -/
def State.softReset (s : State) : State :=
  { State.reset with par := s.par, buf := s.buf, turns := s.turns, resp := s.resp, draws := s.draws }

/-- Hard reset: as after power-on; the host's own actions to come, the parameters and the draws taken are no state
of the block and stay. -/
def State.hardReset (s : State) : State :=
  { State.reset with par := s.par, turns := s.turns, draws := s.draws }

/-! ### Writing (`10_state.md` R23 to R35) -/

/-- A write ignored because `BUSY` = 1: `OVR` is set (`10_state.md` R24). -/
def State.refuse (s : State) : State := { s with status := s.status.refused }

/-- An accepted write of `v` to `CMD` (`10_state.md` R23). -/
def State.issue (s : State) (v : Word) : State := { s with cmd := v, status := s.status.issued }

/-- `f s` when idle; refused when busy. -/
def State.whenIdle (s : State) (f : State → State) : State := if s.status.busy then s.refuse else f s

/-- A host write of `v` to a register, before the bus answers. -/
def writeReg (s : State) (r : Reg) (v : Word) : State :=
  match r with
  | .cmd => s.whenIdle fun s => s.issue v
  | .status => { s with status := s.status.hostWrite v }
  | .ctrl => if v.getLsbD 0 then s.softReset else s.whenIdle fun s => { s with blenBits := v.getLsbD 1 }
  | .operand o => s.whenIdle fun s => { s with ops := s.ops.set o v }
  | .ciphCnt => s.whenIdle fun s => { s with ciphCnt := 0 }
  | .compCnt => s.whenIdle fun s => { s with compCnt := 0 }
  | .id | .res0Len | .res1Len | .latchInfo | .lenLo | .lenHi | .h _ | .chunk _ | .reserved => s

/-- A host write of the low `w` bytes of `v` to `BUF` at `a`, before the bus answers (`20_memory.md` R65, R66). -/
def writeBuf (s : State) (a : Nat) (w : Nat) (v : Word) : State :=
  s.whenIdle fun s => { s with buf := s.buf.writeBytes a (leBytes w v.toNat) }

/-! ### Accesses (`20_memory.md` R63, R64) -/

/-- What an address of the host's space names (`20_memory.md` R63). -/
inductive Target
  | register (off : Nat)
  | buffer (a : Nat)
  | noTarget
  | outside
  deriving DecidableEq, Repr

/-- The address map (`20_memory.md` R63). -/
def target (p : Params) (addr : Nat) : Target :=
  if addr < p.base ∨ p.base + Config.hostWindow ≤ addr then .outside
  else if addr - p.base < Config.regWindow then .register (addr - p.base)
  else if p.bufOffset ≤ addr - p.base ∧ addr - p.base < p.bufOffset + p.bufBytes then
    .buffer (addr - p.base - p.bufOffset)
  else .noTarget

/-- A legal register access: 4 bytes wide at a multiple of 4 (`20_memory.md` R64). -/
def regAccessLegal (off : Nat) (w : Nat) : Bool := w == 4 && off % 4 == 0

/-- A legal buffer access: 1, 2 or 4 bytes wide at a multiple of its width (`20_memory.md` R64). -/
def bufAccessLegal (addr : Nat) (w : Nat) : Bool := (w == 1 || w == 2 || w == 4) && addr % w == 0

/-- One host access (`60_exceptions.md` R265). -/
def hostAccess (s : State) : Access → Host.Outcome State Fault Refusal
  | .read addr w =>
    match target s.par addr with
    | .outside => .next (s.answer .notSelected)
    | .noTarget => .next (s.answer .busError)
    | .register off =>
      if regAccessLegal off w then .next (readReg s (regAt off)) else .next (s.answer .busError)
    | .buffer a => if bufAccessLegal addr w then readBuf s a w else .next (s.answer .busError)
  | .write addr w v =>
    match target s.par addr with
    | .outside => .next (s.answer .notSelected)
    | .noTarget => .next (s.answer .busError)
    | .register off =>
      if regAccessLegal off w then .next ((writeReg s (regAt off) v).answer .ack) else .next (s.answer .busError)
    | .buffer a =>
      if bufAccessLegal addr w then .next ((writeBuf s a w v).answer .ack) else .next (s.answer .busError)

/-- One poll of `WAIT` (`30_encoding.md` R89): a read of `STATUS`; while it reads `BUSY` = 1 the engine's turn and
another poll come next (log 3). -/
def poll (s : State) : State :=
  let t := readReg s .status
  if s.status.busy then { t with turns := .engine :: .wait :: t.turns } else t

end Sys2Proof.Machine
end

