-- ==== Sys2Proof/Machine/Engine.lean ====
section
/-! DEFINITION. The engine's turn (`60_exceptions.md` R247, R248) and every other turn. -/

namespace Sys2Proof.Machine

/-- While `BUSY` = 1: `execute(x[CMD])` and completion, as one step. While `BUSY` = 0 the engine has no step
(`60_exceptions.md` R247). -/
def engineTurn (s : State) : Host.Outcome State Fault Refusal :=
  if s.status.busy then
    match decode s.cmd with
    | .ok i => exec i s
    | .error _ => failIllegal s
  else .next s

/-- One turn of the interleaving (`20_memory.md` R74). -/
def takeTurn (s : State) : Turn → Host.Outcome State Fault Refusal
  | .engine => engineTurn s
  | .access a => hostAccess s a
  | .wait => .next (poll s)
  | .hardReset => .next s.hardReset

end Sys2Proof.Machine
end

