-- ==== Sys2Proof/Machine/Step.lean ====
section
/-! DEFINITION. One step: the next turn of the interleaving of host and engine; with no host action pending, the
engine's (`20_memory.md` R74, `60_exceptions.md` R247, log 3). -/

namespace Sys2Proof.Machine

/-- One step of the block. -/
def step (s : State) : Host.Outcome State Fault Refusal :=
  match s.turns with
  | [] => engineTurn s
  | t :: rest => takeTurn { s with turns := rest } t

/-- `s` with a command word issued as an accepted `CMD` write issues it (`10_state.md` R23) and no host action before
the engine's step (log 11). -/
def State.withFetchWord (s : State) (nbits w : Nat) : State :=
  { s.issue (BitVec.ofNat 32 (w % 2 ^ nbits)) with turns := [] }

end Sys2Proof.Machine
end

