-- ==== Sys2Proof/Machine/HostProgram.lean ====
section
/-! DEFINITION. Host program lines as the host actions they stand for (`30_encoding.md` R87 to R90). -/

namespace Sys2Proof.Machine

/-- The command of a line's mnemonic and family (`30_encoding.md` R81, R87). -/
def instrOf (m : Mnemonic) (f : Family) : Instr :=
  match m with
  | .NOP => .nop
  | .BLK_ENC => .blkEnc
  | .BLK_DEC => .blkDec
  | .ECB_ENC => .ecbEnc
  | .ECB_DEC => .ecbDec
  | .CBC_ENC => .cbcEnc
  | .CBC_DEC => .cbcDec
  | .CTR_XOR => .ctrXor
  | .CTR_EDIT => .ctrEdit
  | .PAD => .pad
  | .UNPAD => .unpad
  | .H_INIT => .hInit f
  | .H_ABSORB => .hAbsorb f
  | .H_FINAL => .hFinal f
  | .H_MDPAD => .hMdpad f
  | .H_IMPORT => .hImport f
  | .H_EXPORT => .hExport f
  | .MAC => .mac f
  | .FORGE => .forge f

/-- The command of a line; an absent family means A (`30_encoding.md` R87). -/
def lineInstr (l : CommandLine) : Instr := instrOf l.mnemonic (l.family.getD .A)

/-- A register write of the host. -/
def regWrite (p : Params) (r : Reg) (v : Word) : Turn := .access (.write (p.base + regOffset r) 4 v)

/-- A register read of the host. -/
def regRead (p : Params) (r : Reg) : Turn := .access (.read (p.base + regOffset r) 4)

/-- The host address of a byte of `BUF` (`20_memory.md` R63). -/
def bufAddr (p : Params) (a : Nat) : Nat := p.base + p.bufOffset + a

/-- The operand register writes of a line, in offset order, only the registers it names (`30_encoding.md` R88). A value that
does not fit its register stands on no well-formed line (log 10); its low 32 bits are written here. -/
def operandWrites (p : Params) (l : CommandLine) : List Turn :=
  OpReg.all.filterMap fun r =>
    (l.settings.find? fun x => x.1 == r).map fun x => regWrite p (.operand r) (BitVec.ofNat 32 x.2)

/-- A command line: the operand writes, the `CMD` write, then `WAIT` (`30_encoding.md` R88). -/
def expandCommand (p : Params) (l : CommandLine) : List Turn :=
  operandWrites p l ++ [regWrite p .cmd (encode (lineInstr l)), .wait]

/-- One-byte writes at successive addresses (`30_encoding.md` R89). -/
def putBytes (p : Params) (a : Nat) : List Byte → List Turn
  | [] => []
  | b :: d => .access (.write (bufAddr p a) 1 (b.setWidth 32)) :: putBytes p (a + 1) d

/-- One-byte reads at successive addresses (`30_encoding.md` R89). -/
def getBytes (p : Params) (a : Nat) : Nat → List Turn
  | 0 => []
  | n + 1 => .access (.read (bufAddr p a) 1) :: getBytes p (a + 1) n

/-- The host actions of a line (`30_encoding.md` R88, R89). `CHECK` reads `STATUS`; what the program asserts of the
value is the host's. -/
def expand (p : Params) : HostLine → List Turn
  | .command l => expandCommand p l
  | .wait => [.wait]
  | .put a d => putBytes p a d
  | .get a n => getBytes p a n
  | .check _ => [regRead p .status]
  | .clrst => [regWrite p .status 0x00000302]
  | .srst => [regWrite p .ctrl 0x00000001]
  | .blen bits => [regWrite p .ctrl (if bits then 0x00000002 else 0x00000000)]
  | .wr r v => [regWrite p r v]
  | .rd r => [regRead p r]

/-- What `CHECK ERR=e` asserts of the `STATUS` word the host read (`30_encoding.md` R89). -/
def checkHolds (e : Nat) (v : Word) : Bool := (v.extractLsb' 4 4).toNat == e

/-- A straight-line host program (`30_encoding.md` R87; loops and branches are the host's, R90). -/
def expandAll (p : Params) (ls : List HostLine) : List Turn := ls.flatMap (expand p)

end Sys2Proof.Machine
end

