-- ==== Sys2Proof/Safety.lean ====
section
/-! DEFINITION. What counts as a good state and a safe step. -/

namespace Sys2Proof.Safety

open Sys2Proof.Machine

/-- The latch invariant: the partial chunk is shorter than a chunk; a valid latch has `len(PART) = LEN mod 64`
(`10_state.md` R43); an invalid one holds its reset values (R44); family B leaves `H[4]` at 0 (R42). -/
abbrev LatchInv (l : Latch) : Prop :=
  l.part.length < 64 ∧ (l.valid = true → l.part.length = l.len.toNat % 64) ∧
    (l.valid = false → l = Latch.reset) ∧ (l.fam = .B → l.h.h4 = 0)

/-- Every written byte is a byte of `BUF` (`20_memory.md` R60). -/
abbrev InsideBuf (p : Params) (m : Memory) : Prop := ∀ c ∈ m, c.1 < p.bufBytes

/-- The invariant of the block: legal parameters, `BUF` canonical and bounded, the latch invariant, and `BUSY` and
`DONE` never both 1 (`10_state.md` R23, `60_exceptions.md` R246). -/
abbrev BlockInv (s : State) : Prop :=
  s.par.Legal ∧ s.buf.wf ∧ InsideBuf s.par s.buf ∧ LatchInv s.latch ∧ ¬(s.status.busy = true ∧ s.status.done = true)

/-- A state the block can reach from reset, whatever the parameters and the host's actions are: any legal parameters
and any list of turns to begin with, then steps. -/
inductive Reachable : State → Prop
  | start (p : Params) (h : p.Legal) (turns : List Turn) :
      Reachable { State.reset with par := p, turns := turns }
  | step (s t : State) (hs : Reachable s) (h : Machine.step s = .next t) : Reachable t

/-- The next step does not stop. -/
def Safe (s : State) : Prop := ∃ t, Machine.step s = .next t

end Sys2Proof.Safety
end

