-- ==== Sys2Proof/Certificates/Slice0/Obligations.lean ====
section
/-! DEFINITION. The statements for the provers. Each docstring names the rule it formalises. -/

namespace Sys2Proof.Claims

open Sys2Proof.Machine

/-! ### Vocabulary -/

/-- Source region `k` is in range (`20_memory.md` R61). -/
abbrev SrcInRange (s : State) (k : Src) : Prop :=
  (s.ops.srcAddr k).toNat + (s.ops.srcLen k).toNat ≤ s.par.bufBytes

/-- Source region `k` is in range, every byte of it is written, and its bytes are `d`. -/
abbrev Holds (s : State) (k : Src) (d : List Byte) : Prop :=
  SrcInRange s k ∧ d.length = (s.ops.srcLen k).toNat ∧
    ∀ i, i < d.length → s.buf.read ((s.ops.srcAddr k).toNat + i) = d[i]?

/-- `n` bytes fit in `BUF` at destination `k` (`60_exceptions.md` R248). -/
abbrev Fits (s : State) (k : Dst) (n : Nat) : Prop := (s.ops.dstAddr k).toNat + n ≤ s.par.bufBytes

/-- The bytes of a memory from `a` on are `d`. -/
abbrev BytesAt (m : Memory) (a : Nat) (d : List Byte) : Prop := ∀ i, i < d.length → m.read (a + i) = d[i]?

/-- The state a successful command leaves: `buf` in `BUF`, the result lengths `r0` and `r1`, `c` cipher and `h`
compression invocations counted, `L` in the latch, and `STATUS` as `60_exceptions.md` R246 says for OK. Everything
else is as in `s`. -/
def succeeded (s : State) (buf : Memory) (r0 r1 c h : Nat) (L : Latch) : State :=
  { s with
    buf := buf, res0Len := BitVec.ofNat 32 r0, res1Len := BitVec.ofNat 32 r1,
    ciphCnt := s.ciphCnt + BitVec.ofNat 32 c, compCnt := s.compCnt + BitVec.ofNat 32 h, latch := L,
    status := { busy := false, done := true, err := .ok, sticky := s.status.sticky, ovr := s.status.ovr } }

/-- The state a command that fails with code `e` leaves: only `STATUS` changes (`60_exceptions.md` R246, R249). -/
def failed (s : State) (e : Err) : State :=
  { s with status := { busy := false, done := true, err := e, sticky := true, ovr := s.status.ovr } }

/-- `BUF` after `d` is written at destination `k`. -/
def stored (s : State) (k : Dst) (d : List Byte) : Memory := s.buf.writeBytes (s.ops.dstAddr k).toNat d

/-- The source regions a command reads, in order (`30_encoding.md` R86, `60_exceptions.md` R250). -/
def reads : Instr → List Src
  | .nop => []
  | .blkEnc => [.s0, .s1]
  | .blkDec => [.s0, .s1]
  | .ecbEnc => [.s0, .s1]
  | .ecbDec => [.s0, .s1]
  | .cbcEnc => [.s0, .s1, .s2]
  | .cbcDec => [.s0, .s1, .s2]
  | .ctrXor => [.s0, .s1, .s2]
  | .ctrEdit => [.s0, .s1, .s2, .s3]
  | .pad => [.s0]
  | .unpad => [.s0]
  | .hInit _ => []
  | .hAbsorb _ => [.s0]
  | .hFinal _ => []
  | .hMdpad _ => []
  | .hImport _ => [.s0]
  | .hExport _ => []
  | .mac _ => [.s0, .s1]
  | .forge _ => [.s0, .s1, .s2]

/-- The commands that need a valid latch (`10_state.md` R44). -/
def needsLatch : Instr → Bool
  | .hAbsorb _ | .hFinal _ | .hExport _ => true
  | .nop | .blkEnc | .blkDec | .ecbEnc | .ecbDec | .cbcEnc | .cbcDec | .ctrXor | .ctrEdit | .pad | .unpad
  | .hInit _ | .hMdpad _ | .hImport _ | .mac _ | .forge _ => false

/-- The commands that may change the latch (`10_state.md` R46). -/
def writesLatch : Instr → Bool
  | .hInit _ | .hAbsorb _ | .hFinal _ | .hImport _ | .mac _ | .forge _ => true
  | .nop | .blkEnc | .blkDec | .ecbEnc | .ecbDec | .cbcEnc | .cbcDec | .ctrXor | .ctrEdit | .pad | .unpad
  | .hMdpad _ | .hExport _ => false

/-- The error codes a command can report (`60_exceptions.md` R251, less the ALIGNMENT of FORGE, which is never
taken, R225). -/
def errorsOf : Instr → List Err
  | .nop => []
  | .blkEnc => [.range, .validation]
  | .blkDec => [.range, .validation]
  | .ecbEnc => [.range, .validation]
  | .ecbDec => [.range, .validation, .padding]
  | .cbcEnc => [.range, .validation]
  | .cbcDec => [.range, .validation, .padding]
  | .ctrXor => [.range, .validation]
  | .ctrEdit => [.range, .validation]
  | .pad => [.range, .validation]
  | .unpad => [.range, .validation, .padding]
  | .hInit _ => []
  | .hAbsorb _ => [.state, .range, .validation]
  | .hFinal _ => [.state, .validation, .range]
  | .hMdpad _ => [.range]
  | .hImport _ => [.range, .validation, .alignment]
  | .hExport _ => [.state, .validation, .range]
  | .mac _ => [.range]
  | .forge _ => [.range, .validation]

/-- The sources of command `i` are fetched in order, before every other check but the latch's. The first region that is
out of range makes the command fail with RANGE (`60_exceptions.md` R248, R250). The first that is in range and covers an
unwritten byte is a model fault: R272 of `70_reset_and_hazards.md` says that it is a fault; that the fault is at the first
unwritten address is the model's choice (DESIGN CHOICE, log 6), and so is its place before a later RANGE, VALIDATION,
ALIGNMENT or PADDING (DEDUCED, log 7). A statement that holds this clause is derived. -/
def SourcesChecked (i : Instr) : Prop :=
  ∀ (s : State) (before : List Src) (k : Src) (after : List Src),
    reads i = before ++ k :: after → (needsLatch i = true → s.latch.valid = true) →
    (∀ j ∈ before, ∃ d, Holds s j d) →
    (¬ SrcInRange s k → exec i s = .next (failed s .range)) ∧
    (SrcInRange s k → ∀ j, j < (s.ops.srcLen k).toNat →
      s.buf.read ((s.ops.srcAddr k).toNat + j) = none →
      (∀ l, l < j → s.buf.read ((s.ops.srcAddr k).toNat + l) ≠ none) →
      exec i s = .fault (.unwrittenByte ((s.ops.srcAddr k).toNat + j)))

/-- Block `i` of a sequence. -/
def blockAt (q : List Byte) (i : Nat) : List Byte := slice q (16 * i) (16 * i + 16)

/-- `s ∥ rep(n, n)` with `n = B − (len(s) mod B)` (`42_padding.md` R161). -/
def padded (s : List Byte) (B : Nat) : List Byte :=
  s ++ List.replicate (B - s.length % B) (BitVec.ofNat 8 (B - s.length % B))

/-- `q` ends in a well-formed padding of `n` bytes for block size `B`: it is at least one block long, `1 ≤ n ≤ B`, `n`
is at most its length and its last `n` bytes all equal `n` (`42_padding.md` R162). -/
abbrev PadCount (B : Nat) (q : List Byte) (n : Nat) : Prop :=
  B ≤ q.length ∧ 1 ≤ n ∧ n ≤ B ∧ n ≤ q.length ∧
    q.drop (q.length - n) = List.replicate n (BitVec.ofNat 8 n)

/-- No padding of `q` is well formed. -/
abbrev BadPadding (B : Nat) (q : List Byte) : Prop := ∀ n, n ≤ B → ¬ PadCount B q n

/-- The digest a latch's message finishes with (`43_hash.md` R196). -/
def digestOf (L : Latch) (bits : Bool) : List Byte := serialize L.fam (absorb L (mdpad L.fam bits L.len)).h

/-- Any cipher pair of `40_cipher.md` R100: 16-byte blocks to 16-byte blocks, `D` the inverse of `E`. -/
structure Lawful (C : BlockCipher) : Prop where
  enc_length : ∀ b k, b.length = 16 → k.length = 16 → (C.enc b k).length = 16
  dec_length : ∀ b k, b.length = 16 → k.length = 16 → (C.dec b k).length = 16
  dec_enc : ∀ b k, b.length = 16 → k.length = 16 → C.dec (C.enc b k) k = b

/-- Word `i` of a sequence, its first byte most significant. -/
def beWordAt (d : List Byte) (i : Nat) : Nat :=
  (d.getD (4 * i) 0).toNat * 2 ^ 24 + (d.getD (4 * i + 1) 0).toNat * 2 ^ 16 + (d.getD (4 * i + 2) 0).toNat * 2 ^ 8 +
    (d.getD (4 * i + 3) 0).toNat

/-- Word `i` of a sequence, its first byte least significant. -/
def leWordAt (d : List Byte) (i : Nat) : Nat :=
  (d.getD (4 * i) 0).toNat + (d.getD (4 * i + 1) 0).toNat * 2 ^ 8 + (d.getD (4 * i + 2) 0).toNat * 2 ^ 16 +
    (d.getD (4 * i + 3) 0).toNat * 2 ^ 24

/-- Chaining word `i`, 0 from the sixth on. -/
def chainWord (H : Chain) (i : Nat) : Word := [H.h0, H.h1, H.h2, H.h3, H.h4].getD i 0

/-- `43_hash.md` R182 to R184, R186: SHA-1, by its message schedule `W` and its working registers after each step `t`. -/
def Sha1Compression : Prop :=
  ∀ (H : Chain) (m : List Byte), m.length = 64 → ∃ (W : Nat → Word) (v : Nat → Chain),
    (∀ t, t < 16 → (W t).toNat = beWordAt m t) ∧
    (∀ t, 16 ≤ t → t < 80 → W t = (W (t - 3) ^^^ W (t - 8) ^^^ W (t - 14) ^^^ W (t - 16)).rotateLeft 1) ∧
    v 0 = H ∧
    (∀ t f K, t < 80 →
      (t < 20 → f = ((v t).h1 &&& (v t).h2) ^^^ (~~~(v t).h1 &&& (v t).h3) ∧ K = 0x5A827999) →
      (20 ≤ t ∧ t < 40 → f = (v t).h1 ^^^ (v t).h2 ^^^ (v t).h3 ∧ K = 0x6ED9EBA1) →
      (40 ≤ t ∧ t < 60 →
        f = ((v t).h1 &&& (v t).h2) ^^^ ((v t).h1 &&& (v t).h3) ^^^ ((v t).h2 &&& (v t).h3) ∧ K = 0x8F1BBCDC) →
      (60 ≤ t → f = (v t).h1 ^^^ (v t).h2 ^^^ (v t).h3 ∧ K = 0xCA62C1D6) →
      v (t + 1) = { h0 := (v t).h0.rotateLeft 5 + f + (v t).h4 + K + W t, h1 := (v t).h0,
                    h2 := (v t).h1.rotateLeft 30, h3 := (v t).h2, h4 := (v t).h3 }) ∧
    compress .A H m = { h0 := H.h0 + (v 80).h0, h1 := H.h1 + (v 80).h1, h2 := H.h2 + (v 80).h2,
                        h3 := H.h3 + (v 80).h3, h4 := H.h4 + (v 80).h4 }

/-- The table of `43_hash.md` R187, round after round: message word and shift of each of the 48 steps. -/
def md4Steps : List (Nat × Nat) :=
  [(0, 3), (1, 7), (2, 11), (3, 19), (4, 3), (5, 7), (6, 11), (7, 19), (8, 3), (9, 7), (10, 11), (11, 19), (12, 3),
    (13, 7), (14, 11), (15, 19)] ++
  [(0, 3), (4, 5), (8, 9), (12, 13), (1, 3), (5, 5), (9, 9), (13, 13), (2, 3), (6, 5), (10, 9), (14, 13), (3, 3),
    (7, 5), (11, 9), (15, 13)] ++
  [(0, 3), (8, 9), (4, 11), (12, 15), (2, 3), (10, 9), (6, 11), (14, 15), (1, 3), (9, 9), (5, 11), (13, 15), (3, 3),
    (11, 9), (7, 11), (15, 15)]

/-- `43_hash.md` R182, R185, R187: MD4, by its four registers `v n 0` to `v n 3` after each of its 48 steps `n`. Step `n` is
step `n mod 16` of round `n div 16 + 1` and updates register `(−n) mod 4` alone. -/
def Md4Compression : Prop :=
  ∀ (H : Chain) (m : List Byte), m.length = 64 → ∃ v : Nat → Nat → Word,
    (v 0 0 = H.h0 ∧ v 0 1 = H.h1 ∧ v 0 2 = H.h2 ∧ v 0 3 = H.h3) ∧
    (∀ n js t x y z f k, n < 48 → md4Steps[n]? = some js → t = (48 - n) % 4 →
      x = v n ((t + 1) % 4) → y = v n ((t + 2) % 4) → z = v n ((t + 3) % 4) →
      (n < 16 → f = (x &&& y) ||| (~~~x &&& z) ∧ k = 0) →
      (16 ≤ n ∧ n < 32 → f = (x &&& y) ||| (x &&& z) ||| (y &&& z) ∧ k = 0x5A827999) →
      (32 ≤ n → f = x ^^^ y ^^^ z ∧ k = 0x6ED9EBA1) →
      v (n + 1) t = (v n t + f + BitVec.ofNat 32 (leWordAt m js.1) + k).rotateLeft js.2 ∧
        ∀ i, i < 4 → i ≠ t → v (n + 1) i = v n i) ∧
    compress .B H m = { h0 := H.h0 + v 48 0, h1 := H.h1 + v 48 1, h2 := H.h2 + v 48 2, h3 := H.h3 + v 48 3,
                        h4 := H.h4 }

/-- The 27 command words and their commands (`30_encoding.md` R81, R82). -/
def wordTable : List (Word × Instr) :=
  [(0x00000000, .nop), (0x00000001, .blkEnc), (0x00000002, .blkDec), (0x00000010, .ecbEnc), (0x00000011, .ecbDec),
    (0x00000012, .cbcEnc), (0x00000013, .cbcDec), (0x00000014, .ctrXor), (0x00000015, .ctrEdit)] ++
  [(0x00000020, .pad), (0x00000021, .unpad), (0x00000030, .hInit .A), (0x00000031, .hAbsorb .A),
    (0x00000032, .hFinal .A), (0x00000033, .hMdpad .A), (0x00000034, .hImport .A), (0x00000035, .hExport .A),
    (0x00000038, .mac .A), (0x00000039, .forge .A)] ++
  [(0x00000130, .hInit .B), (0x00000131, .hAbsorb .B), (0x00000132, .hFinal .B), (0x00000133, .hMdpad .B),
    (0x00000134, .hImport .B), (0x00000135, .hExport .B), (0x00000138, .mac .B), (0x00000139, .forge .B)]

/-- Every register as `70_reset_and_hazards.md` R270 lists it, the latch at its reset value, no pending command. -/
def ResetValues (t : State) : Prop :=
  (∀ r : Reg, regValue t r = if r = .id then 0x43505831 else 0) ∧
    t.latch = { valid := false, fam := .A, h := { h0 := 0, h1 := 0, h2 := 0, h3 := 0, h4 := 0 }, len := 0, part := [] } ∧
    t.status.busy = false

/-- The next turn of `s` is a host read of register `r`, and `rest` come after it. -/
abbrev NextReads (s : State) (r : Reg) (rest : List Turn) : Prop :=
  s.turns = .access (.read (s.par.base + regOffset r) 4) :: rest

/-- The next turn of `s` is a host write of `v` to register `r`, and `rest` come after it. -/
abbrev NextWrites (s : State) (r : Reg) (v : Word) (rest : List Turn) : Prop :=
  s.turns = .access (.write (s.par.base + regOffset r) 4 v) :: rest

/-- `n` steps lead from `s` to `t`. -/
def stepsTo : Nat → State → State → Prop
  | 0, s, t => s = t
  | n + 1, s, t => ∃ u, step s = .next u ∧ stepsTo n u t

end Sys2Proof.Claims

open Sys2Proof Sys2Proof.Machine Sys2Proof.Claims Sys2Proof.Safety

/-! ### Encoding -/

/-- `30_encoding.md` R82, R83: the decoder gives every command back from its word. -/
def Obligations.EveryCommandDecodesFromItsWord : Prop :=
  ∀ i : Instr, i.wf = true → decode (encode i) = .ok i ∧ encode i = (i.op.setWidth 32 ||| (if i.fam = .B then 0x100 else 0))

/-- `30_encoding.md` R83: the words that decode are the 27 of the table, each to its command; every other is illegal and
makes the command fail with ILLEGAL_OP. -/
def Obligations.ExactlyTheTableWordsDecode : Prop :=
  wordTable.length = 27 ∧ (wordTable.map Prod.fst).Nodup ∧
    (∀ (v : Word) (i : Instr), decode v = .ok i ↔ (v, i) ∈ wordTable) ∧
    ∀ s : State, s.status.busy = true → (∀ i, (s.cmd, i) ∉ wordTable) → engineTurn s = .next (failed s .illegalOp)

/-- `30_encoding.md` R82, R84: words written out from the encoding. -/
def Obligations.SampleWordsDecode : Prop :=
  decode 0b00000000000000000000000_0_00000000 = .ok .nop ∧
    decode 0b00000000000000000000000_0_00000010 = .ok .blkDec ∧
    decode 0b00000000000000000000000_0_00010101 = .ok .ctrEdit ∧
    decode 0b00000000000000000000000_0_00100001 = .ok .unpad ∧
    decode 0b00000000000000000000000_1_00110000 = .ok (.hInit .B) ∧
    decode 0b00000000000000000000000_1_00111001 = .ok (.forge .B) ∧
    decode 0b00000000000000000000000_1_00000001 = .error .familyOnNonHash ∧
    decode 0b10000000000000000000000_0_00110000 = .error .reservedBits ∧
    decode 0b00000000000000000000000_0_00110110 = .error .unassignedOp

/-! ### Steps -/

/-- `60_exceptions.md` R247, R248: while BUSY = 1 the engine's step is the meaning of the command that `CMD` decodes to,
at that state; nothing is added around it but that the turn is taken. That the engine's turn comes when no host action is
to come is the model's form of the interleaving, log 3. -/
def Obligations.EngineStepRunsTheDecodedCommand : Prop :=
  (∀ s : State, (s.turns = [] → step s = engineTurn s) ∧
    ∀ rest, s.turns = .engine :: rest → step s = engineTurn { s with turns := rest }) ∧
  ∀ (s : State) (i : Instr), s.status.busy = true → decode s.cmd = .ok i →
    engineTurn s = exec i s ∧ (s.turns = [] → step s = exec i s) ∧
      ∀ rest, s.turns = .engine :: rest → step s = exec i { s with turns := rest }

/-- `30_encoding.md` R84: a nonzero RSV field, an unassigned OP or FAM = 1 with OP < 0x30 makes the command fail with
ILLEGAL_OP and no other effect. -/
def Obligations.IllegalWordFailsWithIllegalOp : Prop :=
  ∀ s : State, s.status.busy = true →
    ((s.cmd.extractLsb' 9 23 ≠ 0) ∨
      ((0x03 ≤ (s.cmd.extractLsb' 0 8).toNat ∧ (s.cmd.extractLsb' 0 8).toNat ≤ 0x0F) ∨
        (0x16 ≤ (s.cmd.extractLsb' 0 8).toNat ∧ (s.cmd.extractLsb' 0 8).toNat ≤ 0x1F) ∨
        (0x22 ≤ (s.cmd.extractLsb' 0 8).toNat ∧ (s.cmd.extractLsb' 0 8).toNat ≤ 0x2F) ∨
        (s.cmd.extractLsb' 0 8).toNat = 0x36 ∨ (s.cmd.extractLsb' 0 8).toNat = 0x37 ∨
        0x3A ≤ (s.cmd.extractLsb' 0 8).toNat) ∨
      (s.cmd.getLsbD 8 = true ∧ (s.cmd.extractLsb' 0 8).toNat < 0x30)) →
    engineTurn s = .next (failed s .illegalOp)

/-- `60_exceptions.md` R247: while BUSY = 0 the engine has no step. With no host action to come the model's step then
leaves the state as it is: the model's choice, log 3. -/
def Obligations.IdleEngineLeavesTheStateAlone : Prop :=
  ∀ s : State, s.status.busy = false →
    (s.turns = [] → step s = .next s) ∧ ∀ rest, s.turns = .engine :: rest → step s = .next { s with turns := rest }

/-! ### Invariants and reset -/

/-- The invariant of the block is kept by every step: legal parameters, canonical and bounded `BUF`, the latch invariant
(`10_state.md` R42 to R44), BUSY and DONE never both 1 (R23, `60_exceptions.md` R246). -/
def Obligations.StepKeepsTheInvariant : Prop := ∀ s t : State, BlockInv s → step s = .next t → BlockInv t

/-- The state after reset meets the invariant. -/
def Obligations.ResetMeetsTheInvariant : Prop := BlockInv State.reset

/-- `10_state.md` R43: whenever L.VALID = 1, len(L.PART) = L.LEN mod 64, in every state the block can reach. -/
def Obligations.PartialChunkMatchesTheLength : Prop :=
  ∀ s : State, Reachable s → s.latch.valid = true → s.latch.part.length = s.latch.len.toNat % 64

/-- `70_reset_and_hazards.md` R270, R271: the values after a hard reset and after a soft reset, which is taken whatever
BUSY is and ignores the other bits written; a hard reset unwrites every byte of `BUF`, a soft reset keeps `BUF`. -/
def Obligations.ResetsLeaveTheStatedValues : Prop :=
  ResetValues State.reset ∧ (∀ a, State.reset.buf.read a = none) ∧
    (∀ (s : State) (rest : List Turn), s.turns = .hardReset :: rest →
      ∃ t, step s = .next t ∧ ResetValues t ∧ (∀ a, t.buf.read a = none) ∧ t.turns = rest ∧ t.par = s.par) ∧
    ∀ (s : State) (v : Word) (rest : List Turn), NextWrites s .ctrl v rest → v.getLsbD 0 = true →
      ∃ t, step s = .next t ∧ ResetValues t ∧ t.buf = s.buf ∧ t.turns = rest ∧ t.par = s.par

/-! ### The commands -/

/-- `45_control.md` R240: NOP completes from every state, with ERR = 0 and both result lengths 0; counters, latch and
`BUF` unchanged; STICKY and OVR are not cleared. -/
def Obligations.NopOnlyCompletes : Prop :=
  ∀ s : State, exec .nop s = .next { s with
    res0Len := 0, res1Len := 0,
    status := { busy := false, done := true, err := .ok, sticky := s.status.sticky, ovr := s.status.ovr } }

/-- `40_cipher.md` R116: BLK_ENC, with the pair of the block (`00_scope.md` R7).
(`SourcesChecked`: the order and the address of the model fault are the model's choice, logs 6, 7.) -/
def Obligations.BlkEncWritesTheEncryptedBlock : Prop :=
  SourcesChecked .blkEnc ∧
    ∀ (s : State) (b k : List Byte), Holds s .s0 b → Holds s .s1 k →
      (b.length = 16 → k.length = 16 → Fits s .d0 16 →
        exec .blkEnc s = .next (succeeded s (stored s .d0 ((cipherOf s.par).enc b k)) 16 0 1 0 s.latch)) ∧
      (b.length ≠ 16 ∨ k.length ≠ 16 → exec .blkEnc s = .next (failed s .validation)) ∧
      (b.length = 16 → k.length = 16 → ¬ Fits s .d0 16 → exec .blkEnc s = .next (failed s .range))

/-- `40_cipher.md` R117: BLK_DEC, with the pair of the block (`00_scope.md` R7).
(`SourcesChecked`: the order and the address of the model fault are the model's choice, logs 6, 7.) -/
def Obligations.BlkDecWritesTheDecryptedBlock : Prop :=
  SourcesChecked .blkDec ∧
    ∀ (s : State) (b k : List Byte), Holds s .s0 b → Holds s .s1 k →
      (b.length = 16 → k.length = 16 → Fits s .d0 16 →
        exec .blkDec s = .next (succeeded s (stored s .d0 ((cipherOf s.par).dec b k)) 16 0 1 0 s.latch)) ∧
      (b.length ≠ 16 ∨ k.length ≠ 16 → exec .blkDec s = .next (failed s .validation)) ∧
      (b.length = 16 → k.length = 16 → ¬ Fits s .d0 16 → exec .blkDec s = .next (failed s .range))

/-- `41_modes.md` R131: ECB_ENC encrypts each block of the padded plaintext by itself.
(`SourcesChecked`: the order and the address of the model fault are the model's choice, logs 6, 7.) -/
def Obligations.EcbEncWritesTheEncryptedBlocks : Prop :=
  SourcesChecked .ecbEnc ∧
    ∀ (s : State) (p k : List Byte) (m : Nat), Holds s .s0 p → Holds s .s1 k →
      16 * m = p.length + 16 - p.length % 16 →
      (k.length = 16 → Fits s .d0 (16 * m) →
        exec .ecbEnc s = .next (succeeded s
          (stored s .d0 ((List.range m).map fun i => (cipherOf s.par).enc (blockAt (padded p 16) i) k).flatten)
          (16 * m) 0 m 0 s.latch)) ∧
      (k.length ≠ 16 → exec .ecbEnc s = .next (failed s .validation)) ∧
      (k.length = 16 → ¬ Fits s .d0 (16 * m) → exec .ecbEnc s = .next (failed s .range))

/-- `41_modes.md` R132: ECB_DEC decrypts each block and strips the padding, or fails with PADDING and writes nothing.
(`SourcesChecked`: the order and the address of the model fault are the model's choice, logs 6, 7.) -/
def Obligations.EcbDecWritesTheUnpaddedPlaintext : Prop :=
  SourcesChecked .ecbDec ∧
    ∀ (s : State) (c k q : List Byte) (m : Nat), Holds s .s0 c → Holds s .s1 k →
      q = ((List.range m).map fun i => (cipherOf s.par).dec (blockAt c i) k).flatten → m = c.length / 16 →
      (k.length ≠ 16 ∨ c.length % 16 ≠ 0 → exec .ecbDec s = .next (failed s .validation)) ∧
      (k.length = 16 → c.length % 16 = 0 → BadPadding 16 q → exec .ecbDec s = .next (failed s .padding)) ∧
      ∀ n, k.length = 16 → c.length % 16 = 0 → PadCount 16 q n →
        (Fits s .d0 (16 * m - n) →
          exec .ecbDec s =
            .next (succeeded s (stored s .d0 (q.take (16 * m - n))) (16 * m - n) 0 m 0 s.latch)) ∧
        (¬ Fits s .d0 (16 * m - n) → exec .ecbDec s = .next (failed s .range))

/-- `41_modes.md` R134: CBC_ENC; ciphertext block `i` is `E` of padded plaintext block `i` XOR ciphertext block
`i − 1`, the IV for `i` = 0.
(`SourcesChecked`: the order and the address of the model fault are the model's choice, logs 6, 7.) -/
def Obligations.CbcEncWritesTheChainedBlocks : Prop :=
  SourcesChecked .cbcEnc ∧
    ∀ (s : State) (p k iv : List Byte) (m : Nat), Holds s .s0 p → Holds s .s1 k → Holds s .s2 iv →
      16 * m = p.length + 16 - p.length % 16 →
      (k.length = 16 → iv.length = 16 → Fits s .d0 (16 * m) →
        ∃ c : List Byte, c.length = 16 * m ∧
          (∀ i, i < m → blockAt c i =
            (cipherOf s.par).enc (xorBytes (blockAt (padded p 16) i) (if i = 0 then iv else blockAt c (i - 1))) k) ∧
          exec .cbcEnc s = .next (succeeded s (stored s .d0 c) (16 * m) 0 m 0 s.latch)) ∧
      (k.length ≠ 16 ∨ iv.length ≠ 16 → exec .cbcEnc s = .next (failed s .validation)) ∧
      (k.length = 16 → iv.length = 16 → ¬ Fits s .d0 (16 * m) → exec .cbcEnc s = .next (failed s .range))

/-- `41_modes.md` R135: CBC_DEC; decrypted block `i` is `D` of ciphertext block `i` XOR ciphertext block `i − 1`, the IV
for `i` = 0; the padding is stripped, or the command fails with PADDING and writes nothing.
(`SourcesChecked`: the order and the address of the model fault are the model's choice, logs 6, 7.) -/
def Obligations.CbcDecWritesTheUnpaddedPlaintext : Prop :=
  SourcesChecked .cbcDec ∧
    ∀ (s : State) (c k iv q : List Byte) (m : Nat), Holds s .s0 c → Holds s .s1 k → Holds s .s2 iv →
      q = ((List.range m).map fun i =>
        xorBytes ((cipherOf s.par).dec (blockAt c i) k) (if i = 0 then iv else blockAt c (i - 1))).flatten →
      m = c.length / 16 →
      (k.length ≠ 16 ∨ iv.length ≠ 16 ∨ c.length % 16 ≠ 0 → exec .cbcDec s = .next (failed s .validation)) ∧
      (k.length = 16 → iv.length = 16 → c.length % 16 = 0 → BadPadding 16 q →
        exec .cbcDec s = .next (failed s .padding)) ∧
      ∀ n, k.length = 16 → iv.length = 16 → c.length % 16 = 0 → PadCount 16 q n →
        (Fits s .d0 (16 * m - n) →
          exec .cbcDec s =
            .next (succeeded s (stored s .d0 (q.take (16 * m - n))) (16 * m - n) 0 m 0 s.latch)) ∧
        (¬ Fits s .d0 (16 * m - n) → exec .cbcDec s = .next (failed s .range))

/-- `41_modes.md` R141 with R140: CTR_XOR; byte `j` of the output is byte `j` of the data XOR byte `j mod 16` of
`E(nonce ∥ LE_8(j div 16), k)`.
(`SourcesChecked`: the order and the address of the model fault are the model's choice, logs 6, 7.) -/
def Obligations.CtrXorWritesDataXorKeystream : Prop :=
  SourcesChecked .ctrXor ∧
    ∀ (s : State) (d k n : List Byte), Holds s .s0 d → Holds s .s1 k → Holds s .s2 n →
      (k.length = 16 → n.length = 8 → Fits s .d0 d.length →
        ∃ o : List Byte, o.length = d.length ∧
          (∀ j, j < d.length →
            o.getD j 0 = d.getD j 0 ^^^ ((cipherOf s.par).enc (n ++ leBytes 8 (j / 16)) k).getD (j % 16) 0) ∧
          exec .ctrXor s =
            .next (succeeded s (stored s .d0 o) d.length 0 ((d.length + 15) / 16) 0 s.latch)) ∧
      (k.length ≠ 16 ∨ n.length ≠ 8 → exec .ctrXor s = .next (failed s .validation)) ∧
      (k.length = 16 → n.length = 8 → ¬ Fits s .d0 d.length → exec .ctrXor s = .next (failed s .range))

/-- `41_modes.md` R143: CTR_EDIT; bytes `off` to `off + len(r) − 1` become the replacement XOR the keystream, every other
byte is the ciphertext's, and only the keystream blocks that overlap the edit are counted.
(`SourcesChecked`: the order and the address of the model fault are the model's choice, logs 6, 7.) -/
def Obligations.CtrEditSplicesTheReplacement : Prop :=
  SourcesChecked .ctrEdit ∧
    ∀ (s : State) (c k n r : List Byte) (off : Nat), Holds s .s0 c → Holds s .s1 k → Holds s .s2 n → Holds s .s3 r →
      off = s.ops.arg0.toNat →
      (k.length = 16 → n.length = 8 → off + r.length ≤ c.length → Fits s .d0 c.length →
        ∃ o : List Byte, o.length = c.length ∧
          (∀ j, j < c.length → o.getD j 0 =
            if off ≤ j ∧ j < off + r.length then
              r.getD (j - off) 0 ^^^ ((cipherOf s.par).enc (n ++ leBytes 8 (j / 16)) k).getD (j % 16) 0
            else c.getD j 0) ∧
          exec .ctrEdit s = .next (succeeded s (stored s .d0 o) c.length 0
            (if r.length = 0 then 0 else (off + r.length - 1) / 16 - off / 16 + 1) 0 s.latch)) ∧
      (k.length ≠ 16 ∨ n.length ≠ 8 ∨ c.length < off + r.length →
        exec .ctrEdit s = .next (failed s .validation)) ∧
      (k.length = 16 → n.length = 8 → off + r.length ≤ c.length → ¬ Fits s .d0 c.length →
        exec .ctrEdit s = .next (failed s .range))

/-- `42_padding.md` R163: PAD; the block size is ARG0, 16 when ARG0 = 0, and ARG0 > 255 fails.
(`SourcesChecked`: the order and the address of the model fault are the model's choice, logs 6, 7.) -/
def Obligations.PadAppendsThePadding : Prop :=
  SourcesChecked .pad ∧
    ∀ (s : State) (d : List Byte) (B : Nat), Holds s .s0 d →
      B = (if s.ops.arg0 = 0 then 16 else s.ops.arg0.toNat) →
      (s.ops.arg0.toNat ≤ 255 → Fits s .d0 (padded d B).length →
        exec .pad s = .next (succeeded s (stored s .d0 (padded d B)) (d.length + (B - d.length % B)) 0 0 0 s.latch)) ∧
      (255 < s.ops.arg0.toNat → exec .pad s = .next (failed s .validation)) ∧
      (s.ops.arg0.toNat ≤ 255 → ¬ Fits s .d0 (padded d B).length → exec .pad s = .next (failed s .range))

/-- `42_padding.md` R164 with R162: UNPAD writes the data without its padding, or fails with PADDING.
(`SourcesChecked`: the order and the address of the model fault are the model's choice, logs 6, 7.) -/
def Obligations.UnpadStripsThePadding : Prop :=
  SourcesChecked .unpad ∧
    ∀ (s : State) (d : List Byte) (B : Nat), Holds s .s0 d →
      B = (if s.ops.arg0 = 0 then 16 else s.ops.arg0.toNat) →
      (255 < s.ops.arg0.toNat → exec .unpad s = .next (failed s .validation)) ∧
      (s.ops.arg0.toNat ≤ 255 → BadPadding B d → exec .unpad s = .next (failed s .padding)) ∧
      ∀ n, s.ops.arg0.toNat ≤ 255 → PadCount B d n →
        (Fits s .d0 (d.length - n) →
          exec .unpad s =
            .next (succeeded s (stored s .d0 (d.take (d.length - n))) (d.length - n) 0 0 0 s.latch)) ∧
        (¬ Fits s .d0 (d.length - n) → exec .unpad s = .next (failed s .range))

/-- `43_hash.md` R194: H_INIT completes from every state with the family's initial words in the latch. -/
def Obligations.HInitLoadsTheInitialWords : Prop :=
  ∀ (s : State) (f : Family), exec (.hInit f) s = .next (succeeded s s.buf 0 0 0 0
    { valid := true, fam := f, len := 0, part := [],
      h := { h0 := 0x67452301, h1 := 0xEFCDAB89, h2 := 0x98BADCFE, h3 := 0x10325476,
             h4 := if f = .A then 0xC3D2E1F0 else 0 } })

/-- `43_hash.md` R195 with R193: H_ABSORB compresses every complete chunk of PART ∥ data and keeps the rest.
(`SourcesChecked`: the order and the address of the model fault are the model's choice, logs 6, 7.) -/
def Obligations.HAbsorbCompressesTheCompleteChunks : Prop :=
  SourcesChecked (.hAbsorb .A) ∧ SourcesChecked (.hAbsorb .B) ∧
    ∀ (s : State) (f : Family),
      (s.latch.valid = false → exec (.hAbsorb f) s = .next (failed s .state)) ∧
      ∀ (d buf : List Byte) (c : Nat), s.latch.valid = true → Holds s .s0 d → buf = s.latch.part ++ d →
        c = (s.latch.part.length + d.length) / 64 →
        (f = s.latch.fam → exec (.hAbsorb f) s = .next (succeeded s s.buf 0 0 0 c
          { valid := true, fam := f, len := s.latch.len + BitVec.ofNat 64 d.length,
            part := buf.drop (64 * c),
            h := ((List.range c).map fun i => slice buf (64 * i) (64 * i + 64)).foldl (compress f) s.latch.h })) ∧
        (f ≠ s.latch.fam → exec (.hAbsorb f) s = .next (failed s .validation))

/-- `43_hash.md` R196, over the compression functions of R182 to R187 and with the digests of `95_test_vectors.md` for
"abc" (SHA-1; MD4, its length in bits; family B, its length in bytes): H_FINAL absorbs the MD padding of the message
length, writes the digest and keeps the post-padding state. Its partial chunk is empty and one or two compressions are
counted in every state that meets the latch invariant (`StepKeepsTheInvariant`). -/
def Obligations.HFinalWritesTheDigest : Prop :=
  Sha1Compression ∧ Md4Compression ∧
  digestOf (absorb (initLatch .A) [0x61, 0x62, 0x63]) false =
    [0xa9, 0x99, 0x3e, 0x36, 0x47, 0x06, 0x81, 0x6a, 0xba, 0x3e] ++
      [0x25, 0x71, 0x78, 0x50, 0xc2, 0x6c, 0x9c, 0xd0, 0xd8, 0x9d] ∧
  digestOf (absorb (initLatch .B) [0x61, 0x62, 0x63]) true =
    [0xa4, 0x48, 0x01, 0x7a, 0xaf, 0x21, 0xd8, 0x52, 0x5f, 0xc1, 0x0a, 0xe8, 0x7a, 0xa6, 0x72, 0x9d] ∧
  digestOf (absorb (initLatch .B) [0x61, 0x62, 0x63]) false =
    [0x41, 0xec, 0xb8, 0xd1, 0xd1, 0xd9, 0xa2, 0x28, 0x4b, 0xed, 0x40, 0xc3, 0x8b, 0xc3, 0x92, 0xfa] ∧
  ∀ (s : State) (f : Family),
    (s.latch.valid = false → exec (.hFinal f) s = .next (failed s .state)) ∧
    (s.latch.valid = true → f ≠ s.latch.fam → exec (.hFinal f) s = .next (failed s .validation)) ∧
    ∀ (p : List Byte) (L : Latch), s.latch.valid = true → f = s.latch.fam → p = mdpad f s.blenBits s.latch.len →
      L = absorb s.latch p →
      (Fits s .d0 (4 * f.words) → exec (.hFinal f) s = .next (succeeded s (stored s .d0 (serialize f L.h))
        (4 * f.words) 0 0 ((s.latch.part.length + p.length) / 64) L)) ∧
      (¬ Fits s .d0 (4 * f.words) → exec (.hFinal f) s = .next (failed s .range)) ∧
      (LatchInv s.latch → L.part = [] ∧
        (s.latch.part.length + p.length) / 64 = if 56 ≤ s.latch.len.toNat % 64 then 2 else 1)

/-- `43_hash.md` R197: H_MDPAD writes the padding of the declared length ARG1:ARG0, whatever the latch holds. -/
def Obligations.HMdpadWritesTheDeclaredPadding : Prop :=
  ∀ (s : State) (f : Family) (p : List Byte),
    p = mdpad f s.blenBits (BitVec.ofNat 64 (s.ops.arg1.toNat * 2 ^ 32 + s.ops.arg0.toNat)) →
    (Fits s .d0 p.length → exec (.hMdpad f) s = .next (succeeded s (stored s .d0 p) p.length 0 0 0 s.latch)) ∧
    (¬ Fits s .d0 p.length → exec (.hMdpad f) s = .next (failed s .range))

/-- `43_hash.md` R198: H_IMPORT loads the digest's words with the declared length, which must be a multiple of 64.
(`SourcesChecked`: the order and the address of the model fault are the model's choice, logs 6, 7.) -/
def Obligations.HImportLoadsTheDigest : Prop :=
  SourcesChecked (.hImport .A) ∧ SourcesChecked (.hImport .B) ∧
    ∀ (s : State) (f : Family) (dg : List Byte) (Ld : Nat), Holds s .s0 dg →
      Ld = s.ops.arg1.toNat * 2 ^ 32 + s.ops.arg0.toNat →
      (dg.length ≠ 4 * f.words → exec (.hImport f) s = .next (failed s .validation)) ∧
      (dg.length = 4 * f.words → Ld % 64 ≠ 0 → exec (.hImport f) s = .next (failed s .alignment)) ∧
      (dg.length = 4 * f.words → Ld % 64 = 0 → exec (.hImport f) s = .next (succeeded s s.buf 0 0 0 0
        { valid := true, fam := f, h := parse f dg, len := BitVec.ofNat 64 Ld, part := [] }))

/-- `43_hash.md` R199 with R192: H_EXPORT writes the serialised chaining words and leaves the latch as it is. The bytes of
a serialisation are those of each word, most significant first for family A and least significant first for B; parsing
reads the words back from the same bytes. -/
def Obligations.HExportWritesTheChainingWords : Prop :=
  (∀ (f : Family) (H : Chain), (serialize f H).length = 4 * f.words ∧ ∀ i j, i < f.words → j < 4 →
    ((serialize f H).getD (4 * i + j) 0).toNat =
      (chainWord H i).toNat / 2 ^ (8 * if f = .A then 3 - j else j) % 256) ∧
  (∀ (f : Family) (d : List Byte), d.length = 4 * f.words → ((f = .B) → (parse f d).h4 = 0) ∧ ∀ i, i < f.words →
    (chainWord (parse f d) i).toNat = if f = .A then beWordAt d i else leWordAt d i) ∧
  ∀ (s : State) (f : Family),
    (s.latch.valid = false → exec (.hExport f) s = .next (failed s .state)) ∧
    (s.latch.valid = true → f ≠ s.latch.fam → exec (.hExport f) s = .next (failed s .validation)) ∧
    (s.latch.valid = true → f = s.latch.fam → Fits s .d0 (4 * f.words) →
      exec (.hExport f) s =
        .next (succeeded s (stored s .d0 (serialize f s.latch.h)) (4 * f.words) 0 0 0 s.latch)) ∧
    (s.latch.valid = true → f = s.latch.fam → ¬ Fits s .d0 (4 * f.words) →
      exec (.hExport f) s = .next (failed s .range))

/-- `44_mac_forge.md` R221: MAC writes the digest of key ∥ message and leaves the finished state in the latch, whatever
the latch held.
(`SourcesChecked`: the order and the address of the model fault are the model's choice, logs 6, 7.) -/
def Obligations.MacWritesTheKeyedDigest : Prop :=
  SourcesChecked (.mac .A) ∧ SourcesChecked (.mac .B) ∧
    ∀ (s : State) (f : Family) (m k p : List Byte) (S1 S2 : Latch), Holds s .s0 m → Holds s .s1 k →
      S1 = absorb (initLatch f) (k ++ m) → p = mdpad f s.blenBits S1.len → S2 = absorb S1 p →
      (Fits s .d0 (4 * f.words) → exec (.mac f) s = .next (succeeded s (stored s .d0 (serialize f S2.h))
        (4 * f.words) 0 0 ((k.length + m.length) / 64 + (S1.part.length + p.length) / 64) S2)) ∧
      (¬ Fits s .d0 (4 * f.words) → exec (.mac f) s = .next (failed s .range))

/-- `44_mac_forge.md` R222: FORGE continues the known MAC over the suffix; the forged message goes to DST1 first, then
the forged digest to DST0.
(`SourcesChecked`: the order and the address of the model fault are the model's choice, logs 6, 7.) -/
def Obligations.ForgeExtendsTheKnownMac : Prop :=
  SourcesChecked (.forge .A) ∧ SourcesChecked (.forge .B) ∧
    ∀ (s : State) (f : Family) (m x t p q : List Byte) (T : Dword) (S1 S2 : Latch),
      Holds s .s0 m → Holds s .s1 x → Holds s .s2 t →
      T = BitVec.ofNat 64 (s.ops.arg0.toNat + m.length) → p = mdpad f s.blenBits T →
      S1 = absorb { valid := true, fam := f, h := parse f t, len := T + BitVec.ofNat 64 p.length, part := [] } x →
      q = mdpad f s.blenBits S1.len → S2 = absorb S1 q →
      (t.length ≠ 4 * f.words → exec (.forge f) s = .next (failed s .validation)) ∧
      (t.length = 4 * f.words → Fits s .d1 (m.length + p.length + x.length) → Fits s .d0 (4 * f.words) →
        exec (.forge f) s = .next (succeeded s
          ((stored s .d1 (m ++ p ++ x)).writeBytes s.ops.dst0Addr.toNat (serialize f S2.h))
          (4 * f.words) (m.length + p.length + x.length) 0 (x.length / 64 + (S1.part.length + q.length) / 64) S2)) ∧
      (t.length = 4 * f.words → ¬ (Fits s .d1 (m.length + p.length + x.length) ∧ Fits s .d0 (4 * f.words)) →
        exec (.forge f) s = .next (failed s .range))

/-! ### All commands -/

/-- `60_exceptions.md` R246: what completion leaves in DONE, BUSY, STICKY and OVR, for every command and for a word that does
not decode, whose code is ILLEGAL_OP. The code of a command that decodes is in the command's own statement. -/
def Obligations.CompletionSetsStatus : Prop :=
  (∀ (i : Instr) (s t : State), exec i s = .next t → t.status =
    { busy := false, done := true, err := t.status.err, ovr := s.status.ovr,
      sticky := if t.status.err = .ok then s.status.sticky else true }) ∧
  (∀ s t : State, s.status.busy = true → engineTurn s = .next t → t.status =
    { busy := false, done := true, err := t.status.err, ovr := s.status.ovr,
      sticky := if t.status.err = .ok then s.status.sticky else true }) ∧
  ∀ (s t : State) (e : DecodeError), s.status.busy = true → decode s.cmd = .error e → engineTurn s = .next t →
    t.status.err = .illegalOp

/-- `60_exceptions.md` R249: a failed command changes only STATUS. -/
def Obligations.FailedCommandChangesOnlyStatus : Prop :=
  (∀ (i : Instr) (s t : State), exec i s = .next t → t.status.err ≠ .ok → t = { s with status := t.status }) ∧
  ∀ s t : State, s.status.busy = true → engineTurn s = .next t → t.status.err ≠ .ok →
    t = { s with status := t.status }

/-- `60_exceptions.md` R251: the codes each command can report; FORGE never reports ALIGNMENT (`44_mac_forge.md` R225). -/
def Obligations.CommandReportsOnlyItsErrors : Prop :=
  ∀ (i : Instr) (s t : State), exec i s = .next t → t.status.err = .ok ∨ t.status.err ∈ errorsOf i

/-- A command stops only by the model fault of `70_reset_and_hazards.md` R272, at an unwritten byte of one of its source
regions; it is never refused. A block whose every byte of `BUF` is written never stops. -/
def Obligations.OnlyUnwrittenBytesStop : Prop :=
  (∀ (i : Instr) (s : State) (f : Fault), exec i s = .fault f →
    ∃ k ∈ reads i, ∃ j, j < (s.ops.srcLen k).toNat ∧ SrcInRange s k ∧
      s.buf.read ((s.ops.srcAddr k).toNat + j) = none ∧ f = .unwrittenByte ((s.ops.srcAddr k).toNat + j)) ∧
  (∀ (s : State) (r : Refusal), step s ≠ .refused r) ∧
  ∀ s : State, s.par.Legal → (∀ a, a < s.par.bufBytes → s.buf.read a ≠ none) → Safe s

/-- `60_exceptions.md` R254: what the engine's step does is a function of the command word, the operand registers,
BLEN_BITS, the latch and `BUF` (and the block's parameters): two busy states that agree on these give the same code, `BUF`,
latch, result lengths on success, and counts; the engine makes no draws. -/
def Obligations.CommandOutcomeIsDetermined : Prop :=
  ∀ s s' : State, s.status.busy = true → s'.status.busy = true → s.cmd = s'.cmd → s.par = s'.par → s.ops = s'.ops →
    s.blenBits = s'.blenBits → s.latch = s'.latch → s.buf = s'.buf →
    (∀ f, engineTurn s = .fault f → engineTurn s' = .fault f) ∧
    ∀ t, engineTurn s = .next t → t.draws = s.draws ∧ ∃ t', engineTurn s' = .next t' ∧
      t'.status.err = t.status.err ∧ t'.buf = t.buf ∧ t'.latch = t.latch ∧
      (t.status.err = .ok → t'.res0Len = t.res0Len ∧ t'.res1Len = t.res1Len) ∧
      t'.ciphCnt - s'.ciphCnt = t.ciphCnt - s.ciphCnt ∧ t'.compCnt - s'.compCnt = t.compCnt - s.compCnt

/-- The frame of every command: the parameters, CMD, CTRL.BLEN_BITS, the operand registers (`10_state.md` R28), STATUS.OVR
(`60_exceptions.md` R246) and the model's own turns, answer and draws are unchanged. -/
def Obligations.CommandsKeepTheOtherRegisters : Prop :=
  ∀ (i : Instr) (s t : State), exec i s = .next t →
    t.par = s.par ∧ t.cmd = s.cmd ∧ t.blenBits = s.blenBits ∧ t.ops = s.ops ∧ t.status.ovr = s.status.ovr ∧
      t.turns = s.turns ∧ t.resp = s.resp ∧ t.draws = s.draws

/-- The frame of `BUF`: a byte outside the destination regions of the command reads as before; the regions start at
DST0_ADDR and DST1_ADDR and, when the command succeeds, are as long as the result lengths say (`10_state.md` R29,
`60_exceptions.md` R248, R249). A failed command changes no byte. NOP, H_INIT, H_ABSORB and H_IMPORT store nothing, and
only FORGE stores to DST1 (`30_encoding.md` R86). -/
def Obligations.CommandsStoreOnlyToTheirDestinations : Prop :=
  ∀ (i : Instr) (s t : State), s.par.Legal → exec i s = .next t →
    (∀ a,
      (t.status.err ≠ .ok ∨
        ((a < s.ops.dst0Addr.toNat ∨ s.ops.dst0Addr.toNat + t.res0Len.toNat ≤ a) ∧
          (a < s.ops.dst1Addr.toNat ∨ s.ops.dst1Addr.toNat + t.res1Len.toNat ≤ a))) →
      t.buf.read a = s.buf.read a) ∧
    (i = .nop ∨ (∃ f, i = .hInit f ∨ i = .hAbsorb f ∨ i = .hImport f) → t.buf = s.buf) ∧
    ((∀ f, i ≠ .forge f) → t.status.err = .ok → t.res1Len = 0 ∧
      ∀ a, (a < s.ops.dst0Addr.toNat ∨ s.ops.dst0Addr.toNat + t.res0Len.toNat ≤ a) → t.buf.read a = s.buf.read a)

/-- `10_state.md` R46: the latch changes only by a successful H_INIT, H_ABSORB, H_FINAL, H_IMPORT, MAC or FORGE, and by
reset. -/
def Obligations.LatchChangesOnlyByItsCommands : Prop :=
  ∀ s t : State, step s = .next t → t.latch ≠ s.latch →
    (s.status.busy = true ∧ t.status.err = .ok ∧ (∃ i, decode s.cmd = .ok i ∧ writesLatch i = true) ∧
      (s.turns = [] ∨ s.turns.head? = some .engine)) ∨
    s.turns.head? = some .hardReset ∨
    ∃ addr w v, s.turns.head? = some (.access (.write addr w v)) ∧ target s.par addr = .register 0x00C ∧
      v.getLsbD 0 = true

/-! ### The host's side -/

/-- `10_state.md` R23: a write of CMD while idle is accepted, BUSY set and DONE cleared; while busy it is ignored and sets
OVR; a read returns the last value accepted. -/
def Obligations.CmdWriteIssuesOrIsRefused : Prop :=
  ∀ (s : State) (v : Word) (rest : List Turn),
    (NextWrites s .cmd v rest → s.status.busy = false → step s = .next { s with
      turns := rest, cmd := v, status := { s.status with busy := true, done := false }, resp := .ack }) ∧
    (NextWrites s .cmd v rest → s.status.busy = true → step s = .next { s with
      turns := rest, status := { s.status with ovr := true }, resp := .ack }) ∧
    (NextReads s .cmd rest → step s = .next { s with turns := rest, resp := .data 4 s.cmd })

/-- `10_state.md` R25 with R24: a write of STATUS clears DONE, STICKY and OVR by ones, whatever BUSY is, and its word. -/
def Obligations.StatusWriteClearsByOnes : Prop :=
  ∀ (s : State) (v : Word) (rest : List Turn),
    (NextWrites s .status v rest → step s = .next { s with
      turns := rest, resp := .ack,
      status := { s.status with
        done := if v.getLsbD 1 then false else s.status.done
        sticky := if v.getLsbD 8 then false else s.status.sticky
        ovr := if v.getLsbD 9 then false else s.status.ovr } }) ∧
    (NextReads s .status rest → ∃ w : Word, step s = .next { s with turns := rest, resp := .data 4 w } ∧
      w.getLsbD 0 = s.status.busy ∧ w.getLsbD 1 = s.status.done ∧ w.extractLsb' 2 2 = 0 ∧
      (w.extractLsb' 4 4).toNat = s.status.err.code ∧ w.getLsbD 8 = s.status.sticky ∧
      w.getLsbD 9 = s.status.ovr ∧ w.extractLsb' 10 22 = 0)

/-- `10_state.md` R27 with R26: a write of CTRL with bit 0 = 0 sets BLEN_BITS while idle and is refused while busy; CTRL
reads BLEN_BITS in bit 1 and 0 elsewhere. The write with bit 0 = 1 is the soft reset of ResetsLeaveTheStatedValues. -/
def Obligations.CtrlWriteSetsTheLengthUnit : Prop :=
  ∀ (s : State) (v : Word) (rest : List Turn),
    (NextWrites s .ctrl v rest → v.getLsbD 0 = false → s.status.busy = false →
      step s = .next { s with turns := rest, blenBits := v.getLsbD 1, resp := .ack }) ∧
    (NextWrites s .ctrl v rest → v.getLsbD 0 = false → s.status.busy = true →
      step s = .next { s with turns := rest, status := { s.status with ovr := true }, resp := .ack }) ∧
    (NextReads s .ctrl rest → step s = .next { s with
      turns := rest, resp := .data 4 (if s.blenBits then 2 else 0) })

/-- `10_state.md` R28: an operand register stores a write while idle and refuses it while busy; a read returns the
stored value at any time; one write changes one register. -/
def Obligations.OperandRegistersStoreWrites : Prop :=
  ∀ (s : State) (r : OpReg) (v : Word) (rest : List Turn),
    (NextWrites s (.operand r) v rest → s.status.busy = false →
      ∃ o : OperandRegs, o.get r = v ∧ (∀ r', r' ≠ r → o.get r' = s.ops.get r') ∧
        step s = .next { s with turns := rest, ops := o, resp := .ack }) ∧
    (NextWrites s (.operand r) v rest → s.status.busy = true →
      step s = .next { s with turns := rest, status := { s.status with ovr := true }, resp := .ack }) ∧
    (NextReads s (.operand r) rest → step s = .next { s with turns := rest, resp := .data 4 (s.ops.get r) })

/-- `10_state.md` R30 (the host's part) and R35: a write of a counter clears it while idle and is refused while busy; a
write of a read-only register or a reserved offset is ignored without OVR; a reserved offset reads 0. -/
def Obligations.CounterAndReadOnlyWrites : Prop :=
  ∀ (s : State) (v : Word) (rest : List Turn),
    (NextWrites s .ciphCnt v rest → s.status.busy = false →
      step s = .next { s with turns := rest, ciphCnt := 0, resp := .ack }) ∧
    (NextWrites s .compCnt v rest → s.status.busy = false →
      step s = .next { s with turns := rest, compCnt := 0, resp := .ack }) ∧
    (∀ r ∈ [Reg.ciphCnt, Reg.compCnt], NextWrites s r v rest → s.status.busy = true →
      step s = .next { s with turns := rest, status := { s.status with ovr := true }, resp := .ack }) ∧
    (∀ off, (off = 0x000 ∨ off = 0x040 ∨ off = 0x044 ∨ (0x050 ≤ off ∧ off ≤ 0xFFC)) → off % 4 = 0 →
      s.turns = .access (.write (s.par.base + off) 4 v) :: rest →
      step s = .next { s with turns := rest, resp := .ack }) ∧
    ∀ off, (off = 0x05C ∨ (0x074 ≤ off ∧ off ≤ 0x07C) ∨ (0x0C0 ≤ off ∧ off ≤ 0xFFC)) → off % 4 = 0 →
      s.turns = .access (.read (s.par.base + off) 4) :: rest →
      step s = .next { s with turns := rest, resp := .data 4 0 }

/-- `10_state.md` R22, R36: while busy a read of a result, counter or readout register is a draw, which changes nothing
but the model's count of draws; a read of ID, CMD, STATUS, CTRL or an operand register is exact at all times. -/
def Obligations.BusyReadsAreDrawsOrExact : Prop :=
  ∀ (s : State) (rest : List Turn),
    (∀ off, ((0x040 ≤ off ∧ off ≤ 0x058) ∨ (0x060 ≤ off ∧ off ≤ 0x070) ∨ (0x080 ≤ off ∧ off ≤ 0x0BC)) → off % 4 = 0 →
      s.turns = .access (.read (s.par.base + off) 4) :: rest → s.status.busy = true →
      ∃ v : Word, step s = .next { s with turns := rest, resp := .data 4 v, draws := s.draws + 1 }) ∧
    (NextReads s .id rest → step s = .next { s with turns := rest, resp := .data 4 0x43505831 }) ∧
    ∀ r, r = .cmd ∨ r = .status ∨ r = .ctrl ∨ (∃ o, r = .operand o) → NextReads s r rest →
      step s = .next { s with turns := rest, resp := .data 4 (regValue s r) }

/-- `10_state.md` R29 to R34: while idle the result, counter and readout registers read exactly. -/
def Obligations.IdleReadoutsShowTheLatch : Prop :=
  ∀ (s : State) (rest : List Turn), s.status.busy = false →
    (NextReads s .res0Len rest → step s = .next { s with turns := rest, resp := .data 4 s.res0Len }) ∧
    (NextReads s .res1Len rest → step s = .next { s with turns := rest, resp := .data 4 s.res1Len }) ∧
    (NextReads s .ciphCnt rest → step s = .next { s with turns := rest, resp := .data 4 s.ciphCnt }) ∧
    (NextReads s .compCnt rest → step s = .next { s with turns := rest, resp := .data 4 s.compCnt }) ∧
    (NextReads s .latchInfo rest → s.latch.part.length < 64 →
      ∃ w : Word, step s = .next { s with turns := rest, resp := .data 4 w } ∧
        w.getLsbD 0 = s.latch.valid ∧ w.getLsbD 1 = s.latch.fam.bit ∧ w.extractLsb' 2 6 = 0 ∧
        (w.extractLsb' 8 6).toNat = s.latch.part.length ∧ w.extractLsb' 14 18 = 0) ∧
    (NextReads s .lenLo rest → step s = .next { s with
      turns := rest, resp := .data 4 (BitVec.ofNat 32 (s.latch.len.toNat % 2 ^ 32)) }) ∧
    (NextReads s .lenHi rest → step s = .next { s with
      turns := rest, resp := .data 4 (BitVec.ofNat 32 (s.latch.len.toNat / 2 ^ 32)) }) ∧
    (∀ i : Fin 5, NextReads s (.h i) rest → step s = .next { s with
      turns := rest,
      resp := .data 4 (if i = 4 ∧ s.latch.fam = .B then 0
        else [s.latch.h.h0, s.latch.h.h1, s.latch.h.h2, s.latch.h.h3, s.latch.h.h4].getD i.val 0) }) ∧
    ∀ k : Fin 16, NextReads s (.chunk k) rest →
      ∃ w : Word, step s = .next { s with turns := rest, resp := .data 4 w } ∧
        w.toNat = (s.latch.part.getD (4 * k.val) 0).toNat + (s.latch.part.getD (4 * k.val + 1) 0).toNat * 2 ^ 8 +
          (s.latch.part.getD (4 * k.val + 2) 0).toNat * 2 ^ 16 + (s.latch.part.getD (4 * k.val + 3) 0).toNat * 2 ^ 24

/-- `20_memory.md` R65, R66: while idle a legal access of width `w` at buffer address `a` reads or writes the `w` bytes
there, little-endian, and no other; a read that covers an unwritten byte is a model fault at one of them
(`70_reset_and_hazards.md` R272); while busy a write is refused and a read is a draw of the access width. -/
def Obligations.BufferAccessesAreLittleEndian : Prop :=
  ∀ (s : State) (a w : Nat) (v : Word) (rest : List Turn), s.par.Legal → (w = 1 ∨ w = 2 ∨ w = 4) → a % w = 0 →
    a < s.par.bufBytes →
    (s.turns = .access (.write (s.par.base + s.par.bufOffset + a) w v) :: rest → s.status.busy = false →
      ∃ m : Memory, step s = .next { s with turns := rest, buf := m, resp := .ack } ∧
        (∀ j, j < w → m.read (a + j) = some (v.extractLsb' (8 * j) 8)) ∧
        ∀ b, (b < a ∨ a + w ≤ b) → m.read b = s.buf.read b) ∧
    (s.turns = .access (.write (s.par.base + s.par.bufOffset + a) w v) :: rest → s.status.busy = true →
      step s = .next { s with turns := rest, status := { s.status with ovr := true }, resp := .ack }) ∧
    (∀ d : List Byte, s.turns = .access (.read (s.par.base + s.par.bufOffset + a) w) :: rest → s.status.busy = false →
      d.length = w → BytesAt s.buf a d →
      ∃ x : Word, step s = .next { s with turns := rest, resp := .data w x } ∧
        x.toNat = d.foldr (fun b n => b.toNat + 256 * n) 0) ∧
    (s.turns = .access (.read (s.par.base + s.par.bufOffset + a) w) :: rest → s.status.busy = false →
      (∃ j, j < w ∧ s.buf.read (a + j) = none) →
      ∃ j, j < w ∧ s.buf.read (a + j) = none ∧ step s = .fault (.unwrittenByte (a + j))) ∧
    (s.turns = .access (.read (s.par.base + s.par.bufOffset + a) w) :: rest → s.status.busy = true →
      ∃ x : Word, x.toNat < 2 ^ (8 * w) ∧
        step s = .next { s with turns := rest, resp := .data w x, draws := s.draws + 1 })

/-- `20_memory.md` R64 with R63: an access of an illegal width or alignment, or to an address of the block's window that
has no target, is a bus error and changes no state of the block. -/
def Obligations.IllegalAccessesAreBusErrors : Prop :=
  ∀ (s : State) (acc : Access) (addr w : Nat) (rest : List Turn), s.par.Legal →
    (acc = .read addr w ∨ ∃ v, acc = .write addr w v) → s.turns = .access acc :: rest →
    s.par.base ≤ addr → addr < s.par.base + 2 ^ 25 →
    ((addr < s.par.base + 0x1000 ∧ (w ≠ 4 ∨ addr % 4 ≠ 0)) ∨
      (s.par.base + s.par.bufOffset ≤ addr ∧ addr < s.par.base + s.par.bufOffset + s.par.bufBytes ∧
        ((w ≠ 1 ∧ w ≠ 2 ∧ w ≠ 4) ∨ addr % w ≠ 0)) ∨
      (s.par.base + 0x1000 ≤ addr ∧
        (addr < s.par.base + s.par.bufOffset ∨ s.par.base + s.par.bufOffset + s.par.bufBytes ≤ addr))) →
    step s = .next { s with turns := rest, resp := .busError }

/-! ### Properties of the operations -/

/-- `40_cipher.md` R115: the reference values of AES-128. -/
def Obligations.AesReferenceValues : Prop :=
  aesEnc [0x00, 0x11, 0x22, 0x33, 0x44, 0x55, 0x66, 0x77, 0x88, 0x99, 0xaa, 0xbb, 0xcc, 0xdd, 0xee, 0xff]
      [0x00, 0x01, 0x02, 0x03, 0x04, 0x05, 0x06, 0x07, 0x08, 0x09, 0x0a, 0x0b, 0x0c, 0x0d, 0x0e, 0x0f] =
    [0x69, 0xc4, 0xe0, 0xd8, 0x6a, 0x7b, 0x04, 0x30, 0xd8, 0xcd, 0xb7, 0x80, 0x70, 0xb4, 0xc5, 0x5a] ∧
  aesEnc [0x32, 0x43, 0xf6, 0xa8, 0x88, 0x5a, 0x30, 0x8d, 0x31, 0x31, 0x98, 0xa2, 0xe0, 0x37, 0x07, 0x34]
      [0x2b, 0x7e, 0x15, 0x16, 0x28, 0xae, 0xd2, 0xa6, 0xab, 0xf7, 0x15, 0x88, 0x09, 0xcf, 0x4f, 0x3c] =
    [0x39, 0x25, 0x84, 0x1d, 0x02, 0xdc, 0x09, 0xfb, 0xdc, 0x11, 0x85, 0x97, 0x19, 0x6a, 0x0b, 0x32] ∧
  roundKey (keySchedule
      [0x2b, 0x7e, 0x15, 0x16, 0x28, 0xae, 0xd2, 0xa6, 0xab, 0xf7, 0x15, 0x88, 0x09, 0xcf, 0x4f, 0x3c]) 10 =
    [0xd0, 0x14, 0xf9, 0xa8, 0xc9, 0xee, 0x25, 0x89, 0xe1, 0x3f, 0x0c, 0xc8, 0xb6, 0x63, 0x0c, 0xa6]

/-- `40_cipher.md` R113: InvCipher and Cipher are inverse to each other for every block and key. -/
def Obligations.AesDecryptInvertsEncrypt : Prop :=
  ∀ b k : List Byte, b.length = 16 → k.length = 16 → aesDec (aesEnc b k) k = b ∧ aesEnc (aesDec b k) k = b

/-- `42_padding.md` R165: unpadding a padded buffer gives it back, for every buffer and block size 1 to 255. -/
def Obligations.UnpadInvertsPad : Prop :=
  ∀ (s : List Byte) (B : Nat), 1 ≤ B → B ≤ 255 → pkcs7Unpad (pkcs7Pad s B) B = .ok s

/-- `42_padding.md` R166: for a buffer of at least one block with last byte `n`, `1 ≤ n ≤ B`, unpadding succeeds iff the
last `n` bytes all equal `n`. -/
def Obligations.UnpadIsStrict : Prop :=
  ∀ (s : List Byte) (B n : Nat), 1 ≤ B → B ≤ 255 → B ≤ s.length → (s.getD (s.length - 1) 0).toNat = n → 1 ≤ n → n ≤ B →
    ((∃ p, pkcs7Unpad s B = .ok p) ↔ ∀ j, s.length - n ≤ j → j < s.length → s.getD j 0 = BitVec.ofNat 8 n)

/-- `41_modes.md` R133: ECB_DEC of the output of ECB_ENC under the same key succeeds with the plaintext, for every
plaintext that fits and every legal pair (`00_scope.md` R7); the host sets the operands in between. -/
def Obligations.EcbRoundTrip : Prop :=
  ∀ (s : State) (p k : List Byte), s.par.Legal → s.par.LegalCipher → Holds s .s0 p → Holds s .s1 k → k.length = 16 →
    Fits s .d0 (p.length + 16 - p.length % 16) →
    ∃ t, exec .ecbEnc s = .next t ∧ t.status.err = .ok ∧
      ∀ u : State, u.par = t.par → u.buf = t.buf → u.ops.src0Addr = s.ops.dst0Addr → u.ops.src0Len = t.res0Len →
        Holds u .s1 k → Fits u .d0 p.length →
        ∃ v, exec .ecbDec u = .next v ∧ v.status.err = .ok ∧ v.res0Len = BitVec.ofNat 32 p.length ∧
          BytesAt v.buf u.ops.dst0Addr.toNat p

/-- `41_modes.md` R136, for any cipher pair: the CBC round trip, and bit flipping. -/
def Obligations.CbcRoundTripAndBitFlips : Prop :=
  ∀ (C : BlockCipher) (k iv : List Byte), Lawful C → k.length = 16 → iv.length = 16 →
    (∀ (p : List Byte) (m : Nat), 16 * m = (padded p 16).length →
      pkcs7Unpad (cbcDecrypt C k iv m (cbcEncrypt C k iv m (padded p 16))) 16 = .ok p) ∧
    (∀ (c : List Byte) (m i j : Nat) (x : Byte), c.length = 16 * m → 1 ≤ i → i < m → j < 16 →
      blockAt (cbcDecrypt C k iv m (c.set (16 * (i - 1) + j) (c.getD (16 * (i - 1) + j) 0 ^^^ x))) i =
        (blockAt (cbcDecrypt C k iv m c) i).set j ((blockAt (cbcDecrypt C k iv m c) i).getD j 0 ^^^ x)) ∧
    ∀ (c : List Byte) (m j : Nat) (x : Byte), c.length = 16 * m → 1 ≤ m → j < 16 →
      cbcDecrypt C k (iv.set j (iv.getD j 0 ^^^ x)) m c =
        (cbcDecrypt C k iv m c).set j ((cbcDecrypt C k iv m c).getD j 0 ^^^ x)

/-- `41_modes.md` R144, for any cipher pair: decrypting an edited ciphertext gives the plaintext with the replacement in
place and every other byte unchanged (with an empty replacement: CTR decryption inverts CTR encryption, R142). -/
def Obligations.CtrEditThenDecrypt : Prop :=
  ∀ (C : BlockCipher) (k n p r : List Byte) (off : Nat), Lawful C → k.length = 16 → n.length = 8 →
    off + r.length ≤ p.length →
    ctrXor C k n (ctrEdit C k n (ctrXor C k n p) off r) = p.take off ++ r ++ p.drop (off + r.length)

/-- `41_modes.md` R146: the cost of a successful edit in cipher invocations, bounded by the replacement's length and the
same whatever the ciphertext's length is. -/
def Obligations.EditCostFollowsTheReplacement : Prop :=
  ∀ (s t : State), exec .ctrEdit s = .next t → t.status.err = .ok → 0 < s.ops.src3Len.toNat →
    ∃ n, t.ciphCnt = s.ciphCnt + BitVec.ofNat 32 n ∧
      n = (s.ops.arg0.toNat + s.ops.src3Len.toNat - 1) / 16 - s.ops.arg0.toNat / 16 + 1 ∧
      n ≤ s.ops.src3Len.toNat / 16 + 2

/-- `43_hash.md` R189 to R191: the bytes of the MD padding (0x80, zeros, and in the last eight bytes the length, in bits
and big-endian for family A, for B little-endian in bytes or, with BLEN_BITS = 1, in bits), its length, its bounds, and
that it ends on a chunk boundary, also modulo 2^64 (`44_mac_forge.md` R225); for family A it does not depend on
BLEN_BITS. -/
def Obligations.MdPaddingFacts : Prop :=
  ∀ (f : Family) (bits : Bool) (Lt : Dword),
    (mdpad f bits Lt).length = 9 + (55 + 64 - Lt.toNat % 64) % 64 ∧
    (mdpad f bits Lt).getD 0 0 = 0x80 ∧
    (∀ i, 1 ≤ i → i + 8 < (mdpad f bits Lt).length → (mdpad f bits Lt)[i]? = some 0) ∧
    (∀ i, i < 8 → ((mdpad f bits Lt).getD ((mdpad f bits Lt).length - 8 + i) 0).toNat =
      if f = .A then 8 * Lt.toNat % 2 ^ 64 / 2 ^ (8 * (7 - i)) % 256
      else if bits = true then 8 * Lt.toNat % 2 ^ 64 / 2 ^ (8 * i) % 256
      else Lt.toNat / 2 ^ (8 * i) % 256) ∧
    9 ≤ (mdpad f bits Lt).length ∧ (mdpad f bits Lt).length ≤ 72 ∧
    ((mdpad f bits Lt).length = 9 ↔ Lt.toNat % 64 = 55) ∧ ((mdpad f bits Lt).length = 72 ↔ Lt.toNat % 64 = 56) ∧
    (Lt.toNat + (mdpad f bits Lt).length) % 64 = 0 ∧
    (Lt + BitVec.ofNat 64 (mdpad f bits Lt).length).toNat % 64 = 0 ∧ mdpad .A bits Lt = mdpad .A (!bits) Lt

/-- `43_hash.md` R201: importing the digest of H_FINAL with the padded length rebuilds the latch H_FINAL left, in every
field, and from it every suffix gives the digest that continuing the original absorption gives. -/
def Obligations.ContinuationIdentity : Prop :=
  ∀ (s : State) (f : Family) (p : List Byte), LatchInv s.latch → s.latch.valid = true → f = s.latch.fam →
    Fits s .d0 (4 * f.words) → p = mdpad f s.blenBits s.latch.len →
    ∃ t, exec (.hFinal f) s = .next t ∧ t.status.err = .ok ∧
      (∀ (u : State) (d : List Byte), d.length = 4 * f.words → BytesAt t.buf s.ops.dst0Addr.toNat d → Holds u .s0 d →
        u.ops.arg64 = s.latch.len + BitVec.ofNat 64 p.length →
        ∃ v, exec (.hImport f) u = .next v ∧ v.status.err = .ok ∧ v.latch = t.latch) ∧
      ∀ x : List Byte, digestOf (absorb t.latch x) s.blenBits = digestOf (absorb s.latch (p ++ x)) s.blenBits

/-- `43_hash.md` R202: for a valid latch with an empty partial chunk, H_EXPORT then H_IMPORT with Ld = LEN restores it
exactly; with a partial chunk the import fails with ALIGNMENT. -/
def Obligations.ExportImportIdentity : Prop :=
  ∀ (s : State) (f : Family), LatchInv s.latch → s.latch.valid = true → f = s.latch.fam → Fits s .d0 (4 * f.words) →
    ∃ t, exec (.hExport f) s = .next t ∧ t.status.err = .ok ∧ t.latch = s.latch ∧
      ∀ (u : State) (d : List Byte), d.length = 4 * f.words → BytesAt t.buf s.ops.dst0Addr.toNat d → Holds u .s0 d →
        u.ops.arg64 = s.latch.len →
        (s.latch.part = [] → ∃ v, exec (.hImport f) u = .next v ∧ v.status.err = .ok ∧ v.latch = s.latch) ∧
        (s.latch.part ≠ [] → exec (.hImport f) u = .next (failed u .alignment))

/-- `44_mac_forge.md` R223: when the known MAC is the digest MAC wrote for the known message and the key, and the guessed
key length is the key's, the digest FORGE writes is the digest MAC writes for the forged message and the key, with the
same family and BLEN_BITS. -/
def Obligations.ForgeryCorrectness : Prop :=
  ∀ (s : State) (f : Family) (m k : List Byte), Holds s .s0 m → Holds s .s1 k → Fits s .d0 (4 * f.words) →
    ∃ t, exec (.mac f) s = .next t ∧ t.status.err = .ok ∧
      ∀ (u : State) (d x p : List Byte), d.length = 4 * f.words → BytesAt t.buf s.ops.dst0Addr.toNat d →
        u.blenBits = s.blenBits → Holds u .s0 m → Holds u .s1 x → Holds u .s2 d → u.ops.arg0.toNat = k.length →
        p = mdpad f s.blenBits (BitVec.ofNat 64 (k.length + m.length)) →
        Fits u .d1 (m.length + p.length + x.length) → Fits u .d0 (4 * f.words) →
        ∃ v, exec (.forge f) u = .next v ∧ v.status.err = .ok ∧
          ∀ (w : State) (h : List Byte), h.length = 4 * f.words → BytesAt v.buf u.ops.dst0Addr.toNat h →
            w.blenBits = s.blenBits → Holds w .s0 (m ++ p ++ x) → Holds w .s1 k → Fits w .d0 (4 * f.words) →
            ∃ z, exec (.mac f) w = .next z ∧ z.status.err = .ok ∧ BytesAt z.buf w.ops.dst0Addr.toNat h

/-- `44_mac_forge.md` R226: FORGE leaves the digest and the latch that H_MDPAD of the total length, H_IMPORT of the known
MAC at that length plus the padding's, H_ABSORB of the suffix and H_FINAL leave, with the same family and BLEN_BITS. The
host sets the operands in between; only the latch is carried from step to step. -/
def Obligations.ForgeEqualsItsSteps : Prop :=
  ∀ (s : State) (f : Family) (m x d p : List Byte) (T : Dword), Holds s .s0 m → Holds s .s1 x → Holds s .s2 d →
    d.length = 4 * f.words → T = BitVec.ofNat 64 (s.ops.arg0.toNat + m.length) → p = mdpad f s.blenBits T →
    Fits s .d1 (m.length + p.length + x.length) → Fits s .d0 (4 * f.words) →
    ∃ v, exec (.forge f) s = .next v ∧ v.status.err = .ok ∧
      ∀ u : State, u.blenBits = s.blenBits → u.ops.arg64 = T → Fits u .d0 p.length →
        ∃ w, exec (.hMdpad f) u = .next w ∧ w.status.err = .ok ∧ BytesAt w.buf u.ops.dst0Addr.toNat p ∧
          ∀ u2 : State, Holds u2 .s0 d → u2.ops.arg64 = T + BitVec.ofNat 64 p.length →
            ∃ w2, exec (.hImport f) u2 = .next w2 ∧ w2.status.err = .ok ∧
              ∀ u3 : State, u3.latch = w2.latch → Holds u3 .s0 x →
                ∃ w3, exec (.hAbsorb f) u3 = .next w3 ∧ w3.status.err = .ok ∧
                  ∀ u4 : State, u4.latch = w3.latch → u4.blenBits = s.blenBits → Fits u4 .d0 (4 * f.words) →
                    ∃ w4, exec (.hFinal f) u4 = .next w4 ∧ w4.status.err = .ok ∧ w4.latch = v.latch ∧
                      ∀ i, i < 4 * f.words →
                        w4.buf.read (u4.ops.dst0Addr.toNat + i) = v.buf.read (s.ops.dst0Addr.toNat + i)

/-! ### Host programs -/

/-- `30_encoding.md` R87 to R89: the host actions of a well-formed command line, from an idle block: the operand registers
the line names take its values and no other changes, the command's word is issued, and WAIT returns after the command.
That WAIT's first poll finds BUSY = 1 and the engine's step comes next is the model's choice, log 3; which lines are well
formed rests on log 10. PUT writes the listed bytes and no other, GET reads each byte in turn, CHECK reads the code,
CLRST clears DONE, STICKY and OVR, SRST resets, BLEN sets the length unit, WR and RD are one access, and WAIT of an idle
block is one read of STATUS. -/
def Obligations.CommandLineRunsItsCommand : Prop :=
  (∀ (s : State) (l : CommandLine) (rest : List Turn), l.wf = true → s.status.busy = false →
    s.turns = expandCommand s.par l ++ rest →
    ∃ (n : Nat) (o : OperandRegs) (t : State), stepsTo n s t ∧
      (∀ x ∈ l.settings, o.get x.1 = BitVec.ofNat 32 x.2) ∧
      (∀ r, r ∉ l.settings.map Prod.fst → o.get r = s.ops.get r) ∧
      t = { s with
        cmd := encode (lineInstr l), ops := o, turns := .wait :: rest, resp := .ack,
        status := { s.status with busy := true, done := false } } ∧
      ∀ u, exec (lineInstr l) { t with resp := .data 4 t.status.word } = .next u →
        stepsTo (n + 3) s { u with turns := rest, resp := .data 4 u.status.word }) ∧
  (∀ (s : State) (a : Nat) (d : List Byte) (rest : List Turn), s.par.Legal → s.status.busy = false →
    a + d.length ≤ s.par.bufBytes → s.turns = expand s.par (.put a d) ++ rest →
    ∃ m : Memory, BytesAt m a d ∧ (∀ b, (b < a ∨ a + d.length ≤ b) → m.read b = s.buf.read b) ∧
      stepsTo d.length s { s with turns := rest, buf := m, resp := if d = [] then s.resp else .ack }) ∧
  (∀ (s : State) (a : Nat) (d : List Byte) (rest : List Turn), s.par.Legal → s.status.busy = false →
    a + d.length ≤ s.par.bufBytes → BytesAt s.buf a d → s.turns = expand s.par (.get a d.length) ++ rest →
    ∀ j, j < d.length → ∃ (ts : List Turn) (x : Word), stepsTo (j + 1) s { s with turns := ts, resp := .data 1 x } ∧
      x.toNat = (d.getD j 0).toNat ∧ (j + 1 = d.length → ts = rest)) ∧
  ∀ (s : State) (rest : List Turn),
    (∀ e, s.turns = expand s.par (.check e) ++ rest → ∃ w : Word,
      step s = .next { s with turns := rest, resp := .data 4 w } ∧ (checkHolds e w = true ↔ s.status.err.code = e)) ∧
    (s.turns = expand s.par .clrst ++ rest → step s = .next { s with
      turns := rest, resp := .ack, status := { s.status with done := false, sticky := false, ovr := false } }) ∧
    (s.turns = expand s.par .srst ++ rest →
      ∃ t, step s = .next t ∧ ResetValues t ∧ t.buf = s.buf ∧ t.turns = rest ∧ t.par = s.par) ∧
    (∀ bits, s.status.busy = false → s.turns = expand s.par (.blen bits) ++ rest →
      step s = .next { s with turns := rest, blenBits := bits, resp := .ack }) ∧
    (∀ r v, s.turns = expand s.par (.wr r v) ++ rest → NextWrites s r v rest) ∧
    (∀ r, s.turns = expand s.par (.rd r) ++ rest → NextReads s r rest) ∧
    (s.status.busy = false → s.turns = expand s.par .wait ++ rest →
      step s = .next { s with turns := rest, resp := .data 4 s.status.word })
end

