-- ==== Sys2Proof/Laws/Bytes.lean ====
section
/-! SUPPORT. Byte sequences: lengths, the integer encodings and their inverses, and runs of a fixed length. -/

namespace Sys2Proof.Machine

/-- `rotl32` is the rotation of bit vectors (`00_scope.md` R10). -/
theorem rotl32_eq (a : Word) (n : Nat) (h : n < 32) : rotl32 a n = a.rotateLeft n := by
  rw [rotl32, BitVec.rotateLeft_def, Nat.mod_eq_of_lt h]

@[simp] theorem leBytes_length : ∀ n v : Nat, (leBytes n v).length = n
  | 0, _ => rfl
  | n + 1, v => by simp [leBytes, leBytes_length n]

@[simp] theorem beBytes_length (n v : Nat) : (beBytes n v).length = n := by simp [beBytes]

@[simp] theorem rep_length (b : Byte) (n : Nat) : (rep b n).length = n := by simp [rep]

@[simp] theorem xorBytes_length (s t : List Byte) : (xorBytes s t).length = min s.length t.length := by simp [xorBytes]

/-- `fromLE` inverts `LE_n` up to the width. -/
theorem fromLE_leBytes : ∀ n v : Nat, fromLE (leBytes n v) = v % 256 ^ n
  | 0, v => by simp [leBytes, fromLE, Nat.mod_one]
  | n + 1, v => by
    have h : 256 ^ (n + 1) = 256 * 256 ^ n := by rw [Nat.pow_succ, Nat.mul_comm]
    rw [leBytes, fromLE, fromLE_leBytes n, BitVec.toNat_ofNat, h, Nat.mod_mul]

theorem fromBE_beBytes (n v : Nat) : fromBE (beBytes n v) = v % 256 ^ n := by
  simp [fromBE, beBytes, fromLE_leBytes]

theorem fromLE_lt : ∀ s : List Byte, fromLE s < 256 ^ s.length
  | [] => by simp [fromLE]
  | b :: s => by
    have := fromLE_lt s
    have := b.isLt
    simp only [fromLE, List.length_cons, Nat.pow_succ]
    omega

theorem fromBE_lt (s : List Byte) : fromBE s < 256 ^ s.length := by simpa [fromBE] using fromLE_lt s.reverse

/-- The little-endian bytes of the integer a sequence encodes are the sequence. -/
theorem leBytes_fromLE : ∀ s : List Byte, leBytes s.length (fromLE s) = s
  | [] => rfl
  | b :: s => by
    have hb := b.isLt
    have h1 : (b.toNat + 256 * fromLE s) / 256 = fromLE s := by omega
    have h2 : BitVec.ofNat 8 (b.toNat + 256 * fromLE s) = b := by
      apply BitVec.eq_of_toNat_eq
      rw [BitVec.toNat_ofNat]
      omega
    simp only [fromLE, List.length_cons, leBytes, h1, h2, leBytes_fromLE s]

theorem beBytes_fromBE (s : List Byte) : beBytes s.length (fromBE s) = s := by
  have := leBytes_fromLE s.reverse
  rw [List.length_reverse] at this
  rw [beBytes, fromBE, this, List.reverse_reverse]

/-- Byte `i` of `LE_n(v)` (`00_scope.md` R12). -/
theorem leBytes_getElem? : ∀ n v i : Nat, i < n → (leBytes n v)[i]? = some (BitVec.ofNat 8 (v / 256 ^ i))
  | 0, _, _, h => by omega
  | n + 1, v, 0, _ => by simp [leBytes]
  | n + 1, v, i + 1, h => by
    rw [leBytes, List.getElem?_cons_succ, leBytes_getElem? n _ i (by omega), Nat.div_div_eq_div_mul, Nat.pow_succ,
      Nat.mul_comm (256 ^ i)]

theorem leBytes_getD (n v i : Nat) (h : i < n) : ((leBytes n v).getD i 0).toNat = v / 2 ^ (8 * i) % 256 := by
  rw [List.getD_eq_getElem?_getD, leBytes_getElem? _ _ _ h, Option.getD_some, BitVec.toNat_ofNat, Nat.pow_mul]

/-- Byte `i` of `BE_n(v)` (`00_scope.md` R12). -/
theorem beBytes_getD (n v i : Nat) (h : i < n) : ((beBytes n v).getD i 0).toNat = v / 2 ^ (8 * (n - 1 - i)) % 256 := by
  rw [← leBytes_getD n v (n - 1 - i) (by omega), beBytes, List.getD_eq_getElem?_getD,
    List.getElem?_reverse (by simpa using h), List.getD_eq_getElem?_getD, leBytes_length]

/-- XOR with the same sequence twice. -/
theorem xorBytes_cancel (s t : List Byte) (h : s.length ≤ t.length) : xorBytes (xorBytes s t) t = s := by
  induction s generalizing t with
  | nil => cases t <;> rfl
  | cons a s ih =>
    cases t with
    | nil => simp at h
    | cons b t =>
      have h' : s.length ≤ t.length := by simpa using h
      have hab : a ^^^ b ^^^ b = a := by rw [BitVec.xor_assoc, BitVec.xor_self, BitVec.xor_zero]
      have := ih t h'
      simp only [xorBytes, List.zipWith_cons_cons] at this ⊢
      rw [this, hab]

theorem xorBytes_getElem? (s t : List Byte) (i : Nat) (h1 : i < s.length) (h2 : i < t.length) :
    (xorBytes s t)[i]? = some (s[i] ^^^ t[i]) := by
  simp [xorBytes, h1, h2]

theorem xorBytes_append (a b c d : List Byte) (h : a.length = c.length) :
    xorBytes (a ++ b) (c ++ d) = xorBytes a c ++ xorBytes b d := by
  simp [xorBytes, List.zipWith_append h]

@[simp] theorem runs_length (n : Nat) : ∀ (m : Nat) (s : List Byte), (runs n m s).length = m
  | 0, _ => rfl
  | m + 1, s => by simp [runs, runs_length n m]

/-- Run `i` is `s[n·i .. n·i + n)`. -/
theorem runs_eq (n : Nat) : ∀ (m : Nat) (s : List Byte),
    runs n m s = (List.range m).map fun i => slice s (n * i) (n * i + n)
  | 0, _ => rfl
  | m + 1, s => by
    rw [runs, runs_eq n m, List.range_succ_eq_map, List.map_cons, List.map_map]
    congr 1
    · simp [slice]
    · refine List.map_congr_left fun i _ => ?_
      simp [slice, Nat.mul_succ, Nat.add_comm]

/-- The runs of a sequence of `n·m` bytes give it back. -/
theorem runs_flatten (n : Nat) : ∀ (m : Nat) (s : List Byte), s.length = n * m → (runs n m s).flatten = s
  | 0, s, h => by
    have : s = [] := List.length_eq_zero_iff.mp (by simpa using h)
    simp [runs, this]
  | m + 1, s, h => by
    rw [runs, List.flatten_cons, runs_flatten n m (s.drop n) (by rw [List.length_drop, h, Nat.mul_succ]; omega),
      List.take_append_drop]

/-- Every run of a sequence of `n·m` bytes has `n` bytes. -/
theorem mem_runs_length (n : Nat) : ∀ (m : Nat) (s b : List Byte), s.length = n * m → b ∈ runs n m s → b.length = n
  | 0, _, _, _, h => by simp [runs] at h
  | m + 1, s, b, hs, h => by
    rw [Nat.mul_succ] at hs
    rcases List.mem_cons.mp h with rfl | h
    · simp [hs]
    · exact mem_runs_length n m (s.drop n) b (by rw [List.length_drop, hs]; omega) h

/-- The runs of a concatenation of `m` runs of `n` bytes are those runs. -/
theorem runs_of_flatten (n : Nat) : ∀ (bs : List (List Byte)), (∀ b ∈ bs, b.length = n) →
    runs n bs.length bs.flatten = bs
  | [], _ => rfl
  | b :: bs, h => by
    have hb : b.length = n := h b List.mem_cons_self
    rw [List.length_cons, runs, List.flatten_cons, List.take_append_of_le_length (by omega),
      List.take_of_length_le (by omega), List.drop_append_of_le_length (by omega),
      List.drop_of_length_le (by omega), List.nil_append,
      runs_of_flatten n bs fun c hc => h c (List.mem_cons_of_mem _ hc)]

theorem flatten_length_of_forall (n : Nat) : ∀ (bs : List (List Byte)), (∀ b ∈ bs, b.length = n) →
    bs.flatten.length = n * bs.length
  | [], _ => by simp
  | b :: bs, h => by
    rw [List.flatten_cons, List.length_append, h b List.mem_cons_self,
      flatten_length_of_forall n bs fun c hc => h c (List.mem_cons_of_mem _ hc), List.length_cons, Nat.mul_succ,
      Nat.add_comm]

end Sys2Proof.Machine
end

