-- ==== Sys2Proof/Laws/Cipher.lean ====
section
/-! SUPPORT. AES-128: the tables against their definitions, the inverse of each step, and the lengths. -/

namespace Sys2Proof.Machine

/-! ### Field arithmetic and the S-boxes -/

@[simp] theorem xor_xor_cancel {w : Nat} (a b : BitVec w) : a ^^^ (a ^^^ b) = b := by
  rw [← BitVec.xor_assoc, BitVec.xor_self, BitVec.zero_xor]

theorem xor_left_comm' {w : Nat} (a b c : BitVec w) : a ^^^ (b ^^^ c) = b ^^^ (a ^^^ c) := by
  rw [← BitVec.xor_assoc, BitVec.xor_comm a b, BitVec.xor_assoc]

theorem xtime_xor (a b : Byte) : xtime (a ^^^ b) = xtime a ^^^ xtime b := by
  have h : (a ^^^ b) <<< 1 = (a <<< 1) ^^^ (b <<< 1) := BitVec.shiftLeft_xor_distrib a b 1
  unfold xtime
  rw [BitVec.getLsbD_xor, h]
  cases a.getLsbD 7 <;> cases b.getLsbD 7 <;>
    simp [BitVec.xor_assoc, xor_left_comm', BitVec.xor_comm]

theorem gmul_02 (a : Byte) : gmul a 0x02 = xtime a := by simp [gmul, List.range, List.range.loop, xtimes]
theorem gmul_03 (a : Byte) : gmul a 0x03 = a ^^^ xtime a := by simp [gmul, List.range, List.range.loop, xtimes]
theorem gmul_09 (a : Byte) : gmul a 0x09 = a ^^^ xtime (xtime (xtime a)) := by
  simp [gmul, List.range, List.range.loop, xtimes]
theorem gmul_0B (a : Byte) : gmul a 0x0B = a ^^^ xtime a ^^^ xtime (xtime (xtime a)) := by
  simp [gmul, List.range, List.range.loop, xtimes]
theorem gmul_0D (a : Byte) : gmul a 0x0D = a ^^^ xtime (xtime a) ^^^ xtime (xtime (xtime a)) := by
  simp [gmul, List.range, List.range.loop, xtimes]
theorem gmul_0E (a : Byte) : gmul a 0x0E = xtime a ^^^ xtime (xtime a) ^^^ xtime (xtime (xtime a)) := by
  simp [gmul, List.range, List.range.loop, xtimes]

/-- The affine map of `40_cipher.md` R103. -/
def affine (b : Byte) : Byte :=
  BitVec.ofBoolListLE ((List.range 8).map fun i =>
    b.getLsbD i ^^ b.getLsbD ((i + 4) % 8) ^^ b.getLsbD ((i + 5) % 8) ^^ b.getLsbD ((i + 6) % 8) ^^
      b.getLsbD ((i + 7) % 8) ^^ (0x63 : Byte).getLsbD i)

/-- The inverse of the affine map. -/
def affineInv (s : Byte) : Byte :=
  BitVec.ofBoolListLE ((List.range 8).map fun i =>
    s.getLsbD ((i + 2) % 8) ^^ s.getLsbD ((i + 5) % 8) ^^ s.getLsbD ((i + 7) % 8) ^^ (0x05 : Byte).getLsbD i)

/-- The table of `40_cipher.md` R103 is the S-box of its definition: the affine map of a byte that is the multiplicative
inverse of `x`, 0 for 0. -/
theorem sbox_eq_definition : ∀ x : Byte, sbox x = affine (affineInv (sbox x)) ∧
    (if x = 0 then affineInv (sbox x) = 0 else gmul x (affineInv (sbox x)) = 1) := by decide +kernel

/-- `40_cipher.md` R104. -/
@[simp] theorem invSbox_sbox : ∀ x : Byte, invSbox (sbox x) = x := by decide +kernel

@[simp] theorem sbox_invSbox : ∀ x : Byte, sbox (invSbox x) = x := by decide +kernel

/-- The round constants listed in `40_cipher.md` R105. -/
theorem rcon_values : (List.range 10).map (fun j => rcon (j + 1)) =
    [0x01, 0x02, 0x04, 0x08, 0x10, 0x20, 0x40, 0x80, 0x1B, 0x36] := by decide

/-! ### Each step has its inverse (`40_cipher.md` R113) -/

@[simp] theorem invSubBytes_subBytes (s : List Byte) : invSubBytes (subBytes s) = s := by
  simp [invSubBytes, subBytes, Function.comp_def]

@[simp] theorem subBytes_invSubBytes (s : List Byte) : subBytes (invSubBytes s) = s := by
  simp [invSubBytes, subBytes, Function.comp_def]

/-- A sequence of 16 bytes, byte by byte. -/
theorem sixteen_bytes (s : List Byte) (h : s.length = 16) :
    ∃ a0 a1 a2 a3 a4 a5 a6 a7 a8 a9 a10 a11 a12 a13 a14 a15,
      s = [a0, a1, a2, a3, a4, a5, a6, a7, a8, a9, a10, a11, a12, a13, a14, a15] := by
  match s, h with
  | [a0, a1, a2, a3, a4, a5, a6, a7, a8, a9, a10, a11, a12, a13, a14, a15], _ => exact ⟨_, _, _, _, _, _, _, _, _, _, _, _, _, _, _, _, rfl⟩

theorem invShiftRows_shiftRows (s : List Byte) (h : s.length = 16) : invShiftRows (shiftRows s) = s := by
  obtain ⟨_, _, _, _, _, _, _, _, _, _, _, _, _, _, _, _, rfl⟩ := sixteen_bytes s h
  rfl

theorem shiftRows_invShiftRows (s : List Byte) (h : s.length = 16) : shiftRows (invShiftRows s) = s := by
  obtain ⟨_, _, _, _, _, _, _, _, _, _, _, _, _, _, _, _, rfl⟩ := sixteen_bytes s h
  rfl

theorem gmul_xor (a b c : Byte) : gmul (a ^^^ b) c = gmul a c ^^^ gmul b c := by
  have x (n : Nat) : ∀ a b : Byte, xtimes n (a ^^^ b) = xtimes n a ^^^ xtimes n b := by
    induction n with
    | zero => intro a b; rfl
    | succ n ih => intro a b; rw [xtimes, xtime_xor, ih]; rfl
  have f : ∀ (l : List Nat) (p q : Byte),
      l.foldl (fun r i => if c.getLsbD i then r ^^^ xtimes i (a ^^^ b) else r) (p ^^^ q) =
        l.foldl (fun r i => if c.getLsbD i then r ^^^ xtimes i a else r) p ^^^
          l.foldl (fun r i => if c.getLsbD i then r ^^^ xtimes i b else r) q := by
    intro l
    induction l with
    | nil => intro p q; rfl
    | cons i l ih =>
      intro p q
      simp only [List.foldl_cons]
      split
      · rw [x, show p ^^^ q ^^^ (xtimes i a ^^^ xtimes i b) = p ^^^ xtimes i a ^^^ (q ^^^ xtimes i b) by ac_rfl, ih]
      · exact ih p q
  exact f _ 0x00 0x00

/-- The XOR of four rows of four is the XOR of the four columns. -/
theorem xor_transpose {w : Nat} (a b c d e f g h i j k l m n o p : BitVec w) :
    (a ^^^ b ^^^ c ^^^ d) ^^^ (e ^^^ f ^^^ g ^^^ h) ^^^ (i ^^^ j ^^^ k ^^^ l) ^^^ (m ^^^ n ^^^ o ^^^ p) =
      (a ^^^ e ^^^ i ^^^ m) ^^^ (b ^^^ f ^^^ j ^^^ n) ^^^ (c ^^^ g ^^^ k ^^^ o) ^^^ (d ^^^ h ^^^ l ^^^ p) := by
  ac_rfl

theorem invMixColumns_cons (a0 a1 a2 a3 : Byte) (s : List Byte) :
    invMixColumns (mixColumns (a0 :: a1 :: a2 :: a3 :: s)) = a0 :: a1 :: a2 :: a3 :: invMixColumns (mixColumns s) := by
  simp only [mixColumns, invMixColumns, gmul_xor]
  congr 1
  · have c0 (a : Byte) : gmul (gmul a 0x02) 0x0E ^^^ gmul a 0x0B ^^^ gmul a 0x0D ^^^ gmul (gmul a 0x03) 0x09 = a := by
      simp only [gmul_02, gmul_03, gmul_09, gmul_0B, gmul_0D, gmul_0E, xtime_xor]
      simp [BitVec.xor_assoc, xor_left_comm', BitVec.xor_comm]
    have c1 (a : Byte) : gmul (gmul a 0x03) 0x0E ^^^ gmul (gmul a 0x02) 0x0B ^^^ gmul a 0x0D ^^^ gmul a 0x09 = 0 := by
      simp only [gmul_02, gmul_03, gmul_09, gmul_0B, gmul_0D, gmul_0E, xtime_xor]
      simp [BitVec.xor_assoc, xor_left_comm', BitVec.xor_comm]
    have c2 (a : Byte) : gmul a 0x0E ^^^ gmul (gmul a 0x03) 0x0B ^^^ gmul (gmul a 0x02) 0x0D ^^^ gmul a 0x09 = 0 := by
      simp only [gmul_02, gmul_03, gmul_09, gmul_0B, gmul_0D, gmul_0E, xtime_xor]
      simp [BitVec.xor_assoc, xor_left_comm', BitVec.xor_comm]
    have c3 (a : Byte) : gmul a 0x0E ^^^ gmul a 0x0B ^^^ gmul (gmul a 0x03) 0x0D ^^^ gmul (gmul a 0x02) 0x09 = 0 := by
      simp only [gmul_02, gmul_03, gmul_09, gmul_0B, gmul_0D, gmul_0E, xtime_xor]
      simp [BitVec.xor_assoc, xor_left_comm', BitVec.xor_comm]
    rw [xor_transpose, c0, c1, c2, c3]
    simp
  congr 1
  · have c0 (a : Byte) : gmul (gmul a 0x02) 0x09 ^^^ gmul a 0x0E ^^^ gmul a 0x0B ^^^ gmul (gmul a 0x03) 0x0D = 0 := by
      simp only [gmul_02, gmul_03, gmul_09, gmul_0B, gmul_0D, gmul_0E, xtime_xor]
      simp [BitVec.xor_assoc, xor_left_comm', BitVec.xor_comm]
    have c1 (a : Byte) : gmul (gmul a 0x03) 0x09 ^^^ gmul (gmul a 0x02) 0x0E ^^^ gmul a 0x0B ^^^ gmul a 0x0D = a := by
      simp only [gmul_02, gmul_03, gmul_09, gmul_0B, gmul_0D, gmul_0E, xtime_xor]
      simp [BitVec.xor_assoc, xor_left_comm', BitVec.xor_comm]
    have c2 (a : Byte) : gmul a 0x09 ^^^ gmul (gmul a 0x03) 0x0E ^^^ gmul (gmul a 0x02) 0x0B ^^^ gmul a 0x0D = 0 := by
      simp only [gmul_02, gmul_03, gmul_09, gmul_0B, gmul_0D, gmul_0E, xtime_xor]
      simp [BitVec.xor_assoc, xor_left_comm', BitVec.xor_comm]
    have c3 (a : Byte) : gmul a 0x09 ^^^ gmul a 0x0E ^^^ gmul (gmul a 0x03) 0x0B ^^^ gmul (gmul a 0x02) 0x0D = 0 := by
      simp only [gmul_02, gmul_03, gmul_09, gmul_0B, gmul_0D, gmul_0E, xtime_xor]
      simp [BitVec.xor_assoc, xor_left_comm', BitVec.xor_comm]
    rw [xor_transpose, c0, c1, c2, c3]
    simp
  congr 1
  · have c0 (a : Byte) : gmul (gmul a 0x02) 0x0D ^^^ gmul a 0x09 ^^^ gmul a 0x0E ^^^ gmul (gmul a 0x03) 0x0B = 0 := by
      simp only [gmul_02, gmul_03, gmul_09, gmul_0B, gmul_0D, gmul_0E, xtime_xor]
      simp [BitVec.xor_assoc, xor_left_comm', BitVec.xor_comm]
    have c1 (a : Byte) : gmul (gmul a 0x03) 0x0D ^^^ gmul (gmul a 0x02) 0x09 ^^^ gmul a 0x0E ^^^ gmul a 0x0B = 0 := by
      simp only [gmul_02, gmul_03, gmul_09, gmul_0B, gmul_0D, gmul_0E, xtime_xor]
      simp [BitVec.xor_assoc, xor_left_comm', BitVec.xor_comm]
    have c2 (a : Byte) : gmul a 0x0D ^^^ gmul (gmul a 0x03) 0x09 ^^^ gmul (gmul a 0x02) 0x0E ^^^ gmul a 0x0B = a := by
      simp only [gmul_02, gmul_03, gmul_09, gmul_0B, gmul_0D, gmul_0E, xtime_xor]
      simp [BitVec.xor_assoc, xor_left_comm', BitVec.xor_comm]
    have c3 (a : Byte) : gmul a 0x0D ^^^ gmul a 0x09 ^^^ gmul (gmul a 0x03) 0x0E ^^^ gmul (gmul a 0x02) 0x0B = 0 := by
      simp only [gmul_02, gmul_03, gmul_09, gmul_0B, gmul_0D, gmul_0E, xtime_xor]
      simp [BitVec.xor_assoc, xor_left_comm', BitVec.xor_comm]
    rw [xor_transpose, c0, c1, c2, c3]
    simp
  congr 1
  · have c0 (a : Byte) : gmul (gmul a 0x02) 0x0B ^^^ gmul a 0x0D ^^^ gmul a 0x09 ^^^ gmul (gmul a 0x03) 0x0E = 0 := by
      simp only [gmul_02, gmul_03, gmul_09, gmul_0B, gmul_0D, gmul_0E, xtime_xor]
      simp [BitVec.xor_assoc, xor_left_comm', BitVec.xor_comm]
    have c1 (a : Byte) : gmul (gmul a 0x03) 0x0B ^^^ gmul (gmul a 0x02) 0x0D ^^^ gmul a 0x09 ^^^ gmul a 0x0E = 0 := by
      simp only [gmul_02, gmul_03, gmul_09, gmul_0B, gmul_0D, gmul_0E, xtime_xor]
      simp [BitVec.xor_assoc, xor_left_comm', BitVec.xor_comm]
    have c2 (a : Byte) : gmul a 0x0B ^^^ gmul (gmul a 0x03) 0x0D ^^^ gmul (gmul a 0x02) 0x09 ^^^ gmul a 0x0E = 0 := by
      simp only [gmul_02, gmul_03, gmul_09, gmul_0B, gmul_0D, gmul_0E, xtime_xor]
      simp [BitVec.xor_assoc, xor_left_comm', BitVec.xor_comm]
    have c3 (a : Byte) : gmul a 0x0B ^^^ gmul a 0x0D ^^^ gmul (gmul a 0x03) 0x09 ^^^ gmul (gmul a 0x02) 0x0E = a := by
      simp only [gmul_02, gmul_03, gmul_09, gmul_0B, gmul_0D, gmul_0E, xtime_xor]
      simp [BitVec.xor_assoc, xor_left_comm', BitVec.xor_comm]
    rw [xor_transpose, c0, c1, c2, c3]
    simp

theorem mixColumns_cons (a0 a1 a2 a3 : Byte) (s : List Byte) :
    mixColumns (invMixColumns (a0 :: a1 :: a2 :: a3 :: s)) = a0 :: a1 :: a2 :: a3 :: mixColumns (invMixColumns s) := by
  simp only [mixColumns, invMixColumns, gmul_xor]
  congr 1
  · have c0 (a : Byte) : gmul (gmul a 0x0E) 0x02 ^^^ gmul (gmul a 0x09) 0x03 ^^^ (gmul a 0x0D) ^^^ (gmul a 0x0B) = a := by
      simp only [gmul_02, gmul_03, gmul_09, gmul_0B, gmul_0D, gmul_0E, xtime_xor]
      simp [BitVec.xor_assoc, xor_left_comm', BitVec.xor_comm]
    have c1 (a : Byte) : gmul (gmul a 0x0B) 0x02 ^^^ gmul (gmul a 0x0E) 0x03 ^^^ (gmul a 0x09) ^^^ (gmul a 0x0D) = 0 := by
      simp only [gmul_02, gmul_03, gmul_09, gmul_0B, gmul_0D, gmul_0E, xtime_xor]
      simp [BitVec.xor_assoc, xor_left_comm', BitVec.xor_comm]
    have c2 (a : Byte) : gmul (gmul a 0x0D) 0x02 ^^^ gmul (gmul a 0x0B) 0x03 ^^^ (gmul a 0x0E) ^^^ (gmul a 0x09) = 0 := by
      simp only [gmul_02, gmul_03, gmul_09, gmul_0B, gmul_0D, gmul_0E, xtime_xor]
      simp [BitVec.xor_assoc, xor_left_comm', BitVec.xor_comm]
    have c3 (a : Byte) : gmul (gmul a 0x09) 0x02 ^^^ gmul (gmul a 0x0D) 0x03 ^^^ (gmul a 0x0B) ^^^ (gmul a 0x0E) = 0 := by
      simp only [gmul_02, gmul_03, gmul_09, gmul_0B, gmul_0D, gmul_0E, xtime_xor]
      simp [BitVec.xor_assoc, xor_left_comm', BitVec.xor_comm]
    rw [xor_transpose, c0, c1, c2, c3]
    simp
  congr 1
  · have c0 (a : Byte) : (gmul a 0x0E) ^^^ gmul (gmul a 0x09) 0x02 ^^^ gmul (gmul a 0x0D) 0x03 ^^^ (gmul a 0x0B) = 0 := by
      simp only [gmul_02, gmul_03, gmul_09, gmul_0B, gmul_0D, gmul_0E, xtime_xor]
      simp [BitVec.xor_assoc, xor_left_comm', BitVec.xor_comm]
    have c1 (a : Byte) : (gmul a 0x0B) ^^^ gmul (gmul a 0x0E) 0x02 ^^^ gmul (gmul a 0x09) 0x03 ^^^ (gmul a 0x0D) = a := by
      simp only [gmul_02, gmul_03, gmul_09, gmul_0B, gmul_0D, gmul_0E, xtime_xor]
      simp [BitVec.xor_assoc, xor_left_comm', BitVec.xor_comm]
    have c2 (a : Byte) : (gmul a 0x0D) ^^^ gmul (gmul a 0x0B) 0x02 ^^^ gmul (gmul a 0x0E) 0x03 ^^^ (gmul a 0x09) = 0 := by
      simp only [gmul_02, gmul_03, gmul_09, gmul_0B, gmul_0D, gmul_0E, xtime_xor]
      simp [BitVec.xor_assoc, xor_left_comm', BitVec.xor_comm]
    have c3 (a : Byte) : (gmul a 0x09) ^^^ gmul (gmul a 0x0D) 0x02 ^^^ gmul (gmul a 0x0B) 0x03 ^^^ (gmul a 0x0E) = 0 := by
      simp only [gmul_02, gmul_03, gmul_09, gmul_0B, gmul_0D, gmul_0E, xtime_xor]
      simp [BitVec.xor_assoc, xor_left_comm', BitVec.xor_comm]
    rw [xor_transpose, c0, c1, c2, c3]
    simp
  congr 1
  · have c0 (a : Byte) : (gmul a 0x0E) ^^^ (gmul a 0x09) ^^^ gmul (gmul a 0x0D) 0x02 ^^^ gmul (gmul a 0x0B) 0x03 = 0 := by
      simp only [gmul_02, gmul_03, gmul_09, gmul_0B, gmul_0D, gmul_0E, xtime_xor]
      simp [BitVec.xor_assoc, xor_left_comm', BitVec.xor_comm]
    have c1 (a : Byte) : (gmul a 0x0B) ^^^ (gmul a 0x0E) ^^^ gmul (gmul a 0x09) 0x02 ^^^ gmul (gmul a 0x0D) 0x03 = 0 := by
      simp only [gmul_02, gmul_03, gmul_09, gmul_0B, gmul_0D, gmul_0E, xtime_xor]
      simp [BitVec.xor_assoc, xor_left_comm', BitVec.xor_comm]
    have c2 (a : Byte) : (gmul a 0x0D) ^^^ (gmul a 0x0B) ^^^ gmul (gmul a 0x0E) 0x02 ^^^ gmul (gmul a 0x09) 0x03 = a := by
      simp only [gmul_02, gmul_03, gmul_09, gmul_0B, gmul_0D, gmul_0E, xtime_xor]
      simp [BitVec.xor_assoc, xor_left_comm', BitVec.xor_comm]
    have c3 (a : Byte) : (gmul a 0x09) ^^^ (gmul a 0x0D) ^^^ gmul (gmul a 0x0B) 0x02 ^^^ gmul (gmul a 0x0E) 0x03 = 0 := by
      simp only [gmul_02, gmul_03, gmul_09, gmul_0B, gmul_0D, gmul_0E, xtime_xor]
      simp [BitVec.xor_assoc, xor_left_comm', BitVec.xor_comm]
    rw [xor_transpose, c0, c1, c2, c3]
    simp
  congr 1
  · have c0 (a : Byte) : gmul (gmul a 0x0E) 0x03 ^^^ (gmul a 0x09) ^^^ (gmul a 0x0D) ^^^ gmul (gmul a 0x0B) 0x02 = 0 := by
      simp only [gmul_02, gmul_03, gmul_09, gmul_0B, gmul_0D, gmul_0E, xtime_xor]
      simp [BitVec.xor_assoc, xor_left_comm', BitVec.xor_comm]
    have c1 (a : Byte) : gmul (gmul a 0x0B) 0x03 ^^^ (gmul a 0x0E) ^^^ (gmul a 0x09) ^^^ gmul (gmul a 0x0D) 0x02 = 0 := by
      simp only [gmul_02, gmul_03, gmul_09, gmul_0B, gmul_0D, gmul_0E, xtime_xor]
      simp [BitVec.xor_assoc, xor_left_comm', BitVec.xor_comm]
    have c2 (a : Byte) : gmul (gmul a 0x0D) 0x03 ^^^ (gmul a 0x0B) ^^^ (gmul a 0x0E) ^^^ gmul (gmul a 0x09) 0x02 = 0 := by
      simp only [gmul_02, gmul_03, gmul_09, gmul_0B, gmul_0D, gmul_0E, xtime_xor]
      simp [BitVec.xor_assoc, xor_left_comm', BitVec.xor_comm]
    have c3 (a : Byte) : gmul (gmul a 0x09) 0x03 ^^^ (gmul a 0x0D) ^^^ (gmul a 0x0B) ^^^ gmul (gmul a 0x0E) 0x02 = a := by
      simp only [gmul_02, gmul_03, gmul_09, gmul_0B, gmul_0D, gmul_0E, xtime_xor]
      simp [BitVec.xor_assoc, xor_left_comm', BitVec.xor_comm]
    rw [xor_transpose, c0, c1, c2, c3]
    simp

theorem invMixColumns_mixColumns (s : List Byte) (h : s.length = 16) : invMixColumns (mixColumns s) = s := by
  obtain ⟨_, _, _, _, _, _, _, _, _, _, _, _, _, _, _, _, rfl⟩ := sixteen_bytes s h
  simp only [invMixColumns_cons]
  rfl

theorem mixColumns_invMixColumns (s : List Byte) (h : s.length = 16) : mixColumns (invMixColumns s) = s := by
  obtain ⟨_, _, _, _, _, _, _, _, _, _, _, _, _, _, _, _, rfl⟩ := sixteen_bytes s h
  simp only [mixColumns_cons]
  rfl

theorem addRoundKey_cancel (s rk : List Byte) (h : s.length ≤ rk.length) : addRoundKey (addRoundKey s rk) rk = s :=
  xorBytes_cancel s rk h

/-! ### Lengths -/

@[simp] theorem subBytes_length (s : List Byte) : (subBytes s).length = s.length := by simp [subBytes]
@[simp] theorem invSubBytes_length (s : List Byte) : (invSubBytes s).length = s.length := by simp [invSubBytes]
@[simp] theorem shiftRows_length (s : List Byte) : (shiftRows s).length = 16 := by simp [shiftRows]
@[simp] theorem invShiftRows_length (s : List Byte) : (invShiftRows s).length = 16 := by simp [invShiftRows]

theorem mixColumns_length (s : List Byte) (h : s.length = 16) : (mixColumns s).length = 16 := by
  obtain ⟨_, _, _, _, _, _, _, _, _, _, _, _, _, _, _, _, rfl⟩ := sixteen_bytes s h
  rfl

theorem invMixColumns_length (s : List Byte) (h : s.length = 16) : (invMixColumns s).length = 16 := by
  obtain ⟨_, _, _, _, _, _, _, _, _, _, _, _, _, _, _, _, rfl⟩ := sixteen_bytes s h
  rfl

theorem addRoundKey_length (s rk : List Byte) (hs : s.length = 16) (hr : rk.length = 16) :
    (addRoundKey s rk).length = 16 := by simp [addRoundKey, hs, hr]

theorem keyCore_length (j : Nat) (t : List Byte) (h : t.length = 4) : (keyCore j t).length = 4 := by
  match t, h with
  | [_, _, _, _], _ => rfl

/-- The key words are 4 + n words of 4 bytes (`40_cipher.md` R106). -/
theorem keyWords_shape (k : List Byte) (hk : k.length = 16) :
    ∀ n, (keyWords k n).length = 4 + n ∧ ∀ w ∈ keyWords k n, w.length = 4
  | 0 => by
    refine ⟨by simp [keyWords], fun w hw => ?_⟩
    exact mem_runs_length 4 4 k w (by omega) (by simpa [keyWords] using hw)
  | n + 1 => by
    obtain ⟨h1, h2⟩ := keyWords_shape k hk n
    refine ⟨by simp [keyWords, h1]; omega, fun w hw => ?_⟩
    rcases List.mem_cons.mp hw with rfl | hw
    · have g : ∀ i, i < 4 → ((keyWords k n).getD i []).length = 4 := by
        intro i hi
        rw [List.getD_eq_getElem _ _ (by omega)]
        exact h2 _ (List.getElem_mem _)
      rw [nextKeyWord, xorBytes_length, g 3 (by omega)]
      split
      · rw [keyCore_length _ _ (g 0 (by omega))]
        rfl
      · rw [g 0 (by omega)]
        rfl
    · exact h2 w hw

/-- Round keys 0 to 10 have 16 bytes (`40_cipher.md` R106). -/
theorem roundKey_length (k : List Byte) (hk : k.length = 16) (r : Nat) (hr : r ≤ 10) :
    (roundKey (keySchedule k) r).length = 16 := by
  obtain ⟨h1, h2⟩ := keyWords_shape k hk 40
  have hs : (keySchedule k).length = 44 := by simp [keySchedule, h1]
  rw [roundKey, flatten_length_of_forall 4]
  · simp [hs]
    omega
  · intro b hb
    refine h2 b ?_
    simpa [keySchedule] using List.mem_of_mem_drop (List.mem_of_mem_take hb)

theorem encRound_length (rk s : List Byte) (hr : rk.length = 16) : (encRound rk s).length = 16 :=
  addRoundKey_length _ _ (mixColumns_length _ (shiftRows_length _)) hr

theorem decRound_length (rk s : List Byte) (hr : rk.length = 16) : (decRound rk s).length = 16 :=
  invMixColumns_length _ (addRoundKey_length _ _ (by simp) hr)

theorem encRounds_length (k : List Byte) (hk : k.length = 16) (s : List Byte) (hs : s.length = 16) :
    ∀ n, n ≤ 10 → (encRounds (keySchedule k) n s).length = 16
  | 0, _ => hs
  | n + 1, h => encRound_length _ _ (roundKey_length k hk (n + 1) h)

theorem decRounds_length (k : List Byte) (hk : k.length = 16) :
    ∀ n, n ≤ 10 → ∀ s : List Byte, s.length = 16 → (decRounds (keySchedule k) n s).length = 16
  | 0, _, _, hs => hs
  | n + 1, h, _, _ => decRounds_length k hk n (by omega) _ (decRound_length _ _ (roundKey_length k hk (n + 1) h))

theorem aesEnc_length (b k : List Byte) (hk : k.length = 16) : (aesEnc b k).length = 16 :=
  addRoundKey_length _ _ (shiftRows_length _) (roundKey_length k hk 10 (by omega))

theorem aesDec_length (b k : List Byte) (hk : k.length = 16) : (aesDec b k).length = 16 :=
  addRoundKey_length _ _ (by simp) (roundKey_length k hk 0 (by omega))

/-! ### The pair of a block (`00_scope.md` R7) -/

@[simp] theorem onBlocks_length (f : BitVec 128 → BitVec 128 → BitVec 128) (b k : List Byte) :
    (onBlocks f b k).length = 16 := by simp [onBlocks]

/-- A law of 128-bit functions is one of 16-byte sequences. -/
theorem onBlocks_inverse (e d : BitVec 128 → BitVec 128 → BitVec 128) (h : ∀ b k, d (e b k) k = b) (b k : List Byte)
    (hb : b.length = 16) : onBlocks d (onBlocks e b k) k = b := by
  have hlt := fromBE_lt b
  have hx (x : BitVec 128) : BitVec.ofNat 128 (fromBE (beBytes 16 x.toNat)) = x := by
    rw [fromBE_beBytes, Nat.mod_eq_of_lt (by simpa using x.isLt), BitVec.ofNat_toNat, BitVec.setWidth_eq]
  rw [onBlocks, onBlocks, hx, h, BitVec.toNat_ofNat, Nat.mod_eq_of_lt (by rw [hb] at hlt; simpa using hlt), ← hb,
    beBytes_fromBE]

/-- `E` of a block's pair gives a block. -/
theorem cipherOf_enc_length (p : Params) (b k : List Byte) (hk : k.length = 16) : ((cipherOf p).enc b k).length = 16 := by
  unfold cipherOf
  cases p.cipher
  · exact aesEnc_length b k hk
  · exact onBlocks_length _ b k

/-- `D` of a block's pair gives a block. -/
theorem cipherOf_dec_length (p : Params) (b k : List Byte) (hk : k.length = 16) : ((cipherOf p).dec b k).length = 16 := by
  unfold cipherOf
  cases p.cipher
  · exact aesDec_length b k hk
  · exact onBlocks_length _ b k

/-! ### Round against round (`40_cipher.md` R110, R111) -/

/-- A round of the inverse cipher undoes a round of the cipher, between the two S-box layers. -/
theorem decRound_encRound (rk x : List Byte) (hr : rk.length = 16) :
    decRound rk (shiftRows (subBytes (encRound rk x))) = shiftRows (subBytes x) := by
  have h1 : (encRound rk x).length = 16 := encRound_length rk x hr
  have hm : (mixColumns (shiftRows (subBytes x))).length = 16 := mixColumns_length _ (shiftRows_length _)
  rw [decRound, invShiftRows_shiftRows _ (by simp [h1]), invSubBytes_subBytes, encRound,
    addRoundKey_cancel _ _ (by omega), invMixColumns_mixColumns _ (shiftRows_length _)]

/-- A round of the cipher undoes a round of the inverse cipher, between the two S-box layers. -/
theorem encRound_decRound (rk x : List Byte) (hr : rk.length = 16) :
    encRound rk (invSubBytes (invShiftRows (decRound rk x))) = invSubBytes (invShiftRows x) := by
  have hd : (decRound rk x).length = 16 := decRound_length rk x hr
  have ha : (addRoundKey (invSubBytes (invShiftRows x)) rk).length = 16 := addRoundKey_length _ _ (by simp) hr
  rw [encRound, subBytes_invSubBytes, shiftRows_invShiftRows _ hd, decRound, mixColumns_invMixColumns _ ha,
    addRoundKey_cancel _ _ (by simp [hr])]

end Sys2Proof.Machine
end

