-- ==== Sys2Proof/Laws/Memory.lean ====
section
/-! SUPPORT. The laws of the buffer memory: read after write, the canonical form, and byte sequences. -/

namespace Sys2Proof.Machine

/-- Reading after writing one byte. -/
@[simp] theorem Memory.read_write (m : Memory) (a x : Nat) (b : Byte) :
    (m.write a b).read x = if x = a then some b else m.read x := by
  induction m with
  | nil =>
    by_cases h : x = a
    · simp [Memory.write, Memory.read, h]
    · simp [Memory.write, Memory.read, h, Ne.symm h]
  | cons c m ih =>
    obtain ⟨y, v⟩ := c
    by_cases hlt : a < y
    · by_cases hx : x = a
      · simp [Memory.write, Memory.read, hlt, hx]
      · simp [Memory.write, Memory.read, hlt, hx, Ne.symm hx]
    · by_cases hay : a = y
      · subst hay
        by_cases hx : x = a
        · simp [Memory.write, Memory.read, hx]
        · simp [Memory.write, Memory.read, hx, Ne.symm hx]
      · by_cases hyx : y = x
        · subst hyx
          simp [Memory.write, Memory.read, hlt, hay, Ne.symm hay]
        · simp [Memory.write, Memory.read, hlt, hay, hyx, ih]

/-- A cell of a memory after a write is the written one or an old one. -/
theorem Memory.mem_write (m : Memory) (a : Nat) (b : Byte) (c : Host.Cell) (h : c ∈ m.write a b) :
    c = (a, b) ∨ c ∈ m := by
  induction m with
  | nil => simpa [Memory.write] using h
  | cons d m ih =>
    obtain ⟨y, v⟩ := d
    simp only [Memory.write] at h
    split at h
    · simpa using h
    · split at h
      · rcases List.mem_cons.mp h with h | h
        · exact .inl h
        · exact .inr (List.mem_cons_of_mem _ h)
      · rcases List.mem_cons.mp h with h | h
        · exact .inr (h ▸ List.mem_cons_self)
        · exact (ih h).imp id (List.mem_cons_of_mem _)

/-- A write keeps the canonical form. -/
theorem Memory.write_wf (m : Memory) (a : Nat) (b : Byte) (h : m.wf) : (m.write a b).wf := by
  induction m with
  | nil => simp [Memory.write, Memory.wf]
  | cons d m ih =>
    obtain ⟨y, v⟩ := d
    obtain ⟨h1, h2⟩ := List.pairwise_cons.mp h
    simp only [Memory.write]
    split
    · refine List.pairwise_cons.mpr ⟨fun c hc => ?_, h⟩
      rcases List.mem_cons.mp hc with rfl | hc
      · assumption
      · exact Nat.lt_trans ‹_› (h1 c hc)
    · split
      · rename_i hay
        subst hay
        exact List.pairwise_cons.mpr ⟨h1, h2⟩
      · refine List.pairwise_cons.mpr ⟨fun c hc => ?_, ih h2⟩
        rcases Memory.mem_write m a b c hc with rfl | hc
        · show y < a
          omega
        · exact h1 c hc

/-- Reading after writing a sequence: the sequence inside, as before outside. -/
theorem Memory.read_writeBytes (d : List Byte) : ∀ (m : Memory) (a x : Nat),
    (m.writeBytes a d).read x = if a ≤ x ∧ x < a + d.length then d[x - a]? else m.read x := by
  induction d with
  | nil => intro m a x; simp [Memory.writeBytes]
  | cons b d ih =>
    intro m a x
    simp only [Memory.writeBytes, ih, Memory.read_write, List.length_cons]
    by_cases hxa : x = a
    · subst hxa; simp
    · by_cases hin : a + 1 ≤ x ∧ x < a + 1 + d.length
      · have hs : x - a = (x - (a + 1)) + 1 := by omega
        rw [if_pos hin, if_pos (by omega), hs, List.getElem?_cons_succ]
      · rw [if_neg hin, if_neg hxa, if_neg (by omega)]

/-- The written bytes read back. -/
theorem Memory.read_writeBytes_inside (m : Memory) (a : Nat) (d : List Byte) (i : Nat) (h : i < d.length) :
    (m.writeBytes a d).read (a + i) = d[i]? := by
  rw [Memory.read_writeBytes, if_pos (by omega), Nat.add_sub_cancel_left]

/-- A byte outside the written ones reads as before. -/
theorem Memory.read_writeBytes_outside (m : Memory) (a : Nat) (d : List Byte) (x : Nat)
    (h : x < a ∨ a + d.length ≤ x) : (m.writeBytes a d).read x = m.read x := by
  rw [Memory.read_writeBytes, if_neg (by omega)]

theorem Memory.writeBytes_wf (d : List Byte) : ∀ (m : Memory) (a : Nat), m.wf → (m.writeBytes a d).wf := by
  induction d with
  | nil => intro m a h; exact h
  | cons b d ih => intro m a h; exact ih _ _ (Memory.write_wf m a b h)

/-- A cell after a write of a sequence is an old one or lies inside. -/
theorem Memory.mem_writeBytes (d : List Byte) : ∀ (m : Memory) (a : Nat) (c : Host.Cell),
    c ∈ m.writeBytes a d → (a ≤ c.1 ∧ c.1 < a + d.length) ∨ c ∈ m := by
  induction d with
  | nil => intro m a c h; exact .inr h
  | cons b d ih =>
    intro m a c h
    rcases ih _ _ c h with ⟨h1, h2⟩ | h
    · exact .inl ⟨by omega, by simp only [List.length_cons]; omega⟩
    · rcases Memory.mem_write m a b c h with rfl | h
      · exact .inl ⟨Nat.le_refl _, by simp⟩
      · exact .inr h

theorem Memory.writeAll_wf : ∀ (w : List (Nat × List Byte)) (m : Memory), m.wf → (m.writeAll w).wf
  | [], _, h => h
  | (a, d) :: w, m, h => Memory.writeAll_wf w _ (Memory.writeBytes_wf d m a h)

theorem Memory.mem_writeAll : ∀ (w : List (Nat × List Byte)) (m : Memory) (c : Host.Cell), c ∈ m.writeAll w →
    (∃ p ∈ w, p.1 ≤ c.1 ∧ c.1 < p.1 + p.2.length) ∨ c ∈ m
  | [], _, _, h => .inr h
  | (a, d) :: w, m, c, h => by
    rcases Memory.mem_writeAll w _ c h with ⟨p, hp, h⟩ | h
    · exact .inl ⟨p, List.mem_cons_of_mem _ hp, h⟩
    · rcases Memory.mem_writeBytes d m a c h with h | h
      · exact .inl ⟨(a, d), List.mem_cons_self, h⟩
      · exact .inr h

/-- `MemRead` answers `d` iff every byte is written and they are `d`. -/
theorem Memory.readBytes_ok_iff (m : Memory) : ∀ (n a : Nat) (d : List Byte),
    m.readBytes a n = .ok d ↔ d.length = n ∧ ∀ i, i < d.length → m.read (a + i) = d[i]? := by
  intro n
  induction n with
  | zero =>
    intro a d
    cases d <;> simp [Memory.readBytes]
  | succ n ih =>
    intro a d
    rw [Memory.readBytes]
    cases d with
    | nil =>
      cases h0 : m.read a with
      | none => simp
      | some b => cases h1 : m.readBytes (a + 1) n <;> simp
    | cons x d =>
      have key : (∀ i, i < (x :: d).length → m.read (a + i) = (x :: d)[i]?) ↔
          m.read a = some x ∧ ∀ i, i < d.length → m.read (a + 1 + i) = d[i]? := by
        constructor
        · intro h
          refine ⟨by simpa using h 0 (by simp), fun i hi => ?_⟩
          have := h (i + 1) (by simpa using hi)
          simpa [Nat.add_assoc, Nat.add_comm 1 i] using this
        · rintro ⟨h0, h⟩ i hi
          cases i with
          | zero => simpa using h0
          | succ i =>
            have := h i (by simpa using hi)
            simpa [Nat.add_assoc, Nat.add_comm 1 i] using this
      rw [key]
      cases h0 : m.read a with
      | none => simp
      | some b =>
        cases h1 : m.readBytes (a + 1) n with
        | error e =>
          have := ih (a + 1) d
          simp only [h1, reduceCtorEq, false_iff] at this
          simp only [reduceCtorEq, List.length_cons, Nat.add_right_cancel_iff, Option.some.injEq, false_iff]
          tauto
        | ok s =>
          have := ih (a + 1) d
          simp only [h1, Except.ok.injEq] at this
          simp only [Except.ok.injEq, List.cons.injEq, List.length_cons, Nat.add_right_cancel_iff, Option.some.injEq, this]
          tauto

/-- `MemRead` stops at the first unwritten byte. -/
theorem Memory.readBytes_error_iff (m : Memory) : ∀ (n a e : Nat),
    m.readBytes a n = .error e ↔
      ∃ j, j < n ∧ e = a + j ∧ m.read (a + j) = none ∧ ∀ l, l < j → m.read (a + l) ≠ none := by
  intro n
  induction n with
  | zero => intro a e; simp [Memory.readBytes]
  | succ n ih =>
    intro a e
    rw [Memory.readBytes]
    cases h0 : m.read a with
    | none =>
      simp only [Except.error.injEq]
      constructor
      · rintro rfl
        exact ⟨0, by omega, rfl, h0, by omega⟩
      · rintro ⟨j, -, rfl, -, h⟩
        cases j with
        | zero => rfl
        | succ j => exact absurd h0 (h 0 (by omega))
    | some b =>
      have step : (∃ j, j < n + 1 ∧ e = a + j ∧ m.read (a + j) = none ∧ ∀ l, l < j → m.read (a + l) ≠ none) ↔
          ∃ j, j < n ∧ e = a + 1 + j ∧ m.read (a + 1 + j) = none ∧ ∀ l, l < j → m.read (a + 1 + l) ≠ none := by
        constructor
        · rintro ⟨j, hj, rfl, hn, h⟩
          cases j with
          | zero => simp [h0] at hn
          | succ j =>
            refine ⟨j, by omega, by omega, by rwa [Nat.add_assoc, Nat.add_comm 1 j], fun l hl => ?_⟩
            rw [Nat.add_assoc, Nat.add_comm 1 l]
            exact h (l + 1) (by omega)
        · rintro ⟨j, hj, rfl, hn, h⟩
          refine ⟨j + 1, by omega, by omega, by rwa [Nat.add_assoc, Nat.add_comm 1 j] at hn, fun l hl => ?_⟩
          cases l with
          | zero => simp [h0]
          | succ l =>
            have := h l (by omega)
            rwa [Nat.add_assoc, Nat.add_comm 1 l] at this
      rw [step, ← ih (a + 1) e]
      cases h1 : m.readBytes (a + 1) n <;> simp

end Sys2Proof.Machine
end

