-- ==== Sys2Proof/Laws/State.lean ====
section
/-! SUPPORT. What each named update of the state leaves in each field, one lemma a field, and the updates of `STATUS`. -/

namespace Sys2Proof.Machine

@[simp] theorem State.complete_par (s : State) (e : Err) : (s.complete e).par = s.par := rfl
@[simp] theorem State.complete_cmd (s : State) (e : Err) : (s.complete e).cmd = s.cmd := rfl
@[simp] theorem State.complete_status (s : State) (e : Err) : (s.complete e).status = s.status.completed e := rfl
@[simp] theorem State.complete_blenBits (s : State) (e : Err) : (s.complete e).blenBits = s.blenBits := rfl
@[simp] theorem State.complete_ops (s : State) (e : Err) : (s.complete e).ops = s.ops := rfl
@[simp] theorem State.complete_res0Len (s : State) (e : Err) : (s.complete e).res0Len = s.res0Len := rfl
@[simp] theorem State.complete_res1Len (s : State) (e : Err) : (s.complete e).res1Len = s.res1Len := rfl
@[simp] theorem State.complete_ciphCnt (s : State) (e : Err) : (s.complete e).ciphCnt = s.ciphCnt := rfl
@[simp] theorem State.complete_compCnt (s : State) (e : Err) : (s.complete e).compCnt = s.compCnt := rfl
@[simp] theorem State.complete_latch (s : State) (e : Err) : (s.complete e).latch = s.latch := rfl
@[simp] theorem State.complete_buf (s : State) (e : Err) : (s.complete e).buf = s.buf := rfl
@[simp] theorem State.complete_turns (s : State) (e : Err) : (s.complete e).turns = s.turns := rfl
@[simp] theorem State.complete_resp (s : State) (e : Err) : (s.complete e).resp = s.resp := rfl
@[simp] theorem State.complete_draws (s : State) (e : Err) : (s.complete e).draws = s.draws := rfl

@[simp] theorem State.commit_par (s : State) (e : Effect) : (s.commit e).par = s.par := rfl
@[simp] theorem State.commit_cmd (s : State) (e : Effect) : (s.commit e).cmd = s.cmd := rfl
@[simp] theorem State.commit_status (s : State) (e : Effect) : (s.commit e).status = s.status := rfl
@[simp] theorem State.commit_blenBits (s : State) (e : Effect) : (s.commit e).blenBits = s.blenBits := rfl
@[simp] theorem State.commit_ops (s : State) (e : Effect) : (s.commit e).ops = s.ops := rfl
@[simp] theorem State.commit_res0Len (s : State) (e : Effect) : (s.commit e).res0Len = BitVec.ofNat 32 e.res0 := rfl
@[simp] theorem State.commit_res1Len (s : State) (e : Effect) : (s.commit e).res1Len = BitVec.ofNat 32 e.res1 := rfl
@[simp] theorem State.commit_ciphCnt (s : State) (e : Effect) : (s.commit e).ciphCnt = s.ciphCnt + BitVec.ofNat 32 e.cc := rfl
@[simp] theorem State.commit_compCnt (s : State) (e : Effect) : (s.commit e).compCnt = s.compCnt + BitVec.ofNat 32 e.hc := rfl
@[simp] theorem State.commit_latch (s : State) (e : Effect) : (s.commit e).latch = e.newL := rfl
@[simp] theorem State.commit_buf (s : State) (e : Effect) : (s.commit e).buf = s.buf.writeAll e.pending := rfl
@[simp] theorem State.commit_turns (s : State) (e : Effect) : (s.commit e).turns = s.turns := rfl
@[simp] theorem State.commit_resp (s : State) (e : Effect) : (s.commit e).resp = s.resp := rfl
@[simp] theorem State.commit_draws (s : State) (e : Effect) : (s.commit e).draws = s.draws := rfl

@[simp] theorem State.answer_par (s : State) (r : Resp) : (s.answer r).par = s.par := rfl
@[simp] theorem State.answer_cmd (s : State) (r : Resp) : (s.answer r).cmd = s.cmd := rfl
@[simp] theorem State.answer_status (s : State) (r : Resp) : (s.answer r).status = s.status := rfl
@[simp] theorem State.answer_blenBits (s : State) (r : Resp) : (s.answer r).blenBits = s.blenBits := rfl
@[simp] theorem State.answer_ops (s : State) (r : Resp) : (s.answer r).ops = s.ops := rfl
@[simp] theorem State.answer_res0Len (s : State) (r : Resp) : (s.answer r).res0Len = s.res0Len := rfl
@[simp] theorem State.answer_res1Len (s : State) (r : Resp) : (s.answer r).res1Len = s.res1Len := rfl
@[simp] theorem State.answer_ciphCnt (s : State) (r : Resp) : (s.answer r).ciphCnt = s.ciphCnt := rfl
@[simp] theorem State.answer_compCnt (s : State) (r : Resp) : (s.answer r).compCnt = s.compCnt := rfl
@[simp] theorem State.answer_latch (s : State) (r : Resp) : (s.answer r).latch = s.latch := rfl
@[simp] theorem State.answer_buf (s : State) (r : Resp) : (s.answer r).buf = s.buf := rfl
@[simp] theorem State.answer_turns (s : State) (r : Resp) : (s.answer r).turns = s.turns := rfl
@[simp] theorem State.answer_resp (s : State) (r : Resp) : (s.answer r).resp = r := rfl
@[simp] theorem State.answer_draws (s : State) (r : Resp) : (s.answer r).draws = s.draws := rfl

@[simp] theorem State.answerDraw_par (s : State) (w : Nat) : (s.answerDraw w).par = s.par := rfl
@[simp] theorem State.answerDraw_cmd (s : State) (w : Nat) : (s.answerDraw w).cmd = s.cmd := rfl
@[simp] theorem State.answerDraw_status (s : State) (w : Nat) : (s.answerDraw w).status = s.status := rfl
@[simp] theorem State.answerDraw_blenBits (s : State) (w : Nat) : (s.answerDraw w).blenBits = s.blenBits := rfl
@[simp] theorem State.answerDraw_ops (s : State) (w : Nat) : (s.answerDraw w).ops = s.ops := rfl
@[simp] theorem State.answerDraw_res0Len (s : State) (w : Nat) : (s.answerDraw w).res0Len = s.res0Len := rfl
@[simp] theorem State.answerDraw_res1Len (s : State) (w : Nat) : (s.answerDraw w).res1Len = s.res1Len := rfl
@[simp] theorem State.answerDraw_ciphCnt (s : State) (w : Nat) : (s.answerDraw w).ciphCnt = s.ciphCnt := rfl
@[simp] theorem State.answerDraw_compCnt (s : State) (w : Nat) : (s.answerDraw w).compCnt = s.compCnt := rfl
@[simp] theorem State.answerDraw_latch (s : State) (w : Nat) : (s.answerDraw w).latch = s.latch := rfl
@[simp] theorem State.answerDraw_buf (s : State) (w : Nat) : (s.answerDraw w).buf = s.buf := rfl
@[simp] theorem State.answerDraw_turns (s : State) (w : Nat) : (s.answerDraw w).turns = s.turns := rfl
@[simp] theorem State.answerDraw_resp (s : State) (w : Nat) : (s.answerDraw w).resp = .data w (BitVec.ofNat 32 ((Config.draw s.draws).toNat % 2 ^ (8 * w))) := rfl
@[simp] theorem State.answerDraw_draws (s : State) (w : Nat) : (s.answerDraw w).draws = s.draws + 1 := rfl

@[simp] theorem State.refuse_par (s : State) : (s.refuse).par = s.par := rfl
@[simp] theorem State.refuse_cmd (s : State) : (s.refuse).cmd = s.cmd := rfl
@[simp] theorem State.refuse_status (s : State) : (s.refuse).status = s.status.refused := rfl
@[simp] theorem State.refuse_blenBits (s : State) : (s.refuse).blenBits = s.blenBits := rfl
@[simp] theorem State.refuse_ops (s : State) : (s.refuse).ops = s.ops := rfl
@[simp] theorem State.refuse_res0Len (s : State) : (s.refuse).res0Len = s.res0Len := rfl
@[simp] theorem State.refuse_res1Len (s : State) : (s.refuse).res1Len = s.res1Len := rfl
@[simp] theorem State.refuse_ciphCnt (s : State) : (s.refuse).ciphCnt = s.ciphCnt := rfl
@[simp] theorem State.refuse_compCnt (s : State) : (s.refuse).compCnt = s.compCnt := rfl
@[simp] theorem State.refuse_latch (s : State) : (s.refuse).latch = s.latch := rfl
@[simp] theorem State.refuse_buf (s : State) : (s.refuse).buf = s.buf := rfl
@[simp] theorem State.refuse_turns (s : State) : (s.refuse).turns = s.turns := rfl
@[simp] theorem State.refuse_resp (s : State) : (s.refuse).resp = s.resp := rfl
@[simp] theorem State.refuse_draws (s : State) : (s.refuse).draws = s.draws := rfl

@[simp] theorem State.issue_par (s : State) (v : Word) : (s.issue v).par = s.par := rfl
@[simp] theorem State.issue_cmd (s : State) (v : Word) : (s.issue v).cmd = v := rfl
@[simp] theorem State.issue_status (s : State) (v : Word) : (s.issue v).status = s.status.issued := rfl
@[simp] theorem State.issue_blenBits (s : State) (v : Word) : (s.issue v).blenBits = s.blenBits := rfl
@[simp] theorem State.issue_ops (s : State) (v : Word) : (s.issue v).ops = s.ops := rfl
@[simp] theorem State.issue_res0Len (s : State) (v : Word) : (s.issue v).res0Len = s.res0Len := rfl
@[simp] theorem State.issue_res1Len (s : State) (v : Word) : (s.issue v).res1Len = s.res1Len := rfl
@[simp] theorem State.issue_ciphCnt (s : State) (v : Word) : (s.issue v).ciphCnt = s.ciphCnt := rfl
@[simp] theorem State.issue_compCnt (s : State) (v : Word) : (s.issue v).compCnt = s.compCnt := rfl
@[simp] theorem State.issue_latch (s : State) (v : Word) : (s.issue v).latch = s.latch := rfl
@[simp] theorem State.issue_buf (s : State) (v : Word) : (s.issue v).buf = s.buf := rfl
@[simp] theorem State.issue_turns (s : State) (v : Word) : (s.issue v).turns = s.turns := rfl
@[simp] theorem State.issue_resp (s : State) (v : Word) : (s.issue v).resp = s.resp := rfl
@[simp] theorem State.issue_draws (s : State) (v : Word) : (s.issue v).draws = s.draws := rfl

@[simp] theorem State.softReset_par (s : State) : (s.softReset).par = s.par := rfl
@[simp] theorem State.softReset_cmd (s : State) : (s.softReset).cmd = 0 := rfl
@[simp] theorem State.softReset_status (s : State) : (s.softReset).status = Status.reset := rfl
@[simp] theorem State.softReset_blenBits (s : State) : (s.softReset).blenBits = false := rfl
@[simp] theorem State.softReset_ops (s : State) : (s.softReset).ops = OperandRegs.reset := rfl
@[simp] theorem State.softReset_res0Len (s : State) : (s.softReset).res0Len = 0 := rfl
@[simp] theorem State.softReset_res1Len (s : State) : (s.softReset).res1Len = 0 := rfl
@[simp] theorem State.softReset_ciphCnt (s : State) : (s.softReset).ciphCnt = 0 := rfl
@[simp] theorem State.softReset_compCnt (s : State) : (s.softReset).compCnt = 0 := rfl
@[simp] theorem State.softReset_latch (s : State) : (s.softReset).latch = Latch.reset := rfl
@[simp] theorem State.softReset_buf (s : State) : (s.softReset).buf = s.buf := rfl
@[simp] theorem State.softReset_turns (s : State) : (s.softReset).turns = s.turns := rfl
@[simp] theorem State.softReset_resp (s : State) : (s.softReset).resp = s.resp := rfl
@[simp] theorem State.softReset_draws (s : State) : (s.softReset).draws = s.draws := rfl

@[simp] theorem State.hardReset_par (s : State) : (s.hardReset).par = s.par := rfl
@[simp] theorem State.hardReset_cmd (s : State) : (s.hardReset).cmd = 0 := rfl
@[simp] theorem State.hardReset_status (s : State) : (s.hardReset).status = Status.reset := rfl
@[simp] theorem State.hardReset_blenBits (s : State) : (s.hardReset).blenBits = false := rfl
@[simp] theorem State.hardReset_ops (s : State) : (s.hardReset).ops = OperandRegs.reset := rfl
@[simp] theorem State.hardReset_res0Len (s : State) : (s.hardReset).res0Len = 0 := rfl
@[simp] theorem State.hardReset_res1Len (s : State) : (s.hardReset).res1Len = 0 := rfl
@[simp] theorem State.hardReset_ciphCnt (s : State) : (s.hardReset).ciphCnt = 0 := rfl
@[simp] theorem State.hardReset_compCnt (s : State) : (s.hardReset).compCnt = 0 := rfl
@[simp] theorem State.hardReset_latch (s : State) : (s.hardReset).latch = Latch.reset := rfl
@[simp] theorem State.hardReset_buf (s : State) : (s.hardReset).buf = [] := rfl
@[simp] theorem State.hardReset_turns (s : State) : (s.hardReset).turns = s.turns := rfl
@[simp] theorem State.hardReset_resp (s : State) : (s.hardReset).resp = .none := rfl
@[simp] theorem State.hardReset_draws (s : State) : (s.hardReset).draws = s.draws := rfl

@[simp] theorem Status.completed_busy (s : Status) (e : Err) : (s.completed e).busy = false := rfl
@[simp] theorem Status.completed_done (s : Status) (e : Err) : (s.completed e).done = true := rfl
@[simp] theorem Status.completed_err (s : Status) (e : Err) : (s.completed e).err = e := rfl
@[simp] theorem Status.completed_sticky (s : Status) (e : Err) : (s.completed e).sticky = (s.sticky || decide (e ≠ .ok)) := rfl
@[simp] theorem Status.completed_ovr (s : Status) (e : Err) : (s.completed e).ovr = s.ovr := rfl

@[simp] theorem Status.issued_busy (s : Status) : (s.issued).busy = true := rfl
@[simp] theorem Status.issued_done (s : Status) : (s.issued).done = false := rfl
@[simp] theorem Status.issued_err (s : Status) : (s.issued).err = s.err := rfl
@[simp] theorem Status.issued_sticky (s : Status) : (s.issued).sticky = s.sticky := rfl
@[simp] theorem Status.issued_ovr (s : Status) : (s.issued).ovr = s.ovr := rfl

@[simp] theorem Status.refused_busy (s : Status) : (s.refused).busy = s.busy := rfl
@[simp] theorem Status.refused_done (s : Status) : (s.refused).done = s.done := rfl
@[simp] theorem Status.refused_err (s : Status) : (s.refused).err = s.err := rfl
@[simp] theorem Status.refused_sticky (s : Status) : (s.refused).sticky = s.sticky := rfl
@[simp] theorem Status.refused_ovr (s : Status) : (s.refused).ovr = true := rfl

@[simp] theorem Status.hostWrite_busy (s : Status) (v : Word) : (s.hostWrite v).busy = s.busy := rfl
@[simp] theorem Status.hostWrite_done (s : Status) (v : Word) : (s.hostWrite v).done = (s.done && !v.getLsbD 1) := rfl
@[simp] theorem Status.hostWrite_err (s : Status) (v : Word) : (s.hostWrite v).err = s.err := rfl
@[simp] theorem Status.hostWrite_sticky (s : Status) (v : Word) : (s.hostWrite v).sticky = (s.sticky && !v.getLsbD 8) := rfl
@[simp] theorem Status.hostWrite_ovr (s : Status) (v : Word) : (s.hostWrite v).ovr = (s.ovr && !v.getLsbD 9) := rfl

end Sys2Proof.Machine
end

