-- ==== Sys2Proof/Laws/Ops.lean ====
section
/-! SUPPORT. What the shared operations can do: fetching a source, the checks, and the end of a command. -/

namespace Sys2Proof.Machine

/-! ### Sequencing a command's pseudocode -/

theorem bind_ok_iff {α β : Type} (x : Except Stop α) (f : α → Except Stop β) (b : β) :
    (x >>= f) = .ok b ↔ ∃ a, x = .ok a ∧ f a = .ok b := by
  cases x with
  | error e => simp [bind, Except.bind]
  | ok a => simp [bind, Except.bind]

theorem bind_error_iff {α β : Type} (x : Except Stop α) (f : α → Except Stop β) (e : Stop) :
    (x >>= f) = .error e ↔ x = .error e ∨ ∃ a, x = .ok a ∧ f a = .error e := by
  cases x with
  | error e' => simp [bind, Except.bind]
  | ok a => simp [bind, Except.bind]

@[simp] theorem ok_bind {α β : Type} (a : α) (f : α → Except Stop β) : ((Except.ok a : Except Stop α) >>= f) = f a := rfl

@[simp] theorem error_bind {α β : Type} (e : Stop) (f : α → Except Stop β) :
    ((Except.error e : Except Stop α) >>= f) = .error e := rfl

@[simp] theorem ok_map {α β : Type} (a : α) (f : α → β) : f <$> (Except.ok a : Except Stop α) = .ok (f a) := rfl

@[simp] theorem error_map {α β : Type} (e : Stop) (f : α → β) : f <$> (Except.error e : Except Stop α) = .error e := rfl

@[simp] theorem need_true : need true = .ok () := rfl

@[simp] theorem need_false : need false = .error (.raise .validation) := rfl

@[simp] theorem check_true (e : Err) : check true e = .ok () := rfl

@[simp] theorem check_false (e : Err) : check false e = .error (.raise e) := rfl

theorem need_ok_iff (c : Bool) (u : Unit) : need c = .ok u ↔ c = true := by cases c <;> simp

theorem need_error_iff (c : Bool) (e : Stop) : need c = .error e ↔ c = false ∧ e = .raise .validation := by
  cases c <;> simp [eq_comm]

theorem check_ok_iff (c : Bool) (e : Err) (u : Unit) : check c e = .ok u ↔ c = true := by cases c <;> simp

theorem check_error_iff (c : Bool) (e : Err) (x : Stop) : check c e = .error x ↔ c = false ∧ x = .raise e := by
  cases c <;> simp [eq_comm]

/-! ### Fetching a source region -/

/-- A source is fetched iff its region is in range and every byte of it is written; it is those bytes. -/
theorem source_ok_iff (s : State) (k : Src) (d : List Byte) :
    source s k = .ok d ↔
      (s.ops.srcAddr k).toNat + (s.ops.srcLen k).toNat ≤ s.par.bufBytes ∧ d.length = (s.ops.srcLen k).toNat ∧
        ∀ i, i < d.length → s.buf.read ((s.ops.srcAddr k).toNat + i) = d[i]? := by
  rw [← Memory.readBytes_ok_iff]
  unfold source inRange
  by_cases h : (s.ops.srcAddr k).toNat + (s.ops.srcLen k).toNat ≤ s.par.bufBytes
  · cases hr : s.buf.readBytes (s.ops.srcAddr k).toNat (s.ops.srcLen k).toNat <;> simp [h]
  · simp [h]

/-- A source raises only RANGE, and does so iff its region is out of range. -/
theorem source_raise_iff (s : State) (k : Src) (e : Err) :
    source s k = .error (.raise e) ↔
      e = .range ∧ ¬ (s.ops.srcAddr k).toNat + (s.ops.srcLen k).toNat ≤ s.par.bufBytes := by
  unfold source inRange
  by_cases h : (s.ops.srcAddr k).toNat + (s.ops.srcLen k).toNat ≤ s.par.bufBytes
  · cases hr : s.buf.readBytes (s.ops.srcAddr k).toNat (s.ops.srcLen k).toNat <;> simp [h]
  · simp [h, eq_comm]

/-- A source is a model fault iff its region is in range and covers an unwritten byte, at the first one. -/
theorem source_fault_iff (s : State) (k : Src) (f : Fault) :
    source s k = .error (.fault f) ↔
      (s.ops.srcAddr k).toNat + (s.ops.srcLen k).toNat ≤ s.par.bufBytes ∧
        ∃ j, j < (s.ops.srcLen k).toNat ∧ f = .unwrittenByte ((s.ops.srcAddr k).toNat + j) ∧
          s.buf.read ((s.ops.srcAddr k).toNat + j) = none ∧
          ∀ l, l < j → s.buf.read ((s.ops.srcAddr k).toNat + l) ≠ none := by
  unfold source inRange
  by_cases h : (s.ops.srcAddr k).toNat + (s.ops.srcLen k).toNat ≤ s.par.bufBytes
  · cases hr : s.buf.readBytes (s.ops.srcAddr k).toNat (s.ops.srcLen k).toNat with
    | ok d =>
      simp only [h, decide_true, if_true, reduceCtorEq, true_and, false_iff]
      rintro ⟨j, hj, rfl, hn, hl⟩
      have := (Memory.readBytes_error_iff s.buf _ _ _).mpr ⟨j, hj, rfl, hn, hl⟩
      rw [hr] at this
      cases this
    | error a =>
      obtain ⟨j, hj, rfl, hn, hl⟩ := (Memory.readBytes_error_iff s.buf _ _ _).mp hr
      simp only [h, decide_true, if_true, Except.error.injEq, Stop.fault.injEq, true_and]
      constructor
      · rintro rfl
        exact ⟨j, hj, rfl, hn, hl⟩
      · rintro ⟨i, hi, rfl, hn', hl'⟩
        have : i = j := by
          rcases Nat.lt_trichotomy i j with h | h | h
          · exact absurd hn' (hl i h)
          · exact h
          · exact absurd hn (hl' j h)
        rw [this]
  · simp [h]

/-! ### The end of a command -/

/-- Every command is one `perform`. -/
theorem exec_is_perform (i : Instr) (s : State) : ∃ body, exec i s = perform s body := by
  cases i with
  | nop => exact ⟨_, by rw [exec, execNop]⟩
  | blkEnc => exact ⟨_, by rw [exec, execBlkEnc]⟩
  | blkDec => exact ⟨_, by rw [exec, execBlkDec]⟩
  | ecbEnc => exact ⟨_, by rw [exec, execEcbEnc]⟩
  | ecbDec => exact ⟨_, by rw [exec, execEcbDec]⟩
  | cbcEnc => exact ⟨_, by rw [exec, execCbcEnc]⟩
  | cbcDec => exact ⟨_, by rw [exec, execCbcDec]⟩
  | ctrXor => exact ⟨_, by rw [exec, execCtrXor]⟩
  | ctrEdit => exact ⟨_, by rw [exec, execCtrEdit]⟩
  | pad => exact ⟨_, by rw [exec, execPad]⟩
  | unpad => exact ⟨_, by rw [exec, execUnpad]⟩
  | hInit f => exact ⟨_, by rw [exec, execHInit]⟩
  | hAbsorb f => exact ⟨_, by rw [exec, execHAbsorb]⟩
  | hFinal f => exact ⟨_, by rw [exec, execHFinal]⟩
  | hMdpad f => exact ⟨_, by rw [exec, execHMdpad]⟩
  | hImport f => exact ⟨_, by rw [exec, execHImport]⟩
  | hExport f => exact ⟨_, by rw [exec, execHExport]⟩
  | mac f => exact ⟨_, by rw [exec, execMac]⟩
  | forge f => exact ⟨_, by rw [exec, execForge]⟩

/-- A command that ends in a next state has raised a code, or committed, or failed its destination check. -/
theorem perform_next_iff (s t : State) (body : Except Stop Effect) :
    perform s body = .next t ↔
      (∃ e, body = .error (.raise e) ∧ t = s.complete e) ∨
      (∃ e, body = .ok e ∧ e.fits s = true ∧ t = (s.commit e).complete .ok) ∨
      (∃ e, body = .ok e ∧ e.fits s = false ∧ t = s.complete .range) := by
  unfold perform
  cases body with
  | error x =>
    cases x with
    | raise e => simp [@eq_comm _ t]
    | fault f => simp
  | ok e => cases h : e.fits s <;> simp [h, @eq_comm _ t]

theorem perform_fault_iff (s : State) (body : Except Stop Effect) (f : Fault) :
    perform s body = .fault f ↔ body = .error (.fault f) := by
  unfold perform
  cases body with
  | error x => cases x <;> simp
  | ok e => cases h : e.fits s <;> simp [h]

theorem perform_not_refused (s : State) (body : Except Stop Effect) (r : Refusal) : perform s body ≠ .refused r := by
  unfold perform
  cases body with
  | error x => cases x <;> simp
  | ok e => cases h : e.fits s <;> simp [h]

@[simp] theorem perform_raise (s : State) (e : Err) : perform s (.error (.raise e)) = .next (s.complete e) := rfl

@[simp] theorem perform_stop (s : State) (f : Fault) : perform s (.error (.fault f)) = .fault f := rfl

theorem perform_ok (s : State) (e : Effect) :
    perform s (.ok e) = if e.fits s then .next ((s.commit e).complete .ok) else .next (s.complete .range) := rfl

/-! ### What a command gathers -/

@[simp] theorem Effect.start_pending (s : State) : (Effect.start s).pending = [] := rfl
@[simp] theorem Effect.start_res0 (s : State) : (Effect.start s).res0 = 0 := rfl
@[simp] theorem Effect.start_res1 (s : State) : (Effect.start s).res1 = 0 := rfl
@[simp] theorem Effect.start_cc (s : State) : (Effect.start s).cc = 0 := rfl
@[simp] theorem Effect.start_hc (s : State) : (Effect.start s).hc = 0 := rfl
@[simp] theorem Effect.start_newL (s : State) : (Effect.start s).newL = s.latch := rfl

@[simp] theorem Effect.emit_pending (e : Effect) (s : State) (k : Dst) (d : List Byte) :
    (e.emit s k d).pending = e.pending ++ [((s.ops.dstAddr k).toNat, d)] := by cases k <;> rfl
@[simp] theorem Effect.emit_d0_res0 (e : Effect) (s : State) (d : List Byte) : (e.emit s .d0 d).res0 = d.length := rfl
@[simp] theorem Effect.emit_d0_res1 (e : Effect) (s : State) (d : List Byte) : (e.emit s .d0 d).res1 = e.res1 := rfl
@[simp] theorem Effect.emit_d1_res0 (e : Effect) (s : State) (d : List Byte) : (e.emit s .d1 d).res0 = e.res0 := rfl
@[simp] theorem Effect.emit_d1_res1 (e : Effect) (s : State) (d : List Byte) : (e.emit s .d1 d).res1 = d.length := rfl
@[simp] theorem Effect.emit_cc (e : Effect) (s : State) (k : Dst) (d : List Byte) : (e.emit s k d).cc = e.cc := by
  cases k <;> rfl
@[simp] theorem Effect.emit_hc (e : Effect) (s : State) (k : Dst) (d : List Byte) : (e.emit s k d).hc = e.hc := by
  cases k <;> rfl
@[simp] theorem Effect.emit_newL (e : Effect) (s : State) (k : Dst) (d : List Byte) : (e.emit s k d).newL = e.newL := by
  cases k <;> rfl

@[simp] theorem Effect.count_pending (e : Effect) (c h : Nat) : (e.count c h).pending = e.pending := rfl
@[simp] theorem Effect.count_res0 (e : Effect) (c h : Nat) : (e.count c h).res0 = e.res0 := rfl
@[simp] theorem Effect.count_res1 (e : Effect) (c h : Nat) : (e.count c h).res1 = e.res1 := rfl
@[simp] theorem Effect.count_cc (e : Effect) (c h : Nat) : (e.count c h).cc = e.cc + c := rfl
@[simp] theorem Effect.count_hc (e : Effect) (c h : Nat) : (e.count c h).hc = e.hc + h := rfl
@[simp] theorem Effect.count_newL (e : Effect) (c h : Nat) : (e.count c h).newL = e.newL := rfl

@[simp] theorem Effect.latch_pending (e : Effect) (l : Latch) : (e.latch l).pending = e.pending := rfl
@[simp] theorem Effect.latch_res0 (e : Effect) (l : Latch) : (e.latch l).res0 = e.res0 := rfl
@[simp] theorem Effect.latch_res1 (e : Effect) (l : Latch) : (e.latch l).res1 = e.res1 := rfl
@[simp] theorem Effect.latch_cc (e : Effect) (l : Latch) : (e.latch l).cc = e.cc := rfl
@[simp] theorem Effect.latch_hc (e : Effect) (l : Latch) : (e.latch l).hc = e.hc := rfl
@[simp] theorem Effect.latch_newL (e : Effect) (l : Latch) : (e.latch l).newL = l := rfl

end Sys2Proof.Machine
end

