-- ==== Sys2Proof/Laws/Hash.lean ====
section
/-! SUPPORT. The hash engine: the words of a chunk, the steps of both compressions, lengths, serialisation and its inverse, absorption of a concatenation, and the latch
invariant. -/

namespace Sys2Proof.Machine

/-! ### Chunk words (`43_hash.md` R182) -/

theorem wordsBy_length (f : List Byte → Nat) : ∀ (n : Nat) (m : List Byte), m.length = 4 * n → (wordsBy f m).length = n
  | 0, m, h => by rw [List.length_eq_zero_iff.mp (by omega : m.length = 0)]; rfl
  | n + 1, a :: b :: c :: d :: m, h => by
    rw [wordsBy, List.length_cons, wordsBy_length f n m (by simp at h; omega)]
  | n + 1, [], h | n + 1, [_], h | n + 1, [_, _], h | n + 1, [_, _, _], h => by simp at h <;> omega

/-- Word `i` is read from bytes `4i` to `4i + 3`. -/
theorem wordsBy_getD (f : List Byte → Nat) : ∀ (m : List Byte) (i : Nat), 4 * i + 3 < m.length →
    (wordsBy f m).getD i 0 = BitVec.ofNat 32
      (f [m.getD (4 * i) 0, m.getD (4 * i + 1) 0, m.getD (4 * i + 2) 0, m.getD (4 * i + 3) 0])
  | a :: b :: c :: d :: m, 0, h => rfl
  | a :: b :: c :: d :: m, i + 1, h => by
    rw [wordsBy, List.getD_cons_succ, wordsBy_getD f m i (by simp at h; omega)]
    rfl
  | [], i, h | [_], i, h | [_, _], i, h | [_, _, _], i, h => by simp at h

/-! ### The steps of SHA-1 (`43_hash.md` R184, R186) -/

theorem sha1Schedule_length (M : List Word) : ∀ n, (sha1Schedule M n).length = M.length + n
  | 0 => by simp [sha1Schedule]
  | n + 1 => by
    rw [sha1Schedule, List.length_cons, sha1Schedule_length M n]
    omega

/-- Extending the schedule keeps its words. -/
theorem sha1Schedule_getD_add (M : List Word) (n : Nat) : ∀ k i,
    (sha1Schedule M (n + k)).getD (k + i) 0 = (sha1Schedule M n).getD i 0
  | 0, i => by simp
  | k + 1, i => by
    rw [← Nat.add_assoc, sha1Schedule, Nat.add_right_comm, List.getD_cons_succ, sha1Schedule_getD_add M n k i]

theorem sha1Steps_append : ∀ (ws ws' : List Word) (t : Nat) (v : Chain),
    sha1Steps t (ws ++ ws') v = sha1Steps (t + ws.length) ws' (sha1Steps t ws v)
  | [], _, _, _ => rfl
  | w :: ws, ws', t, v => by
    rw [List.cons_append, sha1Steps, sha1Steps, sha1Steps_append ws ws', List.length_cons]
    congr 1
    omega

/-- Step `t` comes after the steps before it. -/
theorem sha1Steps_take_succ (ws : List Word) (t : Nat) (v : Chain) (h : t < ws.length) :
    sha1Steps 0 (ws.take (t + 1)) v = sha1Step (sha1Steps 0 (ws.take t) v) t (ws.getD t 0) := by
  rw [List.take_add_one, List.getElem?_eq_getElem h, Option.toList_some, sha1Steps_append, List.length_take,
    Nat.min_eq_left (by omega), Nat.zero_add, List.getD_eq_getElem _ _ h]
  rfl

/-! ### The steps of MD4 (`43_hash.md` R187) -/

/-- The 48 steps of MD4, each with its round. -/
def md4All : List (Nat × Nat × Nat) :=
  (md4Table 1).map (Prod.mk 1) ++ (md4Table 2).map (Prod.mk 2) ++ (md4Table 3).map (Prod.mk 3)

/-- The three rounds are one fold over the 48 steps. -/
theorem md4Compress_steps (H : Chain) (m : List Byte) : md4Compress H m =
    let v := md4All.foldl (fun v s => md4Step s.1 (chunkWords .B m) v s.2) H
    { h0 := H.h0 + v.h0, h1 := H.h1 + v.h1, h2 := H.h2 + v.h2, h3 := H.h3 + v.h3, h4 := H.h4 } := by
  simp only [md4All, List.foldl_append, List.foldl_map]
  rfl

/-! ### Lengths -/

theorem lenField_length (f : Family) (bits : Bool) (Lt : Dword) : (lenField f bits Lt).length = 8 := by
  cases f <;> cases bits <;> simp [lenField]

theorem serialize_length (f : Family) (H : Chain) : (serialize f H).length = 4 * f.words := by
  cases f <;> simp [serialize, Chain.used, Family.words]

/-- `len(mdpad) = 1 + z + 8` (`43_hash.md` R190). -/
theorem mdpad_length (f : Family) (bits : Bool) (Lt : Dword) :
    (mdpad f bits Lt).length = 9 + (55 + 64 - Lt.toNat % 64) % 64 := by
  cases f <;> cases bits <;> simp [mdpad, lenField, padZeros] <;> omega

/-- `ARG64` as a number (`30_encoding.md` R85). -/
theorem OperandRegs.arg64_toNat (o : OperandRegs) : o.arg64.toNat = o.arg1.toNat * 2 ^ 32 + o.arg0.toNat := by
  rw [OperandRegs.arg64, BitVec.toNat_append, ← Nat.shiftLeft_add_eq_or_of_lt o.arg0.isLt, Nat.shiftLeft_eq]

/-! ### Serialisation (`43_hash.md` R192) -/

theorem wordsBy_beBytes (w : Word) (s : List Byte) : wordsBy fromBE (beBytes 4 w.toNat ++ s) = w :: wordsBy fromBE s := by
  obtain ⟨a, b, c, d, h⟩ : ∃ a b c d, beBytes 4 w.toNat = [a, b, c, d] := ⟨_, _, _, _, rfl⟩
  have e := fromBE_beBytes 4 w.toNat
  rw [h, Nat.mod_eq_of_lt (by have := w.isLt; omega)] at e
  simp [h, wordsBy, e]

theorem wordsBy_leBytes (w : Word) (s : List Byte) : wordsBy fromLE (leBytes 4 w.toNat ++ s) = w :: wordsBy fromLE s := by
  obtain ⟨a, b, c, d, h⟩ : ∃ a b c d, leBytes 4 w.toNat = [a, b, c, d] := ⟨_, _, _, _, rfl⟩
  have e := fromLE_leBytes 4 w.toNat
  rw [h, Nat.mod_eq_of_lt (by have := w.isLt; omega)] at e
  simp [h, wordsBy, e]

/-- `parse` inverts `serialize`; for family B when `H[4]` is 0 (`10_state.md` R42). -/
theorem parse_serialize (f : Family) (H : Chain) (h : f = .B → H.h4 = 0) : parse f (serialize f H) = H := by
  obtain ⟨a, b, c, d, e⟩ := H
  cases f with
  | A =>
    have := wordsBy_beBytes e []
    simp only [List.append_nil] at this
    simp [parse, chunkWords, serialize, Chain.used, wordsBy_beBytes, this]
  | B =>
    have := wordsBy_leBytes d []
    simp only [List.append_nil] at this
    simp [parse, chunkWords, serialize, Chain.used, wordsBy_leBytes, this]
    exact (h rfl).symm

/-- A latch between chunks is what importing its serialised words at its length gives. -/
theorem importLatch_serialize (L : Latch) (hv : L.valid = true) (hp : L.part = []) (h : L.fam = .B → L.h.h4 = 0) :
    importLatch L.fam (serialize L.fam L.h) L.len = L := by
  obtain ⟨v, f, H, l, p⟩ := L
  simp only at hv hp h
  subst hv hp
  simp only [importLatch, parse_serialize f H h]

/-! ### Absorption (`43_hash.md` R193) -/

/-- The chunks are compressed in order. -/
theorem compressChunks_eq_foldl (f : Family) : ∀ (n : Nat) (H : Chain) (b : List Byte),
    compressChunks f n H b = ((List.range n).map fun i => slice b (64 * i) (64 * i + 64)).foldl (compress f) H
  | 0, _, _ => rfl
  | n + 1, H, b => by
    rw [compressChunks, compressChunks_eq_foldl f n, List.range_succ_eq_map, List.map_cons, List.foldl_cons, List.map_map]
    have h0 : slice b (64 * 0) (64 * 0 + 64) = b.take 64 := by simp [slice]
    rw [h0]
    congr 1
    refine List.map_congr_left fun i _ => ?_
    simp only [slice, Function.comp, List.drop_drop]
    rw [show 64 * i.succ = 64 + 64 * i by omega]
    congr 1
    omega

theorem compressChunks_add (f : Family) : ∀ (n m : Nat) (H : Chain) (b : List Byte),
    compressChunks f (n + m) H b = compressChunks f m (compressChunks f n H b) (b.drop (64 * n))
  | 0, m, H, b => by simp [compressChunks]
  | n + 1, m, H, b => by
    rw [show n + 1 + m = n + m + 1 by omega, compressChunks, compressChunks_add f n m, compressChunks, List.drop_drop,
      show 64 + 64 * n = 64 * (n + 1) by omega]

/-- Bytes after the chunks do not matter. -/
theorem compressChunks_append (f : Family) : ∀ (n : Nat) (H : Chain) (b c : List Byte), 64 * n ≤ b.length →
    compressChunks f n H (b ++ c) = compressChunks f n H b
  | 0, _, _, _, _ => rfl
  | n + 1, H, b, c, h => by
    rw [compressChunks, compressChunks, List.take_append_of_le_length (by omega),
      List.drop_append_of_le_length (by omega), compressChunks_append f n _ _ _ (by rw [List.length_drop]; omega)]

theorem Latch.eq_of_fields {a b : Latch} (h1 : a.valid = b.valid) (h2 : a.fam = b.fam) (h3 : a.h = b.h)
    (h4 : a.len = b.len) (h5 : a.part = b.part) : a = b := by
  cases a
  cases b
  simp_all

/-- Absorbing in two pieces is absorbing their concatenation. -/
theorem absorb_absorb (L : Latch) (p x : List Byte) : absorb (absorb L p) x = absorb L (p ++ x) := by
  have hn : absorbCount L (p ++ x) = absorbCount L p + absorbCount (absorb L p) x := by
    simp [absorbCount, absorb]
    omega
  have hd : 64 * absorbCount L p ≤ (L.part ++ p).length := by
    simp [absorbCount]
    omega
  have hb : (absorb L p).part ++ x = (L.part ++ (p ++ x)).drop (64 * absorbCount L p) := by
    rw [← List.append_assoc, List.drop_append_of_le_length hd]
    rfl
  refine Latch.eq_of_fields rfl rfl ?_ ?_ ?_
  · show compressChunks L.fam _ (compressChunks L.fam _ L.h _) ((absorb L p).part ++ x) = compressChunks L.fam _ _ _
    rw [hn, compressChunks_add, hb]
    congr 1
    rw [← List.append_assoc, compressChunks_append _ _ _ _ _ hd]
  · show L.len + _ + _ = L.len + _
    rw [BitVec.add_assoc, ← BitVec.ofNat_add, List.length_append]
  · show ((absorb L p).part ++ x).drop _ = (L.part ++ (p ++ x)).drop _
    rw [hb, List.drop_drop, hn]
    congr 1
    omega

/-! ### Family B leaves `H[4]` alone (`10_state.md` R42) -/

theorem Chain.h4_mk (a b c d e : Word) : (Chain.mk a b c d e).h4 = e := rfl

theorem compress_B_h4 (H : Chain) (m : List Byte) : (compress .B H m).h4 = H.h4 := by
  unfold compress
  unfold md4Compress
  exact Chain.h4_mk _ _ _ _ _

theorem compressChunks_B_h4 : ∀ (n : Nat) (H : Chain) (b : List Byte), (compressChunks .B n H b).h4 = H.h4
  | 0, _, _ => rfl
  | n + 1, H, b => by rw [compressChunks, compressChunks_B_h4 n, compress_B_h4]

/-! ### The latch invariant -/

theorem latchInv_reset : Safety.LatchInv Latch.reset := by decide

theorem latchInv_init (f : Family) : Safety.LatchInv (initLatch f) := by cases f <;> decide

theorem latchInv_import (f : Family) (t : List Byte) (Ld : Dword) (h : Ld.toNat % 64 = 0) :
    Safety.LatchInv (importLatch f t Ld) := by
  refine ⟨by simp [importLatch], fun _ => by simp [importLatch, h], fun h => by simp [importLatch] at h, fun hB => ?_⟩
  have : f = .B := hB
  subst this
  rfl

theorem latchInv_absorb (L : Latch) (d : List Byte) (h : Safety.LatchInv L) (hv : L.valid = true) :
    Safety.LatchInv (absorb L d) := by
  obtain ⟨h1, h2, h3, h4⟩ := h
  have h2 := h2 hv
  have hp : (absorb L d).part.length = (L.part.length + d.length) % 64 := by
    simp [absorb, absorbCount]
    omega
  refine ⟨by omega, fun _ => ?_, fun hf => ?_, fun hB => ?_⟩
  · rw [hp]
    show _ = (L.len + BitVec.ofNat 64 d.length).toNat % 64
    rw [BitVec.toNat_add, BitVec.toNat_ofNat]
    omega
  · rw [show (absorb L d).valid = L.valid from rfl, hv] at hf
    cases hf
  · have hB' : L.fam = .B := hB
    show (compressChunks L.fam _ L.h _).h4 = 0
    rw [hB', compressChunks_B_h4, h4 hB']

/-- After the padding of its own length the partial chunk is empty. -/
theorem part_absorb_mdpad (L : Latch) (bits : Bool) (h : Safety.LatchInv L) (hv : L.valid = true) :
    (absorb L (mdpad L.fam bits L.len)).part = [] := by
  have h1 := mdpad_length L.fam bits L.len
  have h2 := h.2.1 hv
  refine List.eq_nil_of_length_eq_zero ?_
  simp [absorb, absorbCount]
  omega

end Sys2Proof.Machine
end

