-- ==== Sys2Proof/Laws/HostPort.lean ====
section
/-! SUPPORT. The address map: which register an address names, and what one step of a legal register access does. -/

namespace Sys2Proof.Machine

/-- What `Params.Legal` says in numbers. -/
theorem legal_facts (p : Params) (h : p.Legal) :
    4096 ≤ p.bufBytes ∧ p.bufBytes ≤ 2 ^ 24 ∧ p.bufBytes % 4 = 0 ∧ p.base % 2 ^ 25 = 0 ∧ p.bufOffset % 4 = 0 ∧
      0x1000 ≤ p.bufOffset ∧ p.bufOffset + p.bufBytes ≤ 2 ^ 25 := by
  obtain ⟨h1, h2, h3, h4, h5⟩ := h
  simp only [Params.bufSizes, List.mem_map, List.mem_range] at h1
  obtain ⟨k, hk, h1⟩ := h1
  simp only [Config.hostWindow, Config.regWindow] at h2 h4 h5
  have a : 2 ^ 12 ≤ p.bufBytes := by
    rw [← h1]
    exact Nat.pow_le_pow_right (by decide) (by omega)
  have b : p.bufBytes ≤ 2 ^ 24 := by
    rw [← h1]
    exact Nat.pow_le_pow_right (by decide) (by omega)
  have c : 4 ∣ p.bufBytes := ⟨2 ^ (10 + k), by rw [← h1, show 12 + k = 2 + (10 + k) by omega, Nat.pow_add]⟩
  have d : 4 ∣ p.bufOffset := c.trans (Nat.dvd_of_mod_eq_zero h3)
  exact ⟨by omega, b, Nat.mod_eq_zero_of_dvd c, h2, Nat.mod_eq_zero_of_dvd d, h4, h5⟩

theorem target_register (p : Params) (off : Nat) (h : off < 0x1000) : target p (p.base + off) = .register off := by
  unfold target Config.hostWindow Config.regWindow
  rw [if_neg (by omega), if_pos (by omega), Nat.add_sub_cancel_left]

theorem target_buffer (p : Params) (h : p.Legal) (a : Nat) (ha : a < p.bufBytes) :
    target p (p.base + p.bufOffset + a) = .buffer a := by
  have := legal_facts p h
  unfold target Config.hostWindow Config.regWindow
  rw [if_neg (by omega), if_neg (by omega), if_pos (by omega)]
  congr 1
  omega

/-- A register stands at its own offset (`10_state.md` R21). -/
@[simp] theorem regAt_regOffset (r : Reg) : regAt (regOffset r) = r := by
  cases r <;> try rfl
  · rename_i o
    cases o <;> (try (rename_i k; cases k)) <;> rfl
  · rename_i i
    revert i
    decide
  · rename_i k
    revert k
    decide

theorem regOffset_legal (r : Reg) : regOffset r < 0x1000 ∧ regOffset r % 4 = 0 := by
  cases r <;> try (constructor <;> decide)
  · rename_i o
    cases o <;> (try (rename_i k; cases k)) <;> (constructor <;> decide)
  · rename_i i
    revert i
    decide
  · rename_i k
    revert k
    decide

/-- Every offset from 0x0C0 up is reserved (`10_state.md` R35). -/
theorem regAt_reserved (off : Nat) (h : 0x0C0 ≤ off) : regAt off = .reserved := by
  unfold regAt
  split <;> first | rfl | omega

/-- One step of a legal register read. -/
theorem step_register_read (s : State) (off : Nat) (rest : List Turn) (ho : off < 0x1000) (h4 : off % 4 = 0)
    (h : s.turns = .access (.read (s.par.base + off) 4) :: rest) :
    step s = .next (readReg { s with turns := rest } (regAt off)) := by
  simp [step, h, takeTurn, hostAccess, target_register _ _ ho, regAccessLegal, h4]

/-- One step of a legal register write. -/
theorem step_register_write (s : State) (off : Nat) (v : Word) (rest : List Turn) (ho : off < 0x1000) (h4 : off % 4 = 0)
    (h : s.turns = .access (.write (s.par.base + off) 4 v) :: rest) :
    step s = .next ((writeReg { s with turns := rest } (regAt off) v).answer .ack) := by
  simp [step, h, takeTurn, hostAccess, target_register _ _ ho, regAccessLegal, h4]

end Sys2Proof.Machine
end

