-- ==== Sys2Proof/Laws/Padding.lean ====
section
/-! SUPPORT. PKCS#7: the length of a padded buffer, and exactly when unpadding succeeds. -/

namespace Sys2Proof.Machine

@[simp] theorem pkcs7Pad_length (s : List Byte) (B : Nat) :
    (pkcs7Pad s B).length = s.length + (B - s.length % B) := by simp [pkcs7Pad]

/-- A padded buffer is a whole number of blocks. -/
theorem pkcs7Pad_length_mod (s : List Byte) (B : Nat) (hB : 1 ≤ B) : (pkcs7Pad s B).length % B = 0 := by
  have h := Nat.mod_lt s.length hB
  have e : s.length = B * (s.length / B) + s.length % B := (Nat.div_add_mod _ _).symm
  have : s.length + (B - s.length % B) = B * (s.length / B + 1) := by rw [Nat.mul_succ]; omega
  rw [pkcs7Pad_length, this, Nat.mul_mod_right]

/-- Unpadding raises only PADDING. -/
theorem pkcs7Unpad_error (q : List Byte) (B : Nat) (x : Stop) (h : pkcs7Unpad q B = .error x) : x = .raise .padding := by
  simp only [pkcs7Unpad, bind_error_iff, check_error_iff, check_ok_iff] at h
  rcases h with h | ⟨_, _, h | ⟨_, _, h | ⟨_, _, h | ⟨_, _, h | ⟨_, _, h⟩⟩⟩⟩⟩
  iterate 5 exact h.2
  exact nomatch h

/-- A sequence of bytes all equal to `b`. -/
theorem all_eq_iff_replicate (l : List Byte) (b : Byte) : l.all (· == b) = true ↔ l = List.replicate l.length b := by
  rw [List.all_eq_true, List.eq_replicate_iff]
  simp

/-- The last byte of a sequence whose last `n ≥ 1` bytes are all `b`. -/
theorem last_of_drop_replicate (q : List Byte) (n : Nat) (b : Byte) (h1 : 1 ≤ n) (hn : n ≤ q.length)
    (h : q.drop (q.length - n) = List.replicate n b) : q.getD (q.length - 1) 0 = b := by
  have e : (q.drop (q.length - n))[n - 1]? = some b := by
    rw [h, List.getElem?_replicate, if_pos (by omega)]
  rw [List.getElem?_drop] at e
  have : q.length - n + (n - 1) = q.length - 1 := by omega
  rw [this] at e
  simp [List.getD_eq_getElem?_getD, e]

/-- Exactly when unpadding succeeds, and with what (`42_padding.md` R162). -/
theorem pkcs7Unpad_ok_iff (q p : List Byte) (B : Nat) (hB : B ≤ 255) :
    pkcs7Unpad q B = .ok p ↔
      ∃ n, B ≤ q.length ∧ 1 ≤ n ∧ n ≤ B ∧ n ≤ q.length ∧
        q.drop (q.length - n) = List.replicate n (BitVec.ofNat 8 n) ∧ p = q.take (q.length - n) := by
  have hret : ∀ x : List Byte, (pure x : Except Stop (List Byte)) = Except.ok p ↔ x = p := by
    intro x
    simp [pure, Except.pure]
  simp only [pkcs7Unpad, bind_ok_iff, check_ok_iff, decide_eq_true_eq, hret]
  constructor
  · rintro ⟨-, h1, -, h2, -, h3, -, h4, -, h5, rfl⟩
    refine ⟨(q.getD (q.length - 1) 0).toNat, h1, by omega, h3, h4, ?_, rfl⟩
    rw [all_eq_iff_replicate] at h5
    rw [h5, BitVec.ofNat_toNat, BitVec.setWidth_eq]
    congr 1
    rw [List.length_drop]
    omega
  · rintro ⟨n, h1, h2, h3, h4, h5, rfl⟩
    have hl := last_of_drop_replicate q n _ h2 h4 h5
    have ht : (q.getD (q.length - 1) 0).toNat = n := by rw [hl, BitVec.toNat_ofNat]; omega
    rw [ht]
    refine ⟨(), h1, (), by omega, (), h3, (), h4, (), ?_, rfl⟩
    rw [hl, h5]
    simp

end Sys2Proof.Machine
end

