-- ==== Sys2Proof/Laws/Modes.lean ====
section
/-! SUPPORT. The mode engine: each mode block by block or byte by byte. -/

namespace Sys2Proof.Machine

/-! ### ECB and CBC (`41_modes.md` R131 to R135) -/

theorem ecbEncrypt_eq (C : BlockCipher) (k q : List Byte) (m : Nat) :
    ecbEncrypt C k m q = ((List.range m).map fun i => C.enc (slice q (16 * i) (16 * i + 16)) k).flatten := by
  simp [ecbEncrypt, runs_eq, Function.comp_def]

theorem ecbDecrypt_eq (C : BlockCipher) (k c : List Byte) (m : Nat) :
    ecbDecrypt C k m c = ((List.range m).map fun i => C.dec (slice c (16 * i) (16 * i + 16)) k).flatten := by
  simp [ecbDecrypt, runs_eq, Function.comp_def]

theorem map_range_flatten_length (m : Nat) (f : Nat → List Byte) (h : ∀ i < m, (f i).length = 16) :
    ((List.range m).map f).flatten.length = 16 * m := by
  rw [flatten_length_of_forall 16, List.length_map, List.length_range]
  intro b hb
  obtain ⟨i, hi, rfl⟩ := List.mem_map.mp hb
  exact h i (List.mem_range.mp hi)

/-- Run `i` of a CBC ciphertext. -/
theorem cbcEncBlocks_spec (C : BlockCipher) (k : List Byte) (hC : ∀ b, (C.enc b k).length = 16) :
    ∀ (bs : List (List Byte)) (prev : List Byte),
      (cbcEncBlocks C k prev bs).length = 16 * bs.length ∧
      ∀ i, i < bs.length → slice (cbcEncBlocks C k prev bs) (16 * i) (16 * i + 16) =
        C.enc (xorBytes (bs.getD i []) (if i = 0 then prev
          else slice (cbcEncBlocks C k prev bs) (16 * (i - 1)) (16 * (i - 1) + 16))) k
  | [], prev => by simp [cbcEncBlocks]
  | b :: bs, prev => by
    obtain ⟨h1, h2⟩ := cbcEncBlocks_spec C k hC bs (C.enc (xorBytes b prev) k)
    have hc := hC (xorBytes b prev)
    have hs (i : Nat) : slice (C.enc (xorBytes b prev) k ++ cbcEncBlocks C k (C.enc (xorBytes b prev) k) bs)
        (16 * (i + 1)) (16 * (i + 1) + 16) =
          slice (cbcEncBlocks C k (C.enc (xorBytes b prev) k) bs) (16 * i) (16 * i + 16) := by
      simp only [slice]
      rw [List.drop_append, List.drop_of_length_le (by omega), List.nil_append, hc]
      congr 1 <;> omega
    have h0 : slice (C.enc (xorBytes b prev) k ++ cbcEncBlocks C k (C.enc (xorBytes b prev) k) bs)
        (16 * 0) (16 * 0 + 16) = C.enc (xorBytes b prev) k := by
      simp [slice, ← hc]
    refine ⟨by simp [cbcEncBlocks, h1, hc]; omega, fun i hi => ?_⟩
    simp only [cbcEncBlocks]
    cases i with
    | zero => rw [h0]; rfl
    | succ i =>
      rw [hs, h2 i (by simpa using hi)]
      simp only [List.getD_cons_succ, Nat.add_sub_cancel, Nat.add_eq_zero_iff, one_ne_zero, and_false, if_false]
      cases i with
      | zero => rw [h0]; rfl
      | succ i => rw [hs]; rfl

theorem cbcDecrypt_eq (C : BlockCipher) (k iv c : List Byte) (m : Nat) :
    cbcDecrypt C k iv m c = ((List.range m).map fun i =>
      xorBytes (C.dec (slice c (16 * i) (16 * i + 16)) k)
        (if i = 0 then iv else slice c (16 * (i - 1)) (16 * (i - 1) + 16))).flatten := by
  have key : ∀ (bs : List (List Byte)) (prev : List Byte), cbcDecBlocks C k prev bs =
      ((List.range bs.length).map fun i =>
        xorBytes (C.dec (bs.getD i []) k) (if i = 0 then prev else bs.getD (i - 1) [])).flatten := by
    intro bs
    induction bs with
    | nil => intro prev; rfl
    | cons b bs ih =>
      intro prev
      rw [cbcDecBlocks, ih b, List.length_cons, List.range_succ_eq_map, List.map_cons, List.flatten_cons, List.map_map]
      congr 2
      refine List.map_congr_left fun i _ => ?_
      cases i <;> simp
  rw [cbcDecrypt, key, runs_length]
  congr 1
  refine List.map_congr_left fun i hi => ?_
  have h1 : i < m := List.mem_range.mp hi
  have h2 : i - 1 < m := by omega
  simp [runs_eq, h1, h2]

/-! ### CTR (`41_modes.md` R140, R141, R143) -/

theorem xorBytes_getD (s t : List Byte) (i : Nat) (h1 : i < s.length) (h2 : i < t.length) :
    (xorBytes s t).getD i 0 = s.getD i 0 ^^^ t.getD i 0 := by
  rw [List.getD_eq_getElem?_getD, xorBytes_getElem? s t i h1 h2, List.getD_eq_getElem _ _ h1, List.getD_eq_getElem _ _ h2]
  rfl

/-- Byte `j` of the keystream from block `i` on. -/
theorem keystream_spec (C : BlockCipher) (k n : List Byte) (hC : ∀ b, b.length = 16 → (C.enc b k).length = 16)
    (hn : n.length = 8) : ∀ m i : Nat, (keystream C k n i m).length = 16 * m ∧
      ∀ j, j < 16 * m →
        (keystream C k n i m).getD j 0 = (C.enc (n ++ leBytes 8 (i + j / 16)) k).getD (j % 16) 0
  | 0, i => by simp [keystream]
  | m + 1, i => by
    obtain ⟨h1, h2⟩ := keystream_spec C k n hC hn m (i + 1)
    have hc : (keystreamBlock C k n i).length = 16 := hC _ (by simp [hn])
    refine ⟨by simp [keystream, h1, hc]; omega, fun j hj => ?_⟩
    rw [keystream]
    by_cases hjj : j < 16
    · rw [List.getD_append _ _ _ _ (by omega), show j / 16 = 0 by omega, show j % 16 = j by omega]
      rfl
    · rw [List.getD_append_right _ _ _ _ (by omega), hc, h2 _ (by omega),
        show i + 1 + (j - 16) / 16 = i + j / 16 by omega, show (j - 16) % 16 = j % 16 by omega]

/-- Byte `j` of `CTR_XOR`'s output. -/
theorem ctrXor_spec (C : BlockCipher) (k n d : List Byte) (hC : ∀ b, b.length = 16 → (C.enc b k).length = 16)
    (hn : n.length = 8) : (ctrXor C k n d).length = d.length ∧ ∀ j, j < d.length →
      (ctrXor C k n d).getD j 0 = d.getD j 0 ^^^ (C.enc (n ++ leBytes 8 (j / 16)) k).getD (j % 16) 0 := by
  obtain ⟨h1, h2⟩ := keystream_spec C k n hC hn (ctrBlocks d.length) 0
  have hb : d.length ≤ 16 * ctrBlocks d.length := by
    unfold ctrBlocks
    omega
  refine ⟨by rw [ctrXor, xorBytes_length, h1]; omega, fun j hj => ?_⟩
  rw [ctrXor, xorBytes_getD _ _ _ hj (by omega), h2 j (by omega), Nat.zero_add]

/-- Byte `j` of the edited bytes. -/
theorem editBytes_spec (C : BlockCipher) (k n r : List Byte) (off : Nat)
    (hC : ∀ b, b.length = 16 → (C.enc b k).length = 16) (hn : n.length = 8) :
    (editBytes C k n off r).length = r.length ∧ ∀ j, j < r.length → (editBytes C k n off r).getD j 0 =
      r.getD j 0 ^^^ (C.enc (n ++ leBytes 8 ((off + j) / 16)) k).getD ((off + j) % 16) 0 := by
  obtain ⟨h1, h2⟩ := keystream_spec C k n hC hn (editBlocks off r.length) (off / 16)
  have hb : off % 16 + r.length ≤ 16 * editBlocks off r.length ∨ r.length = 0 := by
    unfold editBlocks
    split <;> omega
  refine ⟨by rw [editBytes, xorBytes_length, List.length_drop, h1]; omega, fun j hj => ?_⟩
  have hd : ((keystream C k n (off / 16) (editBlocks off r.length)).drop (off % 16)).getD j 0 =
      (keystream C k n (off / 16) (editBlocks off r.length)).getD (off % 16 + j) 0 := by simp
  rw [editBytes, xorBytes_getD _ _ _ hj (by rw [List.length_drop]; omega), hd, h2 _ (by omega),
    show off / 16 + (off % 16 + j) / 16 = (off + j) / 16 by omega,
    show (off % 16 + j) % 16 = (off + j) % 16 by omega]

/-- Byte `j` of `CTR_EDIT`'s output. -/
theorem ctrEdit_spec (C : BlockCipher) (k n c r : List Byte) (off : Nat)
    (hC : ∀ b, b.length = 16 → (C.enc b k).length = 16) (hn : n.length = 8) (hr : off + r.length ≤ c.length) :
    (ctrEdit C k n c off r).length = c.length ∧ ∀ j, j < c.length → (ctrEdit C k n c off r).getD j 0 =
      if off ≤ j ∧ j < off + r.length then
        r.getD (j - off) 0 ^^^ (C.enc (n ++ leBytes 8 (j / 16)) k).getD (j % 16) 0
      else c.getD j 0 := by
  obtain ⟨h1, h2⟩ := editBytes_spec C k n r off hC hn
  have ht : (c.take off).length = off := by
    rw [List.length_take]
    omega
  refine ⟨by simp [ctrEdit, h1]; omega, fun j hj => ?_⟩
  rw [ctrEdit, List.append_assoc]
  by_cases a : j < off
  · rw [if_neg (by omega), List.getD_append _ _ _ _ (by omega)]
    simp [a]
  · rw [List.getD_append_right _ _ _ _ (by omega), ht]
    by_cases b : j < off + r.length
    · rw [if_pos (by omega), List.getD_append _ _ _ _ (by omega), h2 _ (by omega), show off + (j - off) = j by omega]
    · rw [if_neg (by omega), List.getD_append_right _ _ _ _ (by omega), h1]
      simp
      congr 2
      omega

end Sys2Proof.Machine
end

