-- ==== Sys2Proof/Laws/PerInstr.lean ====
section
/-! SUPPORT. A family of statements about each command as syntax: its word is well formed, has its opcode, and decodes
to it. -/

namespace Sys2Proof.Laws.RoundTrip

/-- The word of a well-formed command carries its opcode, its family and no reserved bit, and decodes to it
(`30_encoding.md` R80 to R83). -/
def Statement (i : Instr) : Prop :=
  i.wf = true → opField (encode i) = i.op ∧ famField (encode i) = i.fam.bit ∧ rsvField (encode i) = 0 ∧
    decode (encode i) = .ok i

theorem nop : Statement .nop := fun _ => ⟨rfl, rfl, rfl, rfl⟩
theorem blkEnc : Statement .blkEnc := fun _ => ⟨rfl, rfl, rfl, rfl⟩
theorem blkDec : Statement .blkDec := fun _ => ⟨rfl, rfl, rfl, rfl⟩
theorem ecbEnc : Statement .ecbEnc := fun _ => ⟨rfl, rfl, rfl, rfl⟩
theorem ecbDec : Statement .ecbDec := fun _ => ⟨rfl, rfl, rfl, rfl⟩
theorem cbcEnc : Statement .cbcEnc := fun _ => ⟨rfl, rfl, rfl, rfl⟩
theorem cbcDec : Statement .cbcDec := fun _ => ⟨rfl, rfl, rfl, rfl⟩
theorem ctrXor : Statement .ctrXor := fun _ => ⟨rfl, rfl, rfl, rfl⟩
theorem ctrEdit : Statement .ctrEdit := fun _ => ⟨rfl, rfl, rfl, rfl⟩
theorem pad : Statement .pad := fun _ => ⟨rfl, rfl, rfl, rfl⟩
theorem unpad : Statement .unpad := fun _ => ⟨rfl, rfl, rfl, rfl⟩
theorem hInit (fam : Family) : Statement (.hInit fam) := by cases fam <;> exact fun _ => ⟨rfl, rfl, rfl, rfl⟩
theorem hAbsorb (fam : Family) : Statement (.hAbsorb fam) := by cases fam <;> exact fun _ => ⟨rfl, rfl, rfl, rfl⟩
theorem hFinal (fam : Family) : Statement (.hFinal fam) := by cases fam <;> exact fun _ => ⟨rfl, rfl, rfl, rfl⟩
theorem hMdpad (fam : Family) : Statement (.hMdpad fam) := by cases fam <;> exact fun _ => ⟨rfl, rfl, rfl, rfl⟩
theorem hImport (fam : Family) : Statement (.hImport fam) := by cases fam <;> exact fun _ => ⟨rfl, rfl, rfl, rfl⟩
theorem hExport (fam : Family) : Statement (.hExport fam) := by cases fam <;> exact fun _ => ⟨rfl, rfl, rfl, rfl⟩
theorem mac (fam : Family) : Statement (.mac fam) := by cases fam <;> exact fun _ => ⟨rfl, rfl, rfl, rfl⟩
theorem forge (fam : Family) : Statement (.forge fam) := by cases fam <;> exact fun _ => ⟨rfl, rfl, rfl, rfl⟩

end Sys2Proof.Laws.RoundTrip
end

