-- ==== Sys2Proof/Tests/Slice0.lean ====
section
/-! SUPPORT. Tests: ill-formed terms the checks refuse, words written out from the encoding, the spec's test vectors
(`95_test_vectors.md`, each named by its id), and for every statement with hypotheses a state that meets them. -/

namespace Sys2Proof.Tests

open Sys2Proof.Machine Sys2Proof.Claims Sys2Proof.Safety

set_option Elab.async false

/-! ### Helpers -/

/-- `n` bytes of a number, the most significant first. -/
def hex (n v : Nat) : List Byte := (List.range n).map fun i => BitVec.ofNat 8 (v >>> (8 * (n - 1 - i)))

/-- Sources at 0x100, 0x200, 0x300 and 0x380, DST1 at 0x600. -/
def place (d0 d1 d2 d3 : List Byte) (dst0 arg0 arg1 : Word) : State :=
  { State.reset with
    buf := Memory.writeBytes (Memory.writeBytes (Memory.writeBytes (Memory.writeBytes [] 0x100 d0) 0x200 d1) 0x300 d2) 0x380 d3
    ops := { src0Addr := 0x100, src0Len := BitVec.ofNat 32 d0.length, src1Addr := 0x200,
             src1Len := BitVec.ofNat 32 d1.length, src2Addr := 0x300, src2Len := BitVec.ofNat 32 d2.length,
             src3Addr := 0x380, src3Len := BitVec.ofNat 32 d3.length, dst0Addr := dst0, dst1Addr := 0x600,
             arg0 := arg0, arg1 := arg1 } }

/-- Whether a step ends in a next state. -/
def isNext (o : Host.Outcome State Fault Refusal) : Bool :=
  match o with
  | .next _ => true
  | .fault _ => false
  | .refused _ => false

/-- The next state of a step that has one. -/
def after (o : Host.Outcome State Fault Refusal) : State :=
  match o with
  | .next t => t
  | .fault _ => State.reset
  | .refused _ => State.reset

/-- Whether a step is the model fault at an address. -/
def faultsAt (o : Host.Outcome State Fault Refusal) (a : Nat) : Bool :=
  match o with
  | .fault (.unwrittenByte b) => a == b
  | .next _ => false
  | .refused _ => false

/-- The bytes a command wrote at destination `k`, by its result length. -/
def output (t : State) (k : Dst) : List Byte :=
  match t.buf.readBytes (t.ops.dstAddr k).toNat (match k with | .d0 => t.res0Len | .d1 => t.res1Len).toNat with
  | .ok d => d
  | .error _ => []

/-- Code and DST0 bytes after a command. -/
def result (i : Instr) (s : State) : Err × List Byte := ((after (exec i s)).status.err, output (after (exec i s)) .d0)

def key : List Byte := hex 16 0x000102030405060708090a0b0c0d0e0f
def iv : List Byte := hex 16 0x0f0e0d0c0b0a09080706050403020100
def nonce : List Byte := hex 8 0x0001020304050607
def abc : List Byte := hex 3 0x616263
def yellow : List Byte := hex 16 0x59454c4c4f57205355424d4152494e45
def fox : List Byte := hex 43 0x54686520717569636b2062726f776e20666f78206a756d7073206f76657220746865206c617a7920646f67
def foxCipher : List Byte :=
  hex 43 0xc9aae617a7a6dddd532db55fe12baf8583c30f8893bf17ccc0ea58ef48d6f81da06788b66ef1dee25e3b48
def message : List Byte := hex 77
  0x636f6d6d656e74313d636f6f6b696e672532304d43733b75736572646174613d666f6f3b636f6d6d656e74323d2532306c696b6525323061253230706f756e642532306f662532306261636f6e
def suffix : List Byte := hex 11 0x3b61646d696e3d74727565

/-- A block with a latch. -/
def withLatch (s : State) (L : Latch) : State := { s with latch := L }

/-! ### Well-formedness refuses each ill-formed term -/

theorem test_wf_reserved_bit : CmdWord.wf { op := 0x00, fam := false, rsv := 1 } = false := by decide
theorem test_wf_unassigned_op : CmdWord.wf { op := 0x36, fam := false, rsv := 0 } = false := by decide
theorem test_wf_family_on_cipher : CmdWord.wf { op := 0x21, fam := true, rsv := 0 } = false := by decide
theorem test_wf_hash_word : CmdWord.wf { op := 0x39, fam := true, rsv := 0 } = true := by decide
theorem test_wf_line_family :
    CommandLine.wf { mnemonic := .PAD, family := some .A, operands := [] } = false := by decide
theorem test_wf_line_value :
    CommandLine.wf { mnemonic := .PAD, family := none, operands := [.a0 (2 ^ 32)] } = false := by decide
theorem test_wf_line_named_twice :
    CommandLine.wf { mnemonic := .H_MDPAD, family := none, operands := [.a0 1, .a64 2] } = false := by decide
theorem test_wf_line :
    CommandLine.wf { mnemonic := .FORGE, family := some .B, operands := [.src .s0 0x100 77, .dst .d1 0x300, .a64 5] } =
      true := by decide
theorem test_params_small : ¬ Params.Legal { cipher := .aes128, bufBytes := 2048, base := 0, bufOffset := 0x10000 } := by decide
theorem test_params_base : ¬ Params.Legal { cipher := .aes128, bufBytes := 4096, base := 0x1000000, bufOffset := 0x10000 } := by decide

/-! ### Decoding: one word for every command, written out from `30_encoding.md` R80, R81 -/

theorem test_decode_nop : decode 0b00000000000000000000000_0_00000000 = .ok .nop := by rfl
theorem test_decode_blkEnc : decode 0b00000000000000000000000_0_00000001 = .ok .blkEnc := by rfl
theorem test_decode_blkDec : decode 0b00000000000000000000000_0_00000010 = .ok .blkDec := by rfl
theorem test_decode_ecbEnc : decode 0b00000000000000000000000_0_00010000 = .ok .ecbEnc := by rfl
theorem test_decode_ecbDec : decode 0b00000000000000000000000_0_00010001 = .ok .ecbDec := by rfl
theorem test_decode_cbcEnc : decode 0b00000000000000000000000_0_00010010 = .ok .cbcEnc := by rfl
theorem test_decode_cbcDec : decode 0b00000000000000000000000_0_00010011 = .ok .cbcDec := by rfl
theorem test_decode_ctrXor : decode 0b00000000000000000000000_0_00010100 = .ok .ctrXor := by rfl
theorem test_decode_ctrEdit : decode 0b00000000000000000000000_0_00010101 = .ok .ctrEdit := by rfl
theorem test_decode_pad : decode 0b00000000000000000000000_0_00100000 = .ok .pad := by rfl
theorem test_decode_unpad : decode 0b00000000000000000000000_0_00100001 = .ok .unpad := by rfl
theorem test_decode_hInit : decode 0b00000000000000000000000_1_00110000 = .ok (.hInit .B) := by rfl
theorem test_decode_hAbsorb : decode 0b00000000000000000000000_0_00110001 = .ok (.hAbsorb .A) := by rfl
theorem test_decode_hFinal : decode 0b00000000000000000000000_1_00110010 = .ok (.hFinal .B) := by rfl
theorem test_decode_hMdpad : decode 0b00000000000000000000000_0_00110011 = .ok (.hMdpad .A) := by rfl
theorem test_decode_hImport : decode 0b00000000000000000000000_1_00110100 = .ok (.hImport .B) := by rfl
theorem test_decode_hExport : decode 0b00000000000000000000000_0_00110101 = .ok (.hExport .A) := by rfl
theorem test_decode_mac : decode 0b00000000000000000000000_0_00111000 = .ok (.mac .A) := by rfl
theorem test_decode_forge : decode 0b00000000000000000000000_1_00111001 = .ok (.forge .B) := by rfl
theorem test_decode_table_word : decodeTableWord 32 0x139 = some (.forge .B) := by decide
theorem test_fetch_word_runs_nop : isNext (step (State.reset.withFetchWord 32 0)) = true := by decide

/-! ### The spec's vectors, one step each -/

/-- VC1. -/
theorem test_blkEnc : result .blkEnc (place (hex 16 0x00112233445566778899aabbccddeeff) key [] [] 0x400 0 0) =
    (.ok, hex 16 0x69c4e0d86a7b0430d8cdb78070b4c55a) := by decide +kernel

/-- VC6: source RANGE before VALIDATION. -/
theorem test_blkEnc_range_first : (after (exec .blkEnc { place [] (hex 15 0) [] [] 0x400 0 0 with
    ops := { OperandRegs.reset with src0Addr := 65530, src0Len := 16, src1Addr := 0x200, src1Len := 15 } })).status.err =
      .range := by decide +kernel

/-- VC2. -/
theorem test_blkDec : result .blkDec (place (hex 16 0x69c4e0d86a7b0430d8cdb78070b4c55a) key [] [] 0x400 0 0) =
    (.ok, hex 16 0x00112233445566778899aabbccddeeff) := by decide +kernel

/-- VM2. -/
theorem test_ecbEnc : result .ecbEnc (place abc key [] [] 0x400 0 0) =
    (.ok, hex 16 0xb08b1f809a035064420d1d754022ab55) := by decide +kernel

/-- VM8. -/
theorem test_ecbDec : result .ecbDec (place (hex 16 0xb08b1f809a035064420d1d754022ab55) key [] [] 0x400 0 0) =
    (.ok, abc) := by decide +kernel

/-- VM10. -/
theorem test_ecbDec_empty : (after (exec .ecbDec (place [] key [] [] 0x400 0 0))).status.err = .padding := by
  decide +kernel

/-- VM7. -/
theorem test_cbcEnc : result .cbcEnc (place (yellow ++ yellow) key iv [] 0x400 0 0) =
    (.ok, hex 48 0x6fc27bcb06313107af0ab781a7f7b652c0623d52c8bcacf52f8ca12ef5a0ac51691ca336f52a9f4b5a61d69a4f0f13c0) := by
  decide +kernel

/-- VM13. -/
theorem test_cbcDec_bit_flip : result .cbcDec
    (place (hex 48 0x6fc27beb06313107af0ab781a7f7b652c0623d52c8bcacf52f8ca12ef5a0ac51691ca336f52a9f4b5a61d69a4f0f13c0)
      key iv [] 0x400 0 0) =
    (.ok, hex 32 0xd76895f407adb534aae5a13497a8403159454c6c4f57205355424d4152494e45) := by decide +kernel

/-- VT7. -/
theorem test_ctrXor : result .ctrXor (place fox key nonce [] 0x400 0 0) = (.ok, foxCipher) := by decide +kernel

/-- VT11: an edit across a block boundary computes two keystream blocks. -/
theorem test_ctrEdit : (result .ctrEdit (place foxCipher key nonce (hex 3 0x58595a) 0x400 14 0)).2.drop 14 =
    hex 3 0x99fcbf ++ foxCipher.drop 17 ∧
      (after (exec .ctrEdit (place foxCipher key nonce (hex 3 0x58595a) 0x400 14 0))).ciphCnt = 2 := by decide +kernel

/-- VT13. -/
theorem test_ctrEdit_bounds : (after (exec .ctrEdit (place foxCipher key nonce (hex 4 0x646f6773) 0x400 40 0))).status.err =
    .validation := by decide +kernel

/-- VP3. -/
theorem test_pad : result .pad (place yellow [] [] [] 0x400 20 0) = (.ok, yellow ++ hex 4 0x04040404) := by decide +kernel

/-- VP8. -/
theorem test_pad_256 : (after (exec .pad (place abc [] [] [] 0x400 256 0))).status.err = .validation := by decide +kernel

/-- VP20: no multiple of the block size is needed. -/
theorem test_unpad : result .unpad (place (hex 6 0x616263646501) [] [] [] 0x400 4 0) = (.ok, hex 5 0x6162636465) := by
  decide +kernel

/-- VP15. -/
theorem test_unpad_count : (after (exec .unpad (place (hex 16 0x11) [] [] [] 0x400 0 0))).status.err = .padding := by
  decide +kernel

/-- VH12, the words of family B. -/
theorem test_hInit : result (.hExport .B) { after (exec (.hInit .B) (place [] [] [] [] 0x400 0 0)) with blenBits := false } =
    (.ok, hex 16 0x0123456789abcdeffedcba9876543210) := by decide +kernel

/-- VH14. -/
theorem test_hAbsorb : (after (exec (.hAbsorb .A)
    (withLatch (place (List.replicate 127 0x41) [] [] [] 0x400 0 0) (initLatch .A)))).compCnt = 1 ∧
    chunkWord (after (exec (.hAbsorb .A)
      (withLatch (place (List.replicate 127 0x41) [] [] [] 0x400 0 0) (initLatch .A)))).latch 15 = 0x00414141 := by
  decide +kernel

/-- VH3. -/
theorem test_hFinal_A : result (.hFinal .A) (withLatch (place [] [] [] [] 0x400 0 0) (absorb (initLatch .A) abc)) =
    (.ok, hex 20 0xa9993e364706816aba3e25717850c26c9cd0d89d) := by decide +kernel

/-- The digest of "abc", family B with a byte count. -/
theorem test_hFinal_B : result (.hFinal .B) (withLatch (place [] [] [] [] 0x400 0 0) (absorb (initLatch .B) abc)) =
    (.ok, hex 16 0x41ecb8d1d1d9a2284bed40c38bc392fa) := by decide +kernel

/-- VH-pad-55, family B in bits. -/
theorem test_hMdpad : result (.hMdpad .B) { place [] [] [] [] 0x400 55 0 with blenBits := true } =
    (.ok, hex 9 0x80b801000000000000) := by decide +kernel

/-- VH18: the bit count wraps. -/
theorem test_hMdpad_wrap : (result (.hMdpad .A) (place [] [] [] [] 0x400 0 0x20000000)).2.drop 56 = hex 8 0 := by
  decide +kernel

/-- VH8: VALIDATION before ALIGNMENT. -/
theorem test_hImport_order : (after (exec (.hImport .A) (place (hex 19 0) [] [] [] 0x400 3 0))).status.err = .validation := by
  decide +kernel

/-- VH9. -/
theorem test_hImport : (after (exec (.hImport .B) (place (hex 16 0) [] [] [] 0x400 0 1))).latch.len = 0x100000000 := by
  decide +kernel

/-- VH11. -/
theorem test_hExport_state : (after (exec (.hExport .B) State.reset)).status.err = .state := by decide +kernel

/-- VX-mac-A0. -/
theorem test_mac_A : result (.mac .A) (place message yellow [] [] 0x400 0 0) =
    (.ok, hex 20 0x08cb9f974e3141954f5b09a648fac55f20427d57) := by decide +kernel

/-- VX-mac-B1. -/
theorem test_mac_B : result (.mac .B) { place message yellow [] [] 0x400 0 0 with blenBits := true } =
    (.ok, hex 16 0x190e84541019df03edcab5b9a745fc17) := by decide +kernel

def macA : List Byte := hex 20 0x08cb9f974e3141954f5b09a648fac55f20427d57
def forgedDigest : List Byte := hex 20 0xa031e37757a34f714a82b2ee3dcf93ba1dfebea5
def forgedMessage : List Byte :=
  message ++ hex 35 0x80000000000000000000000000000000000000000000000000000000000000000002e8 ++ suffix

/-- FORGE with a known MAC `d` of a 16-byte key; the message goes to `dst1`. -/
def forging (d : List Byte) (dst0 dst1 : Word) : State :=
  { place message suffix d [] dst0 16 0 with ops := { (place message suffix d [] dst0 16 0).ops with dst1Addr := dst1 } }

def forged : State := after (exec (.forge .A) (forging macA 0x500 0x600))

/-- VX-forge-A0-g16. -/
theorem test_forge_A : forged.buf.readBytes 0x500 20 = .ok forgedDigest := by decide +kernel
theorem test_forge_A_message : forged.buf.readBytes 0x600 123 = .ok forgedMessage := by decide +kernel

/-- VX-forge-B0-g16. -/
theorem test_forge_B : result (.forge .B) (place message suffix (hex 16 0xd5dcbc5e35bf4aea5e08b99af0d59d60) [] 0x400 16 0) =
    (.ok, hex 16 0xdb459d678a0b9fd11ef9514518bd1ac7) := by decide +kernel

/-- VE1. -/
theorem test_nop_keeps_sticky : (after (exec .nop (after (exec .unpad (place abc [] [] [] 0x400 0 0))))).status.word =
    0x00000102 := by decide +kernel

/-- VE-101. -/
theorem test_illegal_word : (after (step (State.reset.withFetchWord 32 0x101))).status.word = 0x00000152 := by decide

/-- VB1: a 4-byte write is little-endian. -/
theorem test_buf_write : (after (step { State.reset with turns := [.access (.write 0x10010 4 0x11223344)] })).buf =
    [(0x10, 0x44), (0x11, 0x33), (0x12, 0x22), (0x13, 0x11)] := by decide +kernel

/-- VB12: an unwritten byte is a model fault. -/
theorem test_buf_unwritten : faultsAt (step { State.reset with turns := [.access (.read 0x10040 1)] }) 0x40 = true := by
  decide +kernel

/-! ### Witnesses: for every statement with hypotheses, states that meet them, at the bounds of each clause -/

/-- A step with a next state ends in it. -/
theorem eq_next_after {o : Host.Outcome State Fault Refusal} (h : isNext o = true) : o = .next (after o) := by
  cases o <;> simp_all [isNext, after]

def zeros (n : Nat) : List Byte := List.replicate n 0

/-- A block with turns to come. -/
def withTurns (s : State) (ts : List Turn) : State := { s with turns := ts }

/-- A block with a region of its own for source `k`. -/
def withSrc (s : State) (k : Src) (a n : Word) : State :=
  { s with ops := (s.ops.set (.srcAddr k) a).set (.srcLen k) n }

/-- A block with a command pending. -/
def pending (w : Nat) : State := State.reset.withFetchWord 32 w

/-- One byte in every source, the latch valid. -/
def oneEach : State := withLatch (place [0] [0] [0] [0] 0 0 0) (initLatch .A)

theorem witness_EveryCommandDecodesFromItsWord : ∀ x ∈ wordTable, x.2.wf = true := by decide

theorem witness_EngineStep : (pending 0x139).status.busy = true ∧ decode (pending 0x139).cmd = .ok (.forge .B) ∧
    (pending 0x139).turns = [] ∧ (withTurns (pending 0x139) [.engine, .wait]).turns = .engine :: [.wait] :=
  ⟨rfl, rfl, rfl, rfl⟩

theorem witness_ExactlyTheTableWordsDecode : ∀ w ∈ [0x100, 0x200, 0x36], (pending w).status.busy = true ∧
    (pending w).cmd ∉ wordTable.map Prod.fst := by decide
theorem witness_IllegalWord_reserved : ∀ w ∈ [0x200, 0x80000000], (pending w).status.busy = true ∧
    (pending w).cmd.extractLsb' 9 23 ≠ 0 := by decide
theorem witness_IllegalWord_opcode : ∀ w ∈ [0x03, 0x0F, 0x16, 0x1F, 0x22, 0x2F, 0x36, 0x37, 0x3A, 0xFF],
    (pending w).cmd.extractLsb' 9 23 = 0 ∧ (pending w).cmd.extractLsb' 0 8 = BitVec.ofNat 8 w ∧
      assignedOps.contains ((pending w).cmd.extractLsb' 0 8) = false := by decide
theorem witness_IllegalWord_family : ∀ w ∈ [0x100, 0x121, 0x12F], (pending w).cmd.getLsbD 8 = true ∧
    ((pending w).cmd.extractLsb' 0 8).toNat < 0x30 := by decide

theorem witness_IdleEngine : State.reset.status.busy = false ∧ State.reset.turns = [] ∧
    (withTurns State.reset [.engine]).turns = .engine :: [] := ⟨rfl, rfl, rfl⟩

theorem witness_StepKeepsTheInvariant : BlockInv (pending 0x130) ∧ isNext (step (pending 0x130)) = true := by decide

/-- The block two steps after reset, when the host writes `CMD` = 0x30. -/
def started : State := after (step (after (step (withTurns State.reset [regWrite Params.default .cmd 0x30]))))

theorem witness_PartialChunk : Reachable started ∧ started.latch.valid = true :=
  ⟨.step _ _ (.step _ _ (.start Params.default (by decide) _) (eq_next_after (by decide))) (eq_next_after (by decide)),
    by decide⟩

/-- The next turn writes or reads any register, idle or busy. -/
theorem witness_NextWrites (s : State) (r : Reg) (v : Word) :
    NextWrites (withTurns s [regWrite s.par r v]) r v [] ∧ NextReads (withTurns s [regRead s.par r]) r [] := ⟨rfl, rfl⟩

theorem witness_idle_and_busy : State.reset.status.busy = false ∧ (pending 0).status.busy = true := ⟨rfl, rfl⟩

theorem witness_Resets : (withTurns (pending 0) [.hardReset]).turns = .hardReset :: [] ∧
    NextWrites (withTurns (pending 0) [regWrite Params.default .ctrl 3]) .ctrl 3 [] ∧
    (3 : Word).getLsbD 0 = true := by decide

/-! #### Sources -/

/-- Source `k` ends one byte after `BUF`; every other source is held. -/
def farAt (k : Src) : State := withSrc oneEach k 0xFFFF 2

/-- Source `k` covers a written byte, then an unwritten one; every other source is held. -/
def holeAt (k : Src) : State := withSrc oneEach k (oneEach.ops.srcAddr k) 2

def allSrc : List Src := [.s0, .s1, .s2, .s3]

theorem witness_sources_positions : ∀ x ∈ wordTable, reads x.2 = allSrc.take (reads x.2).length := by decide

theorem witness_sources_range : ∀ k ∈ allSrc, ¬ SrcInRange (farAt k) k ∧ (farAt k).latch.valid = true ∧
    ∀ j ∈ allSrc, j ≠ k → Holds (farAt k) j [0] := by decide +kernel

theorem witness_sources_unwritten : ∀ k ∈ allSrc, SrcInRange (holeAt k) k ∧ (holeAt k).latch.valid = true ∧
    1 < ((holeAt k).ops.srcLen k).toNat ∧ (holeAt k).buf.read (((holeAt k).ops.srcAddr k).toNat + 1) = none ∧
    (∀ l, l < 1 → (holeAt k).buf.read (((holeAt k).ops.srcAddr k).toNat + l) ≠ none) ∧
    ∀ j ∈ allSrc, j ≠ k → Holds (holeAt k) j [0] := by decide +kernel

/-! #### Cipher, modes and padding: `blk n dst` has two sources of 16 and `n` bytes, `ecb`, `cbc` a valid ciphertext -/

def blk (n : Nat) (dst : Word) : State := place (zeros 16) (zeros n) [] [] dst 0 0

theorem witness_Blk_success : Holds (blk 16 65520) .s0 (zeros 16) ∧ Holds (blk 16 65520) .s1 (zeros 16) ∧
    (zeros 16).length = 16 ∧ Fits (blk 16 65520) .d0 16 := by decide +kernel
theorem witness_Blk_other_cipher : ∀ s ∈ [{ blk 16 65520 with par := { Params.default with cipher := .other } }],
    s.par.Legal ∧ Holds s .s0 (zeros 16) ∧ Holds s .s1 (zeros 16) ∧ Fits s .d0 16 ∧
      (after (exec .blkEnc s)).res0Len = 16 := by decide +kernel
theorem witness_Blk_validation : ∀ n ∈ [15, 17], Holds (blk n 0) .s0 (zeros 16) ∧ Holds (blk n 0) .s1 (zeros n) ∧
    (zeros n).length ≠ 16 := by decide +kernel
theorem witness_Blk_range : Holds (blk 16 65521) .s0 (zeros 16) ∧ Holds (blk 16 65521) .s1 (zeros 16) ∧
    (zeros 16).length = 16 ∧
    ¬ Fits (blk 16 65521) .d0 16 := by decide +kernel

/-- A plaintext of `p` zero bytes, a key of `k`, an IV or nonce of `v`, a replacement of `r`, at an offset. -/
def mode (p k v r : Nat) (dst off : Word) : State := place (zeros p) (zeros k) (zeros v) (zeros r) dst off 0

/-- The block holds those sources. -/
abbrev ModeHolds (p k v r : Nat) (dst off : Word) : Prop :=
  Holds (mode p k v r dst off) .s0 (zeros p) ∧ Holds (mode p k v r dst off) .s1 (zeros k) ∧
    Holds (mode p k v r dst off) .s2 (zeros v) ∧ Holds (mode p k v r dst off) .s3 (zeros r)

theorem witness_Enc_success : ∀ x ∈ [(0, 1, 65520), (15, 1, 65520), (16, 2, 65504)],
    ModeHolds x.1 16 16 0 (BitVec.ofNat 32 x.2.2) 0 ∧ 16 * x.2.1 = (zeros x.1).length + 16 - (zeros x.1).length % 16 ∧
      Fits (mode x.1 16 16 0 (BitVec.ofNat 32 x.2.2) 0) .d0 (16 * x.2.1) := by decide +kernel
theorem witness_Enc_validation : ∀ x ∈ [(15, 16), (16, 17), (17, 0)],
    ModeHolds 0 x.1 x.2 0 0 0 ∧ ((zeros x.1).length ≠ 16 ∨ (zeros x.2).length ≠ 16) ∧
      16 * 1 = (zeros 0).length + 16 - (zeros 0).length % 16 := by decide +kernel
theorem witness_Enc_range : ModeHolds 16 16 16 0 65505 0 ∧ (zeros 16).length = 16 ∧
    16 * 2 = (zeros 16).length + 16 - (zeros 16).length % 16 ∧ ¬ Fits (mode 16 16 16 0 65505 0) .d0 (16 * 2) := by
  decide +kernel

/-- A ciphertext block that decrypts to "abc" and its padding, by ECB or by CBC with a zero IV. -/
def abcCipher : List Byte := hex 16 0xb08b1f809a035064420d1d754022ab55

def decr (dst : Word) : State := place abcCipher key (zeros 16) [] dst 0 0

/-- Its decryption as the two statements write it. -/
theorem abc_decrypted :
    ((List.range 1).map fun i => (cipherOf (decr 0).par).dec (blockAt abcCipher i) key).flatten = abc ++ List.replicate 13 0x0D ∧
    ((List.range 1).map fun i => xorBytes ((cipherOf (decr 0).par).dec (blockAt abcCipher i) key)
      (if i = 0 then zeros 16 else blockAt abcCipher (i - 1))).flatten = abc ++ List.replicate 13 0x0D := by
  decide +kernel

theorem witness_Dec_success : Holds (decr 65533) .s0 abcCipher ∧ Holds (decr 65533) .s1 key ∧
    Holds (decr 65533) .s2 (zeros 16) ∧ 1 = abcCipher.length / 16 ∧ abcCipher.length % 16 = 0 ∧ key.length = 16 ∧
    PadCount 16 (abc ++ List.replicate 13 0x0D) 13 ∧ Fits (decr 65533) .d0 (16 * 1 - 13) := by decide +kernel
theorem witness_Dec_range : Holds (decr 65534) .s0 abcCipher ∧ Holds (decr 65534) .s1 key ∧
    Holds (decr 65534) .s2 (zeros 16) ∧ key.length = 16 ∧ abcCipher.length % 16 = 0 ∧ PadCount 16 (abc ++ List.replicate 13 0x0D) 13 ∧
    ¬ Fits (decr 65534) .d0 (16 * 1 - 13) := by decide +kernel
theorem witness_Dec_validation : ∀ x ∈ [(16, 15, 16), (15, 16, 16), (17, 16, 16), (16, 16, 15)],
    ModeHolds x.1 x.2.1 x.2.2 0 0 0 ∧
      ((zeros x.2.1).length ≠ 16 ∨ (zeros x.2.2).length ≠ 16 ∨ (zeros x.1).length % 16 ≠ 0) := by decide +kernel
theorem witness_Dec_padding_empty : ModeHolds 0 16 16 0 0 0 ∧ (zeros 0).length % 16 = 0 ∧ BadPadding 16 [] := by
  decide +kernel
theorem witness_Dec_padding_block : ModeHolds 16 16 16 0 0 0 ∧
    BadPadding 16 ((List.range 1).map fun i =>
      (cipherOf (mode 16 16 16 0 0 0).par).dec (blockAt (zeros 16) i) (zeros 16)).flatten := by decide +kernel

theorem witness_CtrXor_success : ∀ x ∈ [(0, 65536), (1, 65535), (17, 65519)],
    ModeHolds x.1 16 8 0 (BitVec.ofNat 32 x.2) 0 ∧ Fits (mode x.1 16 8 0 (BitVec.ofNat 32 x.2) 0) .d0 (zeros x.1).length := by
  decide +kernel
theorem witness_CtrXor_validation : ∀ x ∈ [(15, 8), (16, 7), (16, 9)],
    ModeHolds 3 x.1 x.2 0 0 0 ∧ ((zeros x.1).length ≠ 16 ∨ (zeros x.2).length ≠ 8) := by decide +kernel
theorem witness_CtrXor_range : ModeHolds 3 16 8 0 65534 0 ∧ (zeros 16).length = 16 ∧ (zeros 8).length = 8 ∧
    ¬ Fits (mode 3 16 8 0 65534 0) .d0 (zeros 3).length := by
  decide +kernel

theorem witness_CtrEdit_success : ∀ x ∈ [(0, 0), (43, 0), (40, 3), (0, 43), (15, 2)],
    ModeHolds 43 16 8 x.2 65493 (BitVec.ofNat 32 x.1) ∧ x.1 = (BitVec.ofNat 32 x.1 : Word).toNat ∧
      x.1 + (zeros x.2).length ≤ (zeros 43).length ∧
      Fits (mode 43 16 8 x.2 65493 (BitVec.ofNat 32 x.1)) .d0 (zeros 43).length := by decide +kernel
theorem witness_CtrEdit_validation : ∀ x ∈ [(16, 8, 40, 4), (16, 8, 44, 0), (15, 8, 0, 1), (16, 9, 0, 1)],
    ModeHolds 43 x.1 x.2.1 x.2.2.2 0 (BitVec.ofNat 32 x.2.2.1) ∧
      ((zeros x.1).length ≠ 16 ∨ (zeros x.2.1).length ≠ 8 ∨ (zeros 43).length < x.2.2.1 + (zeros x.2.2.2).length) := by
  decide +kernel
theorem witness_CtrEdit_range : ModeHolds 43 16 8 3 65494 40 ∧ (zeros 16).length = 16 ∧ (zeros 8).length = 8 ∧
    40 + (zeros 3).length ≤ (zeros 43).length ∧ ¬ Fits (mode 43 16 8 3 65494 40) .d0 (zeros 43).length := by
  decide +kernel
theorem witness_EditCost : isNext (exec .ctrEdit (mode 43 16 8 2 0 15)) = true ∧
    (after (exec .ctrEdit (mode 43 16 8 2 0 15))).status.err = .ok ∧ 0 < (mode 43 16 8 2 0 15).ops.src3Len.toNat := by
  decide +kernel

theorem witness_Pad_success : ∀ x ∈ [(0, 16, 65520), (1, 1, 65532), (255, 255, 65281)],
    Holds (place abc [] [] [] (BitVec.ofNat 32 x.2.2) (BitVec.ofNat 32 x.1) 0) .s0 abc ∧ (BitVec.ofNat 32 x.1 : Word).toNat ≤ 255 ∧
      x.2.1 = (if (BitVec.ofNat 32 x.1 : Word) = 0 then 16 else (BitVec.ofNat 32 x.1 : Word).toNat) ∧
      Fits (place abc [] [] [] (BitVec.ofNat 32 x.2.2) (BitVec.ofNat 32 x.1) 0) .d0 (padded abc x.2.1).length := by
  decide +kernel
theorem witness_Pad_range : Holds (place abc [] [] [] 65282 255 0) .s0 abc ∧ (255 : Word).toNat ≤ 255 ∧
    ¬ Fits (place abc [] [] [] 65282 255 0) .d0 (padded abc 255).length := by decide +kernel
theorem witness_Pad_validation : Holds (place abc [] [] [] 0 256 0) .s0 abc ∧ 255 < (256 : Word).toNat ∧
    256 = (if (256 : Word) = 0 then 16 else (256 : Word).toNat) := by decide +kernel

theorem witness_Unpad_success : ∀ x ∈ [(1, 65533), (4, 65533)],
    Holds (place (padded abc x.1) [] [] [] (BitVec.ofNat 32 x.2) (BitVec.ofNat 32 x.1) 0) .s0 (padded abc x.1) ∧
      PadCount x.1 (padded abc x.1) (x.1 - 3 % x.1) ∧
      Fits (place (padded abc x.1) [] [] [] (BitVec.ofNat 32 x.2) (BitVec.ofNat 32 x.1) 0) .d0
        ((padded abc x.1).length - (x.1 - 3 % x.1)) := by decide +kernel
theorem witness_Unpad_range : Holds (place (padded abc 4) [] [] [] 65534 4 0) .s0 (padded abc 4) ∧
    PadCount 4 (padded abc 4) 1 ∧ ¬ Fits (place (padded abc 4) [] [] [] 65534 4 0) .d0 ((padded abc 4).length - 1) := by
  decide +kernel
theorem witness_Unpad_padding : ∀ d ∈ [zeros 16, abc, hex 16 0x11, zeros 15 ++ [16], zeros 14 ++ [1, 2]],
    Holds (place d [] [] [] 0 0 0) .s0 d ∧ BadPadding 16 d := by decide +kernel

theorem witness_UnpadInvertsPad : ∀ B ∈ [1, 255], 1 ≤ B ∧ B ≤ 255 := by decide
theorem witness_UnpadIsStrict : ∀ x ∈ [(abc ++ [1], 1), (abc ++ [2], 2), (abc ++ [4, 4, 4, 4], 4), (abc ++ [4, 3, 4, 4], 4)],
    4 ≤ x.1.length ∧ (x.1.getD (x.1.length - 1) 0).toNat = x.2 ∧ 1 ≤ x.2 ∧ x.2 ≤ 4 := by decide

/-- The block after ECB_ENC of "abc", with the operands of the decryption. -/
def decrypting : State := withSrc (after (exec .ecbEnc (place abc key [] [] 65520 0 0))) .s0 65520 16

theorem witness_LegalCipher : (place abc key [] [] 65520 0 0).par.LegalCipher := fun h => nomatch h
theorem witness_EcbRoundTrip : (place abc key [] [] 65520 0 0).par.Legal ∧ Holds (place abc key [] [] 65520 0 0) .s0 abc ∧
    Holds (place abc key [] [] 65520 0 0) .s1 key ∧ key.length = 16 ∧
    Fits (place abc key [] [] 65520 0 0) .d0 (abc.length + 16 - abc.length % 16) ∧
    (after (exec .ecbEnc (place abc key [] [] 65520 0 0))).res0Len = decrypting.ops.src0Len ∧
    Holds decrypting .s1 key ∧ Fits decrypting .d0 abc.length := by decide +kernel

/-- The cipher that XORs the key. -/
def xorCipher : BlockCipher := { enc := xorBytes, dec := xorBytes }

theorem xor_twice : ∀ b k : List Byte, b.length = k.length → xorBytes (xorBytes b k) k = b
  | [], _, _ => by simp [xorBytes]
  | _ :: _, [], h => by simp at h
  | x :: b, y :: k, h => by
    have := xor_twice b k (by simpa using h)
    simp_all [xorBytes]

theorem witness_Lawful : Lawful xorCipher where
  enc_length b k hb hk := by simp [xorCipher, xorBytes, hb, hk]
  dec_length b k hb hk := by simp [xorCipher, xorBytes, hb, hk]
  dec_enc b k hb hk := xor_twice b k (hb.trans hk.symm)

theorem witness_CbcRoundTripAndBitFlips : key.length = 16 ∧ iv.length = 16 ∧ 16 * 1 = (padded abc 16).length ∧
    (zeros 32).length = 16 * 2 ∧ 1 ≤ 1 ∧ 1 < 2 ∧ 0 < 16 ∧ 15 < 16 := by decide
theorem witness_CtrEditThenDecrypt : key.length = 16 ∧ nonce.length = 8 ∧ 40 + (zeros 3).length ≤ fox.length ∧
    43 + (zeros 0).length ≤ fox.length := by decide

/-! #### Hash, MAC and forgery -/

/-- A latch of family `f` after `n` zero bytes. -/
def hashing (f : Family) (n : Nat) : Latch := absorb (initLatch f) (zeros n)

theorem witness_HAbsorb : ∀ x ∈ [(0, 0), (0, 64), (63, 1), (1, 62)], ∀ f ∈ [Family.A, Family.B],
    (withLatch (blk x.2 0) (hashing f x.1)).latch.valid = true ∧
      Holds (withLatch (place (zeros x.2) [] [] [] 0 0 0) (hashing f x.1)) .s0 (zeros x.2) ∧ f = (hashing f x.1).fam := by
  decide +kernel
theorem witness_Hash_state : State.reset.latch.valid = false := rfl
theorem witness_Hash_family : Holds (withLatch (place [0] [] [] [] 0 0 0) (hashing .B 0)) .s0 [0] ∧
    (withLatch (place [0] [] [] [] 0 0 0) (hashing .B 0)).latch.valid = true ∧
    Family.A ≠ (withLatch (place [0] [] [] [] 0 0 0) (hashing .B 0)).latch.fam := by decide
theorem witness_compression : (zeros 64).length = 64 ∧ md4Steps.length = 48 ∧
    ∀ n ∈ [0, 15, 16, 31, 32, 47], ∃ js ∈ md4Steps, md4Steps[n]? = some js := by decide
theorem witness_parse : ∀ f ∈ [Family.A, Family.B], (zeros (4 * f.words)).length = 4 * f.words ∧ 3 < f.words := by decide
theorem witness_MdPadding : ∀ x ∈ [(55, 9), (56, 72)], (mdpad .B true (BitVec.ofNat 64 x.1)).length = x.2 ∧
    (9 < x.2 → 1 ≤ 63 ∧ 63 + 8 < x.2) := by decide
theorem witness_HFinal_fits : ∀ x ∈ [(Family.A, 65516), (Family.B, 65520)],
    (hashing x.1 9).valid = true ∧ x.1 = (hashing x.1 9).fam ∧
      Fits (withLatch (place [] [] [] [] (BitVec.ofNat 32 x.2) 0 0) (hashing x.1 9)) .d0 (4 * x.1.words) := by decide +kernel
theorem witness_HFinal_range : ∀ x ∈ [(Family.A, 65517), (Family.B, 65521)],
    (hashing x.1 9).valid = true ∧ x.1 = (hashing x.1 9).fam ∧ LatchInv (hashing x.1 9) ∧
    ¬ Fits (withLatch (place [] [] [] [] (BitVec.ofNat 32 x.2) 0 0) (hashing x.1 9)) .d0 (4 * x.1.words) := by
  decide +kernel
theorem witness_HMdpad : ∀ x ∈ [(55, 65527, 9), (56, 65464, 72)],
    (mdpad .A false (BitVec.ofNat 64 x.1)).length = x.2.2 ∧
      Fits (place [] [] [] [] (BitVec.ofNat 32 x.2.1) (BitVec.ofNat 32 x.1) 0) .d0 x.2.2 ∧
      ¬ Fits (place [] [] [] [] (BitVec.ofNat 32 (x.2.1 + 1)) (BitVec.ofNat 32 x.1) 0) .d0 x.2.2 := by decide
theorem witness_HImport : ∀ x ∈ [(20, 0, 0), (20, 0, 64), (20, 1, 0), (20, 0, 63), (20, 1, 1), (19, 0, 0), (16, 0, 0)],
    Holds (place (zeros x.1) [] [] [] 0 (BitVec.ofNat 32 x.2.2) (BitVec.ofNat 32 x.2.1)) .s0 (zeros x.1) := by
  decide +kernel

theorem witness_Mac : ∀ x ∈ [(Family.A, 65516), (Family.B, 65520)],
    Holds (place message yellow [] [] (BitVec.ofNat 32 x.2) 0 0) .s0 message ∧
      Holds (place message yellow [] [] (BitVec.ofNat 32 x.2) 0 0) .s1 yellow ∧
      Fits (place message yellow [] [] (BitVec.ofNat 32 x.2) 0 0) .d0 (4 * x.1.words) ∧
      ¬ Fits (place message yellow [] [] (BitVec.ofNat 32 (x.2 + 1)) 0 0) .d0 (4 * x.1.words) := by decide +kernel

abbrev ForgeHolds (d : List Byte) (dst0 dst1 : Word) : Prop :=
  Holds (forging d dst0 dst1) .s0 message ∧ Holds (forging d dst0 dst1) .s1 suffix ∧ Holds (forging d dst0 dst1) .s2 d

/-- The forged message is 77 + 35 + 11 bytes long. -/
theorem forged_length : message.length + (mdpad .A false (BitVec.ofNat 64 (16 + message.length))).length + suffix.length =
    123 := by decide
theorem witness_Forge_success : ForgeHolds (zeros 20) 65516 65413 ∧ (zeros 20).length = 4 * Family.A.words ∧
    Fits (forging (zeros 20) 65516 65413) .d1 123 ∧ Fits (forging (zeros 20) 65516 65413) .d0 20 := by decide +kernel
theorem witness_Forge_range : (zeros 20).length = 4 * Family.A.words ∧ ForgeHolds (zeros 20) 65517 65413 ∧ ForgeHolds (zeros 20) 65516 65414 ∧
    ¬ Fits (forging (zeros 20) 65517 65413) .d0 20 ∧ ¬ Fits (forging (zeros 20) 65516 65414) .d1 123 := by decide +kernel
theorem witness_Forge_validation : ForgeHolds (zeros 16) 0 0x600 ∧ (zeros 16).length ≠ 4 * Family.A.words := by
  decide +kernel

/-- H_FINAL of a valid latch, then the operands that import its digest. -/
def finishing : State := withLatch (place [] [] [] [] 0x500 0 0) (hashing .A 9)
def importing (s : State) (ld : Word) : State := { withSrc s .s0 0x500 20 with ops := { (withSrc s .s0 0x500 20).ops with arg0 := ld } }

theorem witness_ContinuationIdentity : LatchInv finishing.latch ∧ finishing.latch.valid = true ∧
    Family.A = finishing.latch.fam ∧ Fits finishing .d0 (4 * Family.A.words) ∧
    (output (after (exec (.hFinal .A) finishing)) .d0).length = 4 * Family.A.words ∧
    BytesAt (after (exec (.hFinal .A) finishing)).buf 0x500 (output (after (exec (.hFinal .A) finishing)) .d0) ∧
    Holds (importing (after (exec (.hFinal .A) finishing)) 64) .s0 (output (after (exec (.hFinal .A) finishing)) .d0) ∧
    (importing (after (exec (.hFinal .A) finishing)) 64).ops.arg64 =
      finishing.latch.len + BitVec.ofNat 64 (mdpad .A finishing.blenBits finishing.latch.len).length := by decide +kernel

/-- H_EXPORT of a latch after `n` bytes. -/
def exporting (n : Nat) : State := withLatch (place [] [] [] [] 0x500 0 0) (hashing .A n)

theorem witness_ExportImport : ∀ n ∈ [64, 65], LatchInv (exporting n).latch ∧ (exporting n).latch.valid = true ∧
    ((exporting n).latch.part = [] ↔ n = 64) ∧ Fits (exporting n) .d0 20 ∧
    BytesAt (after (exec (.hExport .A) (exporting n))).buf 0x500 (output (after (exec (.hExport .A) (exporting n))) .d0) ∧
    Holds (importing (after (exec (.hExport .A) (exporting n))) (BitVec.ofNat 32 n)) .s0
      (output (after (exec (.hExport .A) (exporting n))) .d0) ∧
    (importing (after (exec (.hExport .A) (exporting n))) (BitVec.ofNat 32 n)).ops.arg64 = (exporting n).latch.len := by
  decide +kernel

/-- The block that makes the MAC, and the block that checks the forgery. -/
def macing : State := place message yellow [] [] 0x500 0 0
def verifying : State := place forgedMessage yellow [] [] 0x500 0 0

/-- `Holds` by one read. -/
theorem holds_of_source {s : State} {k : Src} {d : List Byte} (h : source s k = .ok d) : Holds s k d :=
  (source_ok_iff s k d).mp h

/-- `BytesAt` by one read. -/
theorem bytesAt_of_read {m : Memory} {a n : Nat} {d : List Byte} (h : m.readBytes a n = .ok d) : BytesAt m a d :=
  ((Memory.readBytes_ok_iff m n a d).mp h).2

theorem witness_ForgeryCorrectness_mac : macing.par.Legal ∧ Holds macing .s0 message ∧ Holds macing .s1 yellow ∧
    Fits macing .d0 20 ∧ BytesAt (after (exec (.mac .A) macing)).buf 0x500 macA := by decide +kernel
theorem witness_ForgeryCorrectness_forge : ForgeHolds macA 0x500 0x600 ∧
    (forging macA 0x500 0x600).ops.arg0.toNat = yellow.length ∧ Fits (forging macA 0x500 0x600) .d0 20 ∧
    Fits (forging macA 0x500 0x600) .d1 123 ∧ 0x500 + 20 ≤ 0x600 := by decide +kernel
theorem witness_ForgeryCorrectness_verify : forgedMessage.length = forged.res1Len.toNat ∧
    BytesAt forged.buf 0x600 forgedMessage ∧ forgedDigest.length = 20 ∧ BytesAt forged.buf 0x500 forgedDigest ∧
    Holds verifying .s0 forgedMessage ∧ Holds verifying .s1 yellow ∧ verifying.blenBits = macing.blenBits ∧
    Fits verifying .d0 20 :=
  ⟨by decide +kernel, bytesAt_of_read test_forge_A_message, by decide, bytesAt_of_read test_forge_A,
    holds_of_source (by decide +kernel), holds_of_source (by decide +kernel), rfl, by decide⟩

/-- The four commands that FORGE is equal to, each on a block of its own. -/
def padder : State := place [] [] [] [] 0x400 93 0
def importer : State := place macA [] [] [] 0 128 0
def absorber : State := withLatch (place suffix [] [] [] 0 0 0) (after (exec (.hImport .A) importer)).latch
def finisher : State := withLatch (place [] [] [] [] 0x500 0 0) (after (exec (.hAbsorb .A) absorber)).latch

theorem witness_ForgeEqualsItsSteps : ForgeHolds macA 0x500 0x600 ∧ macA.length = 4 * Family.A.words ∧
    BitVec.ofNat 64 ((forging macA 0x500 0x600).ops.arg0.toNat + message.length) = padder.ops.arg64 ∧
    Fits padder .d0 35 ∧ (mdpad .A false padder.ops.arg64).length = 35 ∧ Holds importer .s0 macA ∧
    importer.ops.arg64 = padder.ops.arg64 + BitVec.ofNat 64 35 ∧ Holds absorber .s0 suffix ∧
    absorber.latch = (after (exec (.hImport .A) importer)).latch ∧
    finisher.latch = (after (exec (.hAbsorb .A) absorber)).latch ∧ Fits finisher .d0 20 := by decide +kernel

/-! #### All commands -/

theorem witness_completion : isNext (exec .nop State.reset) = true ∧ (pending 0).status.busy = true ∧
    isNext (engineTurn (pending 0)) = true := by decide
theorem witness_undecodable : ∀ w ∈ [0x101, 0x200, 0x36], (pending w).status.busy = true ∧
    (∃ e ∈ [DecodeError.familyOnNonHash, .reservedBits, .unassignedOp], decode (pending w).cmd = .error e) ∧
    isNext (engineTurn (pending w)) = true := by decide
theorem witness_failure : (after (exec .unpad (place abc [] [] [] 0 0 0))).status.err ≠ .ok ∧
    (after (engineTurn (pending 0x101))).status.err ≠ .ok := by decide +kernel
theorem witness_OnlyUnwrittenBytesStop : faultsAt (exec .pad (withSrc State.reset .s0 0xFFFF 1)) 0xFFFF = true := by
  decide +kernel

/-- `n` zero bytes from `a` on. -/
def zeroMemory (a n : Nat) : Memory := (List.range' a n).map fun x => (x, 0)

theorem zeroMemory_read : ∀ n a b : Nat, a ≤ b → b < a + n → Memory.read (zeroMemory a n) b ≠ none
  | 0, _, _, h, h' => by omega
  | n + 1, a, b, h, h' => by
    by_cases e : a = b
    · simp [zeroMemory, List.range'_succ, Memory.read, e]
    · have := zeroMemory_read n (a + 1) b (by omega) (by omega)
      simpa [zeroMemory, List.range'_succ, Memory.read, e] using this

/-- A block of 4096 bytes, all written. -/
def written : State :=
  { State.reset with par := { cipher := .other, bufBytes := 4096, base := 0x2000000, bufOffset := 0x1000 }, buf := zeroMemory 0 4096 }

theorem witness_every_byte_written : written.par.Legal ∧ ∀ a, a < written.par.bufBytes → written.buf.read a ≠ none :=
  ⟨by decide, fun a h => zeroMemory_read 4096 0 a (Nat.zero_le _) (by simpa [written] using h)⟩

theorem witness_CommandOutcomeIsDetermined : ∀ w ∈ [0x38, 0x100, 0x20],
    (withSrc (pending w) .s0 0 1).status.busy = true ∧
      { withSrc (pending w) .s0 0 1 with ciphCnt := 7 } ≠ withSrc (pending w) .s0 0 1 ∧
      (if w = 0x100 then isNext (engineTurn (withSrc (pending w) .s0 0 1)) = true
        else faultsAt (engineTurn (withSrc (pending w) .s0 0 1)) 0 = true) := by decide +kernel

theorem witness_CommandsStoreOnly : State.reset.par.Legal ∧ isNext (exec (.forge .A) (forging macA 0x500 0x600)) = true ∧
    forged.status.err = .ok ∧ forged.ops.dst0Addr.toNat + forged.res0Len.toNat = 0x514 ∧
    forged.ops.dst1Addr.toNat + forged.res1Len.toNat = 0x67B := by decide +kernel

theorem witness_CommandsStoreNothing : ∀ i ∈ [Instr.nop, .hInit .A, .hAbsorb .A, .hImport .A],
    isNext (exec i oneEach) = true := by decide +kernel
theorem witness_CommandsStoreAtOne : (∀ f, Instr.mac .A ≠ .forge f) ∧ isNext (exec (.mac .A) (place abc key [] [] 65516 0 0)) = true ∧
    (after (exec (.mac .A) (place abc key [] [] 65516 0 0))).status.err = .ok ∧
    (after (exec (.mac .A) (place abc key [] [] 65516 0 0))).res0Len = 20 :=
  ⟨fun _ h => (nomatch h), by decide +kernel⟩

theorem witness_LatchChanges_command : isNext (step (pending 0x30)) = true ∧
    (after (step (pending 0x30))).latch ≠ (pending 0x30).latch := by decide
theorem witness_LatchChanges_reset : ∀ t ∈ [Turn.hardReset, regWrite Params.default .ctrl 1],
    isNext (step (withTurns oneEach [t])) = true ∧ (after (step (withTurns oneEach [t]))).latch ≠ oneEach.latch := by
  decide +kernel

/-! #### The host's side -/

theorem witness_read_only : ∀ off ∈ [0x000, 0x040, 0x044, 0x050, 0x05C, 0x074, 0x07C, 0x0C0, 0xFFC],
    (off = 0x000 ∨ off = 0x040 ∨ off = 0x044 ∨ (0x050 ≤ off ∧ off ≤ 0xFFC)) ∧ off % 4 = 0 := by decide
theorem witness_drawn : ∀ off ∈ [0x040, 0x058, 0x060, 0x070, 0x080, 0x0BC],
    ((0x040 ≤ off ∧ off ≤ 0x058) ∨ (0x060 ≤ off ∧ off ≤ 0x070) ∨ (0x080 ≤ off ∧ off ≤ 0x0BC)) ∧ off % 4 = 0 := by decide
theorem witness_readout : (hashing .A 63).part.length < 64 := by decide

theorem witness_Buffer : ∀ w ∈ [1, 2, 4], ∀ a ∈ [0, 65536 - w], Params.default.Legal ∧ a % w = 0 ∧
    a < Params.default.bufBytes ∧ BytesAt (Memory.writeBytes [] a (zeros w)) a (zeros w) := by decide +kernel

theorem witness_Buffer_unwritten : ∀ w ∈ [1, 2, 4], ∀ a ∈ [0, 65536 - w],
    faultsAt (step (withTurns { State.reset with buf := Memory.writeBytes [] a (zeros (w - 1)) }
      [.access (.read (0x10000 + a) w)])) (a + w - 1) = true := by decide +kernel

theorem witness_IllegalAccesses_register : ∀ x ∈ [(0x000, 1), (0x002, 4), (0xFFC, 2), (0xFFF, 4), (0x008, 0)],
    x.1 < Params.default.base + 0x1000 ∧ (x.2 ≠ 4 ∨ x.1 % 4 ≠ 0) := by decide
theorem witness_IllegalAccesses_buffer : ∀ x ∈ [(0x10000, 3), (0x10000, 0), (0x10001, 2), (0x1FFFD, 4), (0x10000, 8)],
    Params.default.base + Params.default.bufOffset ≤ x.1 ∧
      x.1 < Params.default.base + Params.default.bufOffset + Params.default.bufBytes ∧
      ((x.2 ≠ 1 ∧ x.2 ≠ 2 ∧ x.2 ≠ 4) ∨ x.1 % x.2 ≠ 0) := by decide
theorem witness_IllegalAccesses_hole : ∀ a ∈ [0x1000, 0xFFFF, 0x20000, 0x1FFFFFF],
    Params.default.base + 0x1000 ≤ a ∧ a < Params.default.base + 2 ^ 25 ∧
      (a < Params.default.base + Params.default.bufOffset ∨
        Params.default.base + Params.default.bufOffset + Params.default.bufBytes ≤ a) := by decide

theorem witness_Aes : (zeros 16).length = 16 ∧ key.length = 16 := by decide

/-- A line `H_MDPAD.B DST=0x40 A64=2^32`. -/
def padLine : CommandLine := { mnemonic := .H_MDPAD, family := some .B, operands := [.dst .d0 0x40, .a64 0x100000000] }

theorem witness_CommandLine : padLine.wf = true ∧ State.reset.status.busy = false ∧
    (withTurns State.reset (expandCommand State.reset.par padLine ++ [])).turns = expandCommand State.reset.par padLine ++ [] ∧
    isNext (exec (lineInstr padLine) (pending 0)) = true := by decide

/-- PUT and GET up to the last byte of `BUF`, and of no byte. -/
theorem witness_PutGet : Params.default.Legal ∧ ∀ d ∈ [[], abc], 65536 - d.length + d.length ≤ Params.default.bufBytes ∧
    BytesAt (Memory.writeBytes [] (65536 - d.length) d) (65536 - d.length) d := by decide +kernel

/-- Each of the other lines is the next action of a block. -/
theorem witness_HostLines (s : State) (l : HostLine) :
    (withTurns s (expand s.par l)).turns = expand (withTurns s (expand s.par l)).par l ++ [] := by simp [withTurns]

/-- CHECK of a block that has failed with PADDING, code 2 (`60_exceptions.md` R245). -/
theorem test_check : checkHolds 2 (after (exec .unpad (place abc [] [] [] 0 0 0))).status.word = true ∧
    checkHolds 0 (after (exec .unpad (place abc [] [] [] 0 0 0))).status.word = false := by decide +kernel

end Sys2Proof.Tests
end

section
/-! PROOFS. What a command can do: the errors it raises, where it stores, what it leaves in the latch; its frame over the
registers and over `BUF`. -/

namespace Sys2Proof.Machine

open Sys2Proof.Claims Sys2Proof.Safety

/-! ### A command's pseudocode -/

/-- A command's pseudocode that ends in a value ends in one that meets `P`, and what it raises is an error. -/
def Ends {α : Type} (P : α → Prop) (x : Except Stop α) : Prop :=
  (∀ a, x = .ok a → P a) ∧ ∀ e, x = .error (.raise e) → e ≠ .ok

variable {α β : Type} {P : α → Prop} {Q : β → Prop}

theorem Ends.pure {a : α} (h : P a) : Ends P (pure a) := ⟨fun _ hb => Except.ok.inj hb ▸ h, fun _ hb => nomatch hb⟩

theorem Ends.bind {x : Except Stop α} {f : α → Except Stop β} (hx : Ends P x) (hf : ∀ a, P a → Ends Q (f a)) :
    Ends Q (x >>= f) := by
  obtain ⟨hok, hraise⟩ := hx
  constructor
  · intro b hb
    obtain ⟨a, ha, hb⟩ := (bind_ok_iff x f b).mp hb
    exact (hf a (hok a ha)).1 b hb
  · intro e he
    rcases (bind_error_iff x f _).mp he with he | ⟨a, ha, he⟩
    · exact hraise e he
    · exact (hf a (hok a ha)).2 e he

theorem Ends.bind_source {s : State} {k : Src} {f : List Byte → Except Stop β} (h : ∀ d, Ends Q (f d)) :
    Ends Q (source s k >>= f) := by
  refine Ends.bind (P := fun _ => True) ⟨fun _ _ => trivial, fun e he => ?_⟩ fun d _ => h d
  obtain ⟨rfl, -⟩ := (source_raise_iff s k e).mp he
  decide

theorem Ends.bind_check {c : Bool} {e : Err} {f : Unit → Except Stop β} (he : e ≠ .ok) (h : c = true → Ends Q (f ())) :
    Ends Q (check c e >>= f) := by
  refine Ends.bind (P := fun _ => c = true) ⟨fun u hu => (check_ok_iff c e u).mp hu, fun e' he' => ?_⟩ fun _ hc => h hc
  obtain ⟨-, he'⟩ := (check_error_iff c e _).mp he'
  exact Stop.raise.inj he' ▸ he

theorem Ends.bind_need {c : Bool} {f : Unit → Except Stop β} (h : c = true → Ends Q (f ())) : Ends Q (need c >>= f) :=
  Ends.bind_check (e := .validation) (by decide) h

theorem Ends.bind_unpad {q : List Byte} {B : Nat} {f : List Byte → Except Stop β} (h : ∀ p, Ends Q (f p)) :
    Ends Q (pkcs7Unpad q B >>= f) := by
  refine Ends.bind (P := fun _ => True) ⟨fun _ _ => trivial, fun e he => ?_⟩ fun p _ => h p
  rw [Stop.raise.inj (pkcs7Unpad_error q B _ he)]
  decide

/-! ### What a command stores -/

/-- The destinations a command stores to (`30_encoding.md` R86). -/
def destinations : Instr → List Dst
  | .nop | .hInit _ | .hAbsorb _ | .hImport _ => []
  | .forge _ => [.d0, .d1]
  | .blkEnc | .blkDec | .ecbEnc | .ecbDec | .cbcEnc | .cbcDec | .ctrXor | .ctrEdit | .pad | .unpad
  | .hFinal _ | .hMdpad _ | .hExport _ | .mac _ => [.d0]

/-- The result length gathered for a destination (`10_state.md` R29). -/
def Effect.resLen (e : Effect) : Dst → Nat
  | .d0 => e.res0
  | .d1 => e.res1

/-- Every pending write starts at one of the destinations `ds` and is as long as its result length, and the result length
of a destination not among them is 0. -/
structure Stores (s : State) (ds : List Dst) (e : Effect) : Prop where
  written : ∀ w ∈ e.pending, ∃ k ∈ ds, w.1 = (s.ops.dstAddr k).toNat ∧ w.2.length = e.resLen k
  unused  : ∀ k, k ∉ ds → e.resLen k = 0

theorem Effect.emit_resLen (e : Effect) (s : State) (k j : Dst) (d : List Byte) :
    (e.emit s k d).resLen j = if j = k then d.length else e.resLen j := by
  cases k <;> cases j <;> rfl

theorem Stores.start (s : State) : Stores s [] (Effect.start s) :=
  ⟨fun _ hw => by simp at hw, fun k _ => by cases k <;> rfl⟩

theorem Stores.emit {s : State} {ds : List Dst} {e : Effect} (h : Stores s ds e) {k : Dst} (hk : k ∉ ds)
    (d : List Byte) : Stores s (k :: ds) (e.emit s k d) := by
  refine ⟨fun w hw => ?_, fun j hj => ?_⟩
  · rw [Effect.emit_pending, List.mem_append, List.mem_singleton] at hw
    rcases hw with hw | rfl
    · obtain ⟨j, hj, haddr, hlen⟩ := h.written w hw
      have hjk : j ≠ k := fun hjk => hk (hjk ▸ hj)
      exact ⟨j, List.mem_cons_of_mem _ hj, haddr, by rw [Effect.emit_resLen, if_neg hjk, hlen]⟩
    · exact ⟨k, List.mem_cons_self, rfl, by rw [Effect.emit_resLen, if_pos rfl]⟩
  · rw [List.mem_cons, not_or] at hj
    obtain ⟨hjk, hj⟩ := hj
    rw [Effect.emit_resLen, if_neg hjk, h.unused j hj]

theorem Stores.count {s : State} {ds : List Dst} {e : Effect} (h : Stores s ds e) (c n : Nat) :
    Stores s ds (e.count c n) := ⟨h.written, h.unused⟩

theorem Stores.latch {s : State} {ds : List Dst} {e : Effect} (h : Stores s ds e) (l : Latch) :
    Stores s ds (e.latch l) := ⟨h.written, h.unused⟩

/-- One result in `DST0`. -/
theorem stores_d0 (s : State) (d : List Byte) : Stores s [.d0] ((Effect.start s).emit s .d0 d) :=
  (Stores.start s).emit (by simp) d

/-! ### What a command gathers for its commit -/

/-- What command `i` has gathered when it comes to its commit: writes to its destinations only, and a new latch value only
if it is one of the commands that write the latch, which then keeps the latch invariant. -/
structure Gathers (i : Instr) (s : State) (e : Effect) : Prop where
  stores : Stores s (destinations i) e
  keeps  : writesLatch i = false → e.newL = s.latch
  inv    : LatchInv s.latch → LatchInv e.newL

/-- A command that leaves the latch alone. -/
theorem Gathers.keeping {i : Instr} {s : State} {e : Effect} (hs : Stores s (destinations i) e) (hl : e.newL = s.latch) :
    Gathers i s e := ⟨hs, fun _ => hl, fun h => hl ▸ h⟩

/-- A command that writes the latch. -/
theorem Gathers.writing {i : Instr} {s : State} {e : Effect} (hw : writesLatch i = true)
    (hs : Stores s (destinations i) e) (hl : LatchInv s.latch → LatchInv e.newL) : Gathers i s e :=
  ⟨hs, fun h => absurd hw (by simp [h]), hl⟩

/-- Absorbing into a valid latch and then finishing it keeps the latch invariant. -/
theorem latchInv_absorb_absorb (L : Latch) (x p : List Byte) (h : LatchInv L) (hv : L.valid = true) :
    LatchInv (absorb (absorb L x) p) := latchInv_absorb _ p (latchInv_absorb L x h hv) hv

/-- Every command is one `perform` of a pseudocode that raises only errors and gathers what its row of
`30_encoding.md` R86 allows. -/
theorem exec_gathers (i : Instr) (s : State) : ∃ body, exec i s = perform s body ∧ Ends (Gathers i s) body := by
  cases i with
  | nop => exact ⟨_, rfl, .pure (.keeping (.start s) rfl)⟩
  | blkEnc | blkDec | ecbEnc =>
    exact ⟨_, rfl, .bind_source fun _ => .bind_source fun _ => .bind_need fun _ =>
      .pure (.keeping ((stores_d0 s _).count _ _) rfl)⟩
  | ecbDec =>
    exact ⟨_, rfl, .bind_source fun _ => .bind_source fun _ => .bind_need fun _ => .bind_unpad fun _ =>
      .pure (.keeping ((stores_d0 s _).count _ _) rfl)⟩
  | cbcEnc | ctrXor =>
    exact ⟨_, rfl, .bind_source fun _ => .bind_source fun _ => .bind_source fun _ => .bind_need fun _ =>
      .pure (.keeping ((stores_d0 s _).count _ _) rfl)⟩
  | cbcDec =>
    exact ⟨_, rfl, .bind_source fun _ => .bind_source fun _ => .bind_source fun _ => .bind_need fun _ =>
      .bind_unpad fun _ => .pure (.keeping ((stores_d0 s _).count _ _) rfl)⟩
  | ctrEdit =>
    exact ⟨_, rfl, .bind_source fun _ => .bind_source fun _ => .bind_source fun _ => .bind_source fun _ =>
      .bind_need fun _ => .bind_need fun _ => .pure (.keeping ((stores_d0 s _).count _ _) rfl)⟩
  | pad => exact ⟨_, rfl, .bind_source fun _ => .bind_need fun _ => .pure (.keeping (stores_d0 s _) rfl)⟩
  | unpad =>
    exact ⟨_, rfl, .bind_source fun _ => .bind_need fun _ => .bind_unpad fun _ =>
      .pure (.keeping (stores_d0 s _) rfl)⟩
  | hInit f => exact ⟨_, rfl, .pure (.writing rfl ((Stores.start s).latch _) fun _ => latchInv_init f)⟩
  | hAbsorb f =>
    exact ⟨_, rfl, .bind_check (by decide) fun hv => .bind_source fun d => .bind_need fun _ =>
      .pure (.writing rfl (((Stores.start s).latch _).count _ _) fun h => latchInv_absorb s.latch d h hv)⟩
  | hFinal f =>
    exact ⟨_, rfl, .bind_check (by decide) fun hv => .bind_need fun _ =>
      .pure (.writing rfl (((stores_d0 s _).latch _).count _ _) fun h => latchInv_absorb s.latch _ h hv)⟩
  | hMdpad f => exact ⟨_, rfl, .pure (.keeping (stores_d0 s _) rfl)⟩
  | hImport f =>
    exact ⟨_, rfl, .bind_source fun t => .bind_need fun _ => .bind_check (by decide) fun ha =>
      .pure (.writing rfl ((Stores.start s).latch _) fun _ => latchInv_import f t _ (by simpa using ha))⟩
  | hExport f =>
    exact ⟨_, rfl, .bind_check (by decide) fun _ => .bind_need fun _ => .pure (.keeping (stores_d0 s _) rfl)⟩
  | mac f =>
    exact ⟨_, rfl, .bind_source fun m => .bind_source fun k =>
      .pure (.writing rfl (((stores_d0 s _).latch _).count _ _) fun _ =>
        latchInv_absorb_absorb (initLatch f) (k ++ m) _ (latchInv_init f) rfl)⟩
  | forge f =>
    exact ⟨_, rfl, .bind_source fun m => .bind_source fun x => .bind_source fun t => .bind_need fun _ =>
      .bind_check (by decide) fun ha =>
      .pure (.writing rfl (((((Stores.start s).emit (by simp) _).emit (by simp) _).latch _).count _ _) fun _ =>
        latchInv_absorb_absorb (importLatch f t _) x _ (latchInv_import f t _ (by simpa using ha)) rfl)⟩

/-- What a command that ends in a next state has done: it failed with a code that is an error, or it committed what it has
gathered, every write of it in range. -/
theorem exec_next_cases {i : Instr} {s t : State} (h : exec i s = .next t) :
    (∃ e, e ≠ .ok ∧ t = s.complete e) ∨
      ∃ e, Gathers i s e ∧ e.fits s = true ∧ t = (s.commit e).complete .ok := by
  obtain ⟨body, hbody, hok, hraise⟩ := exec_gathers i s
  rw [hbody, perform_next_iff] at h
  rcases h with ⟨e, he, rfl⟩ | ⟨e, he, hfits, rfl⟩ | ⟨e, -, -, rfl⟩
  · exact .inl ⟨e, hraise e he, rfl⟩
  · exact .inr ⟨e, hok e he, hfits, rfl⟩
  · exact .inl ⟨.range, by decide, rfl⟩

/-- Settles O35: a command ends by completing the state it has left or committed to, and neither touches these fields. -/
theorem commandsKeepTheOtherRegisters : Obligations.CommandsKeepTheOtherRegisters := by
  intro i s t h
  rcases exec_next_cases h with ⟨e, -, rfl⟩ | ⟨e, -, -, rfl⟩
  · simp
  · simp

/-! ### The frame of `BUF` -/

/-- A byte outside every pending write reads as before. -/
theorem Memory.read_writeAll_outside : ∀ (w : List (Nat × List Byte)) (m : Memory) (a : Nat),
    (∀ p ∈ w, a < p.1 ∨ p.1 + p.2.length ≤ a) → (m.writeAll w).read a = m.read a
  | [], _, _, _ => rfl
  | (b, d) :: w, m, a, h => by
    rw [Memory.writeAll, Memory.read_writeAll_outside w _ a fun p hp => h p (List.mem_cons_of_mem _ hp),
      Memory.read_writeBytes_outside m b d a (h (b, d) List.mem_cons_self)]

/-- Each destination check of a commit (`60_exceptions.md` R248). -/
theorem Effect.fits_iff (e : Effect) (s : State) :
    e.fits s = true ↔ ∀ w ∈ e.pending, w.1 + w.2.length ≤ s.par.bufBytes := by
  simp [Effect.fits, inRange]

/-- The result length register of a destination (`10_state.md` R29). -/
def State.resLen (s : State) : Dst → Word
  | .d0 => s.res0Len
  | .d1 => s.res1Len

theorem State.commit_resLen (s : State) (e : Effect) (k : Dst) : (s.commit e).resLen k = BitVec.ofNat 32 (e.resLen k) := by
  cases k <;> rfl

/-- A commit changes no byte outside the destination regions, each as long as its result length register then says. -/
theorem read_commit_outside {s : State} {ds : List Dst} {e : Effect} (hp : s.par.Legal) (hs : Stores s ds e)
    (hf : e.fits s = true) (a : Nat)
    (ha : ∀ k ∈ ds, a < (s.ops.dstAddr k).toNat ∨ (s.ops.dstAddr k).toNat + ((s.commit e).resLen k).toNat ≤ a) :
    (s.commit e).buf.read a = s.buf.read a := by
  refine Memory.read_writeAll_outside _ _ _ fun w hw => ?_
  obtain ⟨k, hk, haddr, hlen⟩ := hs.written w hw
  have hbuf := (legal_facts s.par hp).2.1
  have hfit := (e.fits_iff s).mp hf w hw
  have hword : ((s.commit e).resLen k).toNat = w.2.length := by
    rw [State.commit_resLen, BitVec.toNat_ofNat, ← hlen, Nat.mod_eq_of_lt (by omega)]
  have := ha k hk
  rwa [hword, ← haddr] at this

/-- Settles O36: a failure leaves `BUF` alone, and a commit writes the regions of `destinations` only. -/
theorem commandsStoreOnlyToTheirDestinations : Obligations.CommandsStoreOnlyToTheirDestinations := by
  intro i s t hp h
  rcases exec_next_cases h with ⟨e, he, rfl⟩ | ⟨e, hg, hf, rfl⟩
  · exact ⟨fun _ _ => rfl, fun _ => rfl, fun _ hok => absurd hok he⟩
  · have hout := read_commit_outside hp hg.stores hf
    refine ⟨fun a ha => hout a fun k _ => ?_, fun hi => ?_, fun hi _ => ?_⟩
    · rcases ha with herr | ⟨h0, h1⟩
      · exact absurd rfl herr
      · cases k with
        | d0 => exact h0
        | d1 => exact h1
    · have hd : destinations i = [] := by
        rcases hi with rfl | ⟨f, rfl | rfl | rfl⟩ <;> rfl
      have hw := hg.stores.written
      rw [hd] at hw
      have hnil : e.pending = [] := List.eq_nil_iff_forall_not_mem.mpr fun w hmem => by simpa using hw w hmem
      show s.buf.writeAll e.pending = s.buf
      rw [hnil, Memory.writeAll]
    · have hd : Dst.d1 ∉ destinations i := by
        cases i with
        | forge f => exact absurd rfl (hi f)
        | _ => simp [destinations]
      refine ⟨?_, fun a ha => hout a fun k hk => ?_⟩
      · show (s.commit e).resLen .d1 = 0
        rw [State.commit_resLen, hg.stores.unused _ hd]
        rfl
      · cases k with
        | d0 => exact ha
        | d1 => exact absurd hk hd

end Sys2Proof.Machine
end

section
/-! PROOFS. What a host access and a step can do; the invariant of the block, and what changes the latch. -/

namespace Sys2Proof.Machine

open Sys2Proof.Claims Sys2Proof.Safety

/-! ### What a host access can do -/

theorem State.whenIdle_of_idle {s : State} (h : s.status.busy = false) (f : State → State) : s.whenIdle f = f s := by
  simp [State.whenIdle, h]

theorem State.whenIdle_of_busy {s : State} (h : s.status.busy = true) (f : State → State) : s.whenIdle f = s.refuse := by
  simp [State.whenIdle, h]

theorem writeReg_cmd (s : State) (v : Word) : writeReg s .cmd v = s.whenIdle fun s => s.issue v := rfl

theorem writeReg_status (s : State) (v : Word) : writeReg s .status v = { s with status := s.status.hostWrite v } := rfl

theorem writeReg_ctrl_srst (s : State) {v : Word} (h : v.getLsbD 0 = true) : writeReg s .ctrl v = s.softReset := by
  simp only [writeReg, h, if_true]

theorem writeReg_ctrl_blen (s : State) {v : Word} (h : v.getLsbD 0 = false) :
    writeReg s .ctrl v = s.whenIdle fun s => { s with blenBits := v.getLsbD 1 } := by
  simp only [writeReg, h, Bool.false_eq_true, if_false]

theorem writeReg_operand (s : State) (o : OpReg) (v : Word) :
    writeReg s (.operand o) v = s.whenIdle fun s => { s with ops := s.ops.set o v } := rfl

theorem writeReg_ciphCnt (s : State) (v : Word) :
    writeReg s .ciphCnt v = s.whenIdle fun s => { s with ciphCnt := 0 } := rfl

theorem writeReg_compCnt (s : State) (v : Word) :
    writeReg s .compCnt v = s.whenIdle fun s => { s with compCnt := 0 } := rfl

/-- `BUSY` and `DONE` are not both 1 (`10_state.md` R23, `60_exceptions.md` R246). -/
def Status.Exclusive (s : Status) : Prop := ¬(s.busy = true ∧ s.done = true)

theorem Status.exclusive_issued (s : Status) : s.issued.Exclusive := by simp [Status.Exclusive]

theorem Status.exclusive_completed (s : Status) (e : Err) : (s.completed e).Exclusive := by simp [Status.Exclusive]

theorem Status.exclusive_hostWrite {s : Status} (h : s.Exclusive) (v : Word) : (s.hostWrite v).Exclusive := by
  intro ⟨hb, hd⟩
  exact h ⟨hb, (Bool.and_eq_true_iff.mp hd).1⟩

/-- The part of the state that a register write other than the soft reset leaves alone, and what it keeps of `STATUS`. -/
structure KeepsStorage (s t : State) : Prop where
  par    : t.par = s.par
  buf    : t.buf = s.buf
  latch  : t.latch = s.latch
  status : s.status.Exclusive → t.status.Exclusive

theorem KeepsStorage.whenIdle {s : State} {f : State → State} (h : KeepsStorage s (f s)) :
    KeepsStorage s (s.whenIdle f) := by
  cases hb : s.status.busy with
  | false => rwa [State.whenIdle_of_idle hb]
  | true => rw [State.whenIdle_of_busy hb]; exact ⟨rfl, rfl, rfl, id⟩

/-- A register write is the soft reset, or leaves the parameters, `BUF` and the latch alone. -/
theorem writeReg_cases (s : State) (r : Reg) (v : Word) :
    (r = .ctrl ∧ v.getLsbD 0 = true ∧ writeReg s r v = s.softReset) ∨ KeepsStorage s (writeReg s r v) := by
  cases r with
  | cmd => rw [writeReg_cmd]; exact .inr (.whenIdle ⟨rfl, rfl, rfl, fun _ => s.status.exclusive_issued⟩)
  | status => exact .inr ⟨rfl, rfl, rfl, fun h => Status.exclusive_hostWrite h v⟩
  | ctrl =>
    cases hv : v.getLsbD 0 with
    | true => exact .inl ⟨rfl, rfl, writeReg_ctrl_srst s hv⟩
    | false => rw [writeReg_ctrl_blen s hv]; exact .inr (.whenIdle ⟨rfl, rfl, rfl, id⟩)
  | operand o => rw [writeReg_operand]; exact .inr (.whenIdle ⟨rfl, rfl, rfl, id⟩)
  | ciphCnt => rw [writeReg_ciphCnt]; exact .inr (.whenIdle ⟨rfl, rfl, rfl, id⟩)
  | compCnt => rw [writeReg_compCnt]; exact .inr (.whenIdle ⟨rfl, rfl, rfl, id⟩)
  | id | res0Len | res1Len | latchInfo | lenLo | lenHi | h _ | chunk _ | reserved => exact .inr ⟨rfl, rfl, rfl, id⟩

theorem writeBuf_latch (s : State) (a w : Nat) (v : Word) : (writeBuf s a w v).latch = s.latch := by
  cases hb : s.status.busy with
  | false => rw [writeBuf, State.whenIdle_of_idle hb]
  | true => rw [writeBuf, State.whenIdle_of_busy hb]; rfl

/-- A register read changes only what the bus answered and the count of draws. -/
theorem readReg_eq (s : State) (r : Reg) : ∃ x n, readReg s r = { s with resp := x, draws := n } := by
  unfold readReg
  split
  · exact ⟨_, _, rfl⟩
  · exact ⟨_, s.draws, rfl⟩

/-- A buffer read changes only what the bus answered and the count of draws. -/
theorem readBuf_next {s t : State} {a w : Nat} (h : readBuf s a w = .next t) :
    ∃ x n, t = { s with resp := x, draws := n } := by
  unfold readBuf at h
  split at h
  · cases h
    exact ⟨_, _, rfl⟩
  · split at h
    · cases h
      exact ⟨_, s.draws, rfl⟩
    · cases h

/-- A host access that ends in a next state is answered and changes nothing else, or is a legal register write, or a legal
buffer write. -/
theorem hostAccess_next_cases {s t : State} {a : Access} (h : hostAccess s a = .next t) :
    (∃ x n, t = { s with resp := x, draws := n }) ∨
    (∃ addr w off v, a = .write addr w v ∧ target s.par addr = .register off ∧
      t = (writeReg s (regAt off) v).answer .ack) ∨
    ∃ addr w b v, a = .write addr w v ∧ target s.par addr = .buffer b ∧ bufAccessLegal addr w = true ∧
      t = (writeBuf s b w v).answer .ack := by
  have answered {r : Resp} (h : Host.Outcome.next (s.answer r) = (.next t : Host.Outcome State Fault Refusal)) :
      ∃ x n, t = { s with resp := x, draws := n } := ⟨r, s.draws, (Host.Outcome.next.inj h).symm⟩
  cases a with
  | read addr w =>
    refine .inl ?_
    cases ht : target s.par addr with simp only [hostAccess, ht] at h
    | outside | noTarget => exact answered h
    | register off =>
      split at h
      · cases h
        exact readReg_eq s _
      · exact answered h
    | buffer b =>
      split at h
      · exact readBuf_next h
      · exact answered h
  | write addr w v =>
    cases ht : target s.par addr with simp only [hostAccess, ht] at h
    | outside | noTarget => exact .inl (answered h)
    | register off =>
      split at h
      · exact .inr (.inl ⟨addr, w, off, v, rfl, ht, (Host.Outcome.next.inj h).symm⟩)
      · exact .inl (answered h)
    | buffer b =>
      split at h
      · exact .inr (.inr ⟨addr, w, b, v, rfl, ht, ‹_›, (Host.Outcome.next.inj h).symm⟩)
      · exact .inl (answered h)

/-- A buffer address is one of `BUF`, at the host address of that byte (`20_memory.md` R63). -/
theorem target_eq_buffer {p : Params} {addr b : Nat} (h : target p addr = .buffer b) :
    b < p.bufBytes ∧ addr = p.base + p.bufOffset + b := by
  unfold target Config.hostWindow Config.regWindow at h
  split at h
  · cases h
  · split at h
    · cases h
    · split at h
      · cases h
        omega
      · cases h

/-- A legal buffer access stays inside `BUF` (`20_memory.md` R64). -/
theorem bufAccess_inside {p : Params} (hp : p.Legal) {addr w b : Nat} (ht : target p addr = .buffer b)
    (hl : bufAccessLegal addr w = true) : b + w ≤ p.bufBytes := by
  obtain ⟨-, -, hbytes, hbase, hoff, -, -⟩ := legal_facts p hp
  obtain ⟨hb, haddr⟩ := target_eq_buffer ht
  simp only [bufAccessLegal, Bool.and_eq_true, Bool.or_eq_true, beq_iff_eq] at hl
  obtain ⟨(rfl | rfl) | rfl, halign⟩ := hl <;> omega

/-- An offset that names a register is that register's own (`10_state.md` R21). -/
theorem regOffset_regAt {off : Nat} (h : regAt off ≠ .reserved) : regOffset (regAt off) = off := by
  have named : ∀ o < 0x0C0, regAt o ≠ .reserved → regOffset (regAt o) = o := by decide +kernel
  by_cases ho : off < 0x0C0
  · exact named off ho h
  · exact absurd (regAt_reserved off (by omega)) h

/-! ### What a step can do -/

/-- A step is the engine's turn when no turn is listed, and the first turn of the list otherwise. -/
theorem step_next_cases {s t : State} (h : step s = .next t) :
    (s.turns = [] ∧ engineTurn s = .next t) ∨
      ∃ u rest, s.turns = u :: rest ∧ takeTurn { s with turns := rest } u = .next t := by
  unfold step at h
  split at h
  · exact .inl ⟨‹_›, h⟩
  · exact .inr ⟨_, _, ‹_›, h⟩

/-- The engine's turn leaves an idle block alone, fails with ILLEGAL_OP, or runs the command `CMD` decodes to
(`60_exceptions.md` R247, R248). -/
theorem engineTurn_next_cases {s t : State} (h : engineTurn s = .next t) :
    t = s ∨ t = s.complete .illegalOp ∨ ∃ i, s.status.busy = true ∧ decode s.cmd = .ok i ∧ exec i s = .next t := by
  unfold engineTurn at h
  split at h
  · split at h
    · exact .inr (.inr ⟨_, ‹_›, ‹_›, h⟩)
    · exact .inr (.inl (Host.Outcome.next.inj h).symm)
  · exact .inl (Host.Outcome.next.inj h).symm

/-- A poll changes only what the bus answered, the count of draws and the turns to come. -/
theorem poll_eq (s : State) : ∃ ts x n, poll s = { s with turns := ts, resp := x, draws := n } := by
  obtain ⟨x, n, hr⟩ := readReg_eq s .status
  unfold poll
  rw [hr]
  split
  · exact ⟨_, x, n, rfl⟩
  · exact ⟨s.turns, x, n, rfl⟩

/-! ### The invariant of the block -/

/-- A state whose latch and `STATUS` are at their reset values. -/
theorem blockInv_of_reset {s : State} (hpar : s.par.Legal) (hwf : s.buf.wf) (hin : InsideBuf s.par s.buf)
    (hl : s.latch = Latch.reset) (hs : s.status = Status.reset) : BlockInv s :=
  ⟨hpar, hwf, hin, hl ▸ latchInv_reset, by rw [hs]; decide⟩

theorem insideBuf_nil (p : Params) : InsideBuf p [] := fun c hc => absurd hc (List.not_mem_nil (a := c))

theorem blockInv_complete {s : State} (h : BlockInv s) (e : Err) : BlockInv (s.complete e) := by
  obtain ⟨hpar, hwf, hin, hlatch, -⟩ := h
  exact ⟨hpar, hwf, hin, hlatch, s.status.exclusive_completed e⟩

/-- A commit whose writes are in range and whose latch value meets the latch invariant. -/
theorem blockInv_commit {s : State} (h : BlockInv s) {e : Effect} (hf : e.fits s = true) (hl : LatchInv e.newL) :
    BlockInv (s.commit e) := by
  obtain ⟨hpar, hwf, hin, -, hstatus⟩ := h
  refine ⟨hpar, Memory.writeAll_wf _ _ hwf, fun c hc => ?_, hl, hstatus⟩
  rcases Memory.mem_writeAll _ _ c hc with ⟨w, hw, -, hlt⟩ | hc
  · exact Nat.lt_of_lt_of_le hlt ((e.fits_iff s).mp hf w hw)
  · exact hin c hc

theorem blockInv_exec {i : Instr} {s t : State} (h : BlockInv s) (ht : exec i s = .next t) : BlockInv t := by
  rcases exec_next_cases ht with ⟨e, -, rfl⟩ | ⟨e, hg, hf, rfl⟩
  · exact blockInv_complete h e
  · have ⟨_, _, _, hlatch, _⟩ := h
    exact blockInv_complete (blockInv_commit h hf (hg.inv hlatch)) .ok

theorem blockInv_engineTurn {s t : State} (h : BlockInv s) (ht : engineTurn s = .next t) : BlockInv t := by
  rcases engineTurn_next_cases ht with rfl | rfl | ⟨i, -, -, hi⟩
  · exact h
  · exact blockInv_complete h _
  · exact blockInv_exec h hi

theorem blockInv_of_keepsStorage {s t : State} (h : BlockInv s) (hk : KeepsStorage s t) : BlockInv t := by
  obtain ⟨hpar, hwf, hin, hlatch, hstatus⟩ := h
  exact ⟨hk.par ▸ hpar, hk.buf ▸ hwf, by rw [hk.par, hk.buf]; exact hin, hk.latch ▸ hlatch, hk.status hstatus⟩

theorem blockInv_writeReg {s : State} (h : BlockInv s) (r : Reg) (v : Word) : BlockInv (writeReg s r v) := by
  rcases writeReg_cases s r v with ⟨-, -, hreset⟩ | hk
  · obtain ⟨hpar, hwf, hin, -, -⟩ := h
    rw [hreset]
    exact blockInv_of_reset hpar hwf hin rfl rfl
  · exact blockInv_of_keepsStorage h hk

theorem blockInv_writeBuf {s : State} (h : BlockInv s) {a w : Nat} (hw : a + w ≤ s.par.bufBytes) (v : Word) :
    BlockInv (writeBuf s a w v) := by
  obtain ⟨hpar, hwf, hin, hlatch, hstatus⟩ := h
  cases hb : s.status.busy with
  | true => rw [writeBuf, State.whenIdle_of_busy hb]; exact ⟨hpar, hwf, hin, hlatch, hstatus⟩
  | false =>
    rw [writeBuf, State.whenIdle_of_idle hb]
    refine ⟨hpar, Memory.writeBytes_wf _ _ _ hwf, fun c hc => ?_, hlatch, hstatus⟩
    rcases Memory.mem_writeBytes _ _ _ c hc with ⟨-, hlt⟩ | hc
    · rw [leBytes_length] at hlt
      exact Nat.lt_of_lt_of_le hlt hw
    · exact hin c hc

theorem blockInv_hostAccess {s t : State} (h : BlockInv s) {a : Access} (ht : hostAccess s a = .next t) : BlockInv t := by
  rcases hostAccess_next_cases ht with ⟨x, n, rfl⟩ | ⟨_, _, off, v, -, -, rfl⟩ | ⟨_, _, b, v, -, htgt, hlegal, rfl⟩
  · exact h
  · exact blockInv_writeReg h (regAt off) v
  · exact blockInv_writeBuf h (bufAccess_inside h.1 htgt hlegal) v

theorem blockInv_hardReset {s : State} (h : BlockInv s) : BlockInv s.hardReset :=
  blockInv_of_reset h.1 .nil (insideBuf_nil _) rfl rfl

theorem blockInv_takeTurn {s t : State} (h : BlockInv s) {u : Turn} (ht : takeTurn s u = .next t) : BlockInv t := by
  cases u with
  | engine => exact blockInv_engineTurn h ht
  | access a => exact blockInv_hostAccess h ht
  | wait =>
    obtain ⟨ts, x, n, hp⟩ := poll_eq s
    rw [takeTurn, hp] at ht
    cases ht
    exact h
  | hardReset =>
    cases ht
    exact blockInv_hardReset h

/-- Settles O7: each kind of turn keeps the invariant, and a step is one of them. -/
theorem stepKeepsTheInvariant : Obligations.StepKeepsTheInvariant := by
  intro s t h ht
  rcases step_next_cases ht with ⟨-, ht⟩ | ⟨u, rest, -, ht⟩
  · exact blockInv_engineTurn h ht
  · exact blockInv_takeTurn (s := { s with turns := rest }) h ht

/-- The invariant holds at the start, for any legal parameters and turns, and every step keeps it. -/
theorem blockInv_of_reachable {s : State} (h : Reachable s) : BlockInv s := by
  induction h with
  | start p hp turns => exact blockInv_of_reset hp .nil (insideBuf_nil p) rfl rfl
  | step s t _ ht ih => exact stepKeepsTheInvariant s t ih ht

/-- Settles O9: it is part of the latch invariant, which every reachable state meets. -/
theorem partialChunkMatchesTheLength : Obligations.PartialChunkMatchesTheLength := by
  intro s hs hv
  obtain ⟨-, -, -, ⟨-, hlen, -, -⟩, -⟩ := blockInv_of_reachable hs
  exact hlen hv

/-! ### What changes the latch -/

theorem latch_of_engineTurn {s t : State} (ht : engineTurn s = .next t) (hne : t.latch ≠ s.latch) :
    s.status.busy = true ∧ t.status.err = .ok ∧ ∃ i, decode s.cmd = .ok i ∧ writesLatch i = true := by
  rcases engineTurn_next_cases ht with rfl | rfl | ⟨i, hb, hi, hx⟩
  · exact absurd rfl hne
  · exact absurd rfl hne
  · rcases exec_next_cases hx with ⟨e, -, rfl⟩ | ⟨e, hg, -, rfl⟩
    · exact absurd rfl hne
    · exact ⟨hb, rfl, i, hi, Bool.of_not_eq_false fun hw => hne (hg.keeps hw)⟩

theorem latch_of_hostAccess {s t : State} {a : Access} (ht : hostAccess s a = .next t) (hne : t.latch ≠ s.latch) :
    ∃ addr w v, a = .write addr w v ∧ target s.par addr = .register 0x00C ∧ v.getLsbD 0 = true := by
  rcases hostAccess_next_cases ht with ⟨x, n, rfl⟩ | ⟨addr, w, off, v, rfl, htgt, rfl⟩ | ⟨_, _, b, v, -, -, -, rfl⟩
  · exact absurd rfl hne
  · rcases writeReg_cases s (regAt off) v with ⟨hr, hv, -⟩ | hk
    · have hoff : off = 0x00C := by rw [← regOffset_regAt (off := off) (by simp [hr]), hr]; rfl
      exact ⟨addr, w, v, rfl, hoff ▸ htgt, hv⟩
    · exact absurd hk.latch hne
  · exact absurd (writeBuf_latch s b _ v) hne

/-- Settles O37: of the turns, only the engine's, a write of `CTRL` with bit 0 = 1 and the hard reset touch the latch. -/
theorem latchChangesOnlyByItsCommands : Obligations.LatchChangesOnlyByItsCommands := by
  intro s t ht hne
  rcases step_next_cases ht with ⟨hnil, ht⟩ | ⟨u, rest, hturns, ht⟩
  · obtain ⟨hb, herr, hi⟩ := latch_of_engineTurn ht hne
    exact .inl ⟨hb, herr, hi, .inl hnil⟩
  · cases u with
    | engine =>
      obtain ⟨hb, herr, hi⟩ := latch_of_engineTurn ht hne
      exact .inl ⟨hb, herr, hi, .inr (by rw [hturns]; rfl)⟩
    | access a =>
      obtain ⟨addr, w, v, rfl, htgt, hv⟩ := latch_of_hostAccess ht hne
      exact .inr (.inr ⟨addr, w, v, by rw [hturns]; rfl, htgt, hv⟩)
    | wait =>
      obtain ⟨ts, x, n, hp⟩ := poll_eq { s with turns := rest }
      rw [takeTurn, hp] at ht
      cases ht
      exact absurd rfl hne
    | hardReset => exact .inr (.inl (by rw [hturns]; rfl))

end Sys2Proof.Machine
end

section
/-! PROOFS. The registers as the host reads and writes them (`10_state.md` R22 to R36). -/

namespace Sys2Proof.Machine

open Sys2Proof.Claims

/-! ### One register access of the host -/

theorem step_nextReads {s : State} {r : Reg} {rest : List Turn} (h : NextReads s r rest) :
    step s = .next (readReg { s with turns := rest } r) := by
  obtain ⟨hlt, h4⟩ := regOffset_legal r
  rw [step_register_read s _ rest hlt h4 h, regAt_regOffset]

theorem step_nextWrites {s : State} {r : Reg} {v : Word} {rest : List Turn} (h : NextWrites s r v rest) :
    step s = .next ((writeReg { s with turns := rest } r v).answer .ack) := by
  obtain ⟨hlt, h4⟩ := regOffset_legal r
  rw [step_register_write s _ v rest hlt h4 h, regAt_regOffset]

/-- A read while idle, or of a register that is exact at all times (`10_state.md` R36). -/
theorem readReg_exact {s : State} {r : Reg} (h : s.status.busy = false ∨ drawnWhileBusy r = false) :
    readReg s r = s.answer (.data 4 (regValue s r)) := by
  rcases h with h | h
  · simp [readReg, h]
  · simp [readReg, h]

/-- A read while busy of a result, counter or readout register (`10_state.md` R36). -/
theorem readReg_draw {s : State} {r : Reg} (hb : s.status.busy = true) (hr : drawnWhileBusy r = true) :
    readReg s r = s.answerDraw 4 := by
  simp [readReg, hb, hr]

theorem regValue_turns (s : State) (ts : List Turn) (r : Reg) : regValue { s with turns := ts } r = regValue s r := by
  cases r <;> rfl

/-- The step of an exact register read answers the register's value. -/
theorem step_reads_exact {s : State} {r : Reg} {rest : List Turn} (h : NextReads s r rest)
    (hx : s.status.busy = false ∨ drawnWhileBusy r = false) :
    step s = .next { s with turns := rest, resp := .data 4 (regValue s r) } := by
  rw [step_nextReads h, readReg_exact (s := { s with turns := rest }) hx, regValue_turns]
  rfl

/-- The step of a register write that is stored while idle. -/
theorem step_writes_idle {s : State} {r : Reg} {v : Word} {rest : List Turn} {f : State → State}
    (h : NextWrites s r v rest) (hw : ∀ s : State, writeReg s r v = s.whenIdle f) (hb : s.status.busy = false) :
    step s = .next ((f { s with turns := rest }).answer .ack) := by
  rw [step_nextWrites h, hw, State.whenIdle_of_idle (s := { s with turns := rest }) hb]

/-- The step of a register write that is refused while busy (`10_state.md` R24). -/
theorem step_writes_busy {s : State} {r : Reg} {v : Word} {rest : List Turn} {f : State → State}
    (h : NextWrites s r v rest) (hw : ∀ s : State, writeReg s r v = s.whenIdle f) (hb : s.status.busy = true) :
    step s = .next { s with turns := rest, status := { s.status with ovr := true }, resp := .ack } := by
  rw [step_nextWrites h, hw, State.whenIdle_of_busy (s := { s with turns := rest }) hb]
  rfl

/-- Settles O38: `CMD` is stored while idle and refused while busy, and its read is exact. -/
theorem cmdWriteIssuesOrIsRefused : Obligations.CmdWriteIssuesOrIsRefused := by
  intro s v rest
  have hw (s : State) := writeReg_cmd s v
  exact ⟨fun h hb => step_writes_idle h hw hb, fun h hb => step_writes_busy h hw hb,
    fun h => step_reads_exact h (.inr rfl)⟩

/-! ### The fields of a word that is a sum of fields -/

theorem getLsbD_ofNat_eq {n i : Nat} {b : Bool} (hi : i < 32) (h : n / 2 ^ i % 2 = b.toNat) :
    (BitVec.ofNat 32 n).getLsbD i = b := by
  rw [BitVec.getLsbD_ofNat, Nat.testBit_eq_decide_div_mod_eq, decide_eq_true hi, Bool.true_and, h]
  cases b <;> rfl

theorem toNat_extractLsb'_ofNat {n i k m : Nat} (h : n < 2 ^ 32) (hm : n / 2 ^ i % 2 ^ k = m) :
    ((BitVec.ofNat 32 n).extractLsb' i k).toNat = m := by
  rw [BitVec.extractLsb'_toNat, BitVec.toNat_ofNat, Nat.mod_eq_of_lt h, Nat.shiftRight_eq_div_pow, hm]

theorem extractLsb'_ofNat_eq_zero {n i k : Nat} (h : n < 2 ^ 32) (hz : n / 2 ^ i % 2 ^ k = 0) :
    (BitVec.ofNat 32 n).extractLsb' i k = 0 := by
  apply BitVec.eq_of_toNat_eq
  rw [toNat_extractLsb'_ofNat h hz]
  simp

theorem Err.code_lt (e : Err) : e.code < 7 := by cases e <;> decide

/-- The fields of the word `STATUS` reads (`10_state.md` R24). -/
theorem Status.word_fields (s : Status) :
    s.word.getLsbD 0 = s.busy ∧ s.word.getLsbD 1 = s.done ∧ s.word.extractLsb' 2 2 = 0 ∧
      (s.word.extractLsb' 4 4).toNat = s.err.code ∧ s.word.getLsbD 8 = s.sticky ∧ s.word.getLsbD 9 = s.ovr ∧
      s.word.extractLsb' 10 22 = 0 := by
  have hb := s.busy.toNat_le
  have hd := s.done.toNat_le
  have he := s.err.code_lt
  have hs := s.sticky.toNat_le
  have ho := s.ovr.toNat_le
  unfold Status.word
  refine ⟨getLsbD_ofNat_eq ?_ ?_, getLsbD_ofNat_eq ?_ ?_, extractLsb'_ofNat_eq_zero ?_ ?_, toNat_extractLsb'_ofNat ?_ ?_,
    getLsbD_ofNat_eq ?_ ?_, getLsbD_ofNat_eq ?_ ?_, extractLsb'_ofNat_eq_zero ?_ ?_⟩ <;> omega

/-- The fields of `LATCH_INFO` (`10_state.md` R31). -/
theorem latchInfo_fields (l : Latch) (h : l.part.length < 64) :
    (latchInfo l).getLsbD 0 = l.valid ∧ (latchInfo l).getLsbD 1 = l.fam.bit ∧ (latchInfo l).extractLsb' 2 6 = 0 ∧
      ((latchInfo l).extractLsb' 8 6).toNat = l.part.length ∧ (latchInfo l).extractLsb' 14 18 = 0 := by
  have hv := l.valid.toNat_le
  have hf := l.fam.bit.toNat_le
  unfold latchInfo
  refine ⟨getLsbD_ofNat_eq ?_ ?_, getLsbD_ofNat_eq ?_ ?_, extractLsb'_ofNat_eq_zero ?_ ?_, toNat_extractLsb'_ofNat ?_ ?_,
    extractLsb'_ofNat_eq_zero ?_ ?_⟩ <;> omega

/-- What a host write of `v` leaves in `STATUS`, bit by bit (`10_state.md` R25). -/
theorem Status.hostWrite_eq (s : Status) (v : Word) : s.hostWrite v = { s with
    done := if v.getLsbD 1 then false else s.done
    sticky := if v.getLsbD 8 then false else s.sticky
    ovr := if v.getLsbD 9 then false else s.ovr } := by
  have clear (a b : Bool) : (a && !b) = if b then false else a := by cases b <;> simp
  simp only [Status.hostWrite, clear]

/-- Settles O39: the write is accepted whatever `BUSY` is, and the read is exact. -/
theorem statusWriteClearsByOnes : Obligations.StatusWriteClearsByOnes := by
  intro s v rest
  refine ⟨fun h => ?_, fun h => ⟨s.status.word, step_reads_exact h (.inr rfl), s.status.word_fields⟩⟩
  rw [step_nextWrites h, writeReg_status, Status.hostWrite_eq]
  rfl

/-- `CTRL` reads `BLEN_BITS` in bit 1 and 0 elsewhere (`10_state.md` R26). -/
theorem ctrlWord_eq (s : State) : ctrlWord s = if s.blenBits then 2 else 0 := by
  unfold ctrlWord
  cases s.blenBits <;> rfl

/-- Settles O40: `BLEN_BITS` is stored while idle and refused while busy, and the read of `CTRL` is exact. -/
theorem ctrlWriteSetsTheLengthUnit : Obligations.CtrlWriteSetsTheLengthUnit := by
  intro s v rest
  refine ⟨fun h hv hb => step_writes_idle h (fun s => writeReg_ctrl_blen s hv) hb,
    fun h hv hb => step_writes_busy h (fun s => writeReg_ctrl_blen s hv) hb, fun h => ?_⟩
  rw [step_reads_exact h (.inr rfl), regValue, ctrlWord_eq]

/-! ### Operand registers -/

/-- A write of one operand register, read by any: the table of the twelve registers against itself. -/
theorem OperandRegs.get_set (o : OperandRegs) (r r' : OpReg) (v : Word) :
    (o.set r v).get r' = if r' = r then v else o.get r' := by
  rcases r with (_ | _ | _ | _) | (_ | _ | _ | _) | (_ | _) | _ | _ <;>
    rcases r' with (_ | _ | _ | _) | (_ | _ | _ | _) | (_ | _) | _ | _ <;> rfl

/-- Settles O41: an operand register is stored while idle and refused while busy, and its read is exact. -/
theorem operandRegistersStoreWrites : Obligations.OperandRegistersStoreWrites := by
  intro s r v rest
  have hw (s : State) := writeReg_operand s r v
  exact ⟨fun h hb => ⟨s.ops.set r v, by rw [OperandRegs.get_set, if_pos rfl],
      fun r' hr => by rw [OperandRegs.get_set, if_neg hr], step_writes_idle h hw hb⟩,
    fun h hb => step_writes_busy h hw hb, fun h => step_reads_exact h (.inr rfl)⟩

/-! ### Counters, read-only registers and reserved offsets -/

/-- The registers a host write leaves alone (`10_state.md` R21, R35). -/
def hostReadOnly : Reg → Bool
  | .id | .res0Len | .res1Len | .latchInfo | .lenLo | .lenHi | .h _ | .chunk _ | .reserved => true
  | .cmd | .status | .ctrl | .operand _ | .ciphCnt | .compCnt => false

theorem writeReg_readOnly (s : State) {r : Reg} (v : Word) (h : hostReadOnly r = true) : writeReg s r v = s := by
  cases r with
  | cmd | status | ctrl | operand _ | ciphCnt | compCnt => cases h
  | _ => rfl

theorem regAt_readOnly {off : Nat} (h : off = 0x000 ∨ off = 0x040 ∨ off = 0x044 ∨ 0x050 ≤ off) :
    hostReadOnly (regAt off) = true := by
  have readouts : ∀ o < 0x0C0, 0x050 ≤ o → hostReadOnly (regAt o) = true := by decide +kernel
  rcases h with rfl | rfl | rfl | h
  · rfl
  · rfl
  · rfl
  · by_cases ho : off < 0x0C0
    · exact readouts off ho h
    · rw [regAt_reserved off (by omega)]
      rfl

theorem regAt_reserved_offsets {off : Nat} (h : off = 0x05C ∨ (0x074 ≤ off ∧ off ≤ 0x07C) ∨ 0x0C0 ≤ off) :
    regAt off = .reserved := by
  have gap : ∀ o ≤ 0x07C, 0x074 ≤ o → regAt o = .reserved := by decide +kernel
  rcases h with rfl | ⟨hlo, hhi⟩ | h
  · rfl
  · exact gap off hhi hlo
  · exact regAt_reserved off h

/-- Settles O42: the counters are cleared while idle and refused while busy; the other offsets name registers that a write
leaves alone, or no register. -/
theorem counterAndReadOnlyWrites : Obligations.CounterAndReadOnlyWrites := by
  intro s v rest
  have hciph (s : State) := writeReg_ciphCnt s v
  have hcomp (s : State) := writeReg_compCnt s v
  refine ⟨fun h hb => step_writes_idle h hciph hb, fun h hb => step_writes_idle h hcomp hb, fun r hr h hb => ?_,
    fun off ho h4 h => ?_, fun off ho h4 h => ?_⟩
  · rcases List.mem_pair.mp hr with rfl | rfl
    · exact step_writes_busy h hciph hb
    · exact step_writes_busy h hcomp hb
  · rw [step_register_write s off v rest (by omega) h4 h, writeReg_readOnly _ v (regAt_readOnly (by omega))]
    rfl
  · rw [step_register_read s off rest (by omega) h4 h, regAt_reserved_offsets (by omega), readReg_exact (.inr rfl)]
    rfl

/-! ### Reads while busy and while idle -/

/-- Settles O43: the offsets of `10_state.md` R36 are of the drawn registers, and the others named are exact. -/
theorem busyReadsAreDrawsOrExact : Obligations.BusyReadsAreDrawsOrExact := by
  intro s rest
  have drawn : ∀ o < 0x0C0, ((0x040 ≤ o ∧ o ≤ 0x058) ∨ (0x060 ≤ o ∧ o ≤ 0x070) ∨ (0x080 ≤ o ∧ o ≤ 0x0BC)) →
      o % 4 = 0 → drawnWhileBusy (regAt o) = true := by decide +kernel
  refine ⟨fun off ho h4 h hb => ?_, fun h => step_reads_exact h (.inr rfl), fun r hr h => ?_⟩
  · rw [step_register_read s off rest (by omega) h4 h,
      readReg_draw (s := { s with turns := rest }) hb (drawn off (by omega) ho h4)]
    exact ⟨_, rfl⟩
  · refine step_reads_exact h (.inr ?_)
    rcases hr with rfl | rfl | rfl | ⟨o, rfl⟩ <;> rfl

/-- `LEN_LO` (`10_state.md` R32). -/
theorem extractLsb'_low (x : Dword) : x.extractLsb' 0 32 = BitVec.ofNat 32 (x.toNat % 2 ^ 32) := by
  apply BitVec.eq_of_toNat_eq
  simp

/-- `LEN_HI` (`10_state.md` R32). -/
theorem extractLsb'_high (x : Dword) : x.extractLsb' 32 32 = BitVec.ofNat 32 (x.toNat / 2 ^ 32) := by
  apply BitVec.eq_of_toNat_eq
  rw [BitVec.extractLsb'_toNat, BitVec.toNat_ofNat, Nat.shiftRight_eq_div_pow]

/-- `Hi` (`10_state.md` R33). -/
theorem latchWord_eq (l : Latch) (i : Fin 5) : latchWord l i =
    if i = 4 ∧ l.fam = .B then 0 else [l.h.h0, l.h.h1, l.h.h2, l.h.h3, l.h.h4].getD i.val 0 := by
  match i with
  | 0 | 1 | 2 | 3 => rfl
  | 4 => simp [latchWord]

/-- `CHUNKk`, its first byte least significant (`10_state.md` R34). -/
theorem chunkWord_toNat (l : Latch) (k : Fin 16) : (chunkWord l k).toNat =
    (l.part.getD (4 * k.val) 0).toNat + (l.part.getD (4 * k.val + 1) 0).toNat * 2 ^ 8 +
      (l.part.getD (4 * k.val + 2) 0).toNat * 2 ^ 16 + (l.part.getD (4 * k.val + 3) 0).toNat * 2 ^ 24 := by
  have hbytes : (List.range 4).map (fun j => l.part.getD (4 * k.val + j) 0x00) =
      [l.part.getD (4 * k.val) 0, l.part.getD (4 * k.val + 1) 0, l.part.getD (4 * k.val + 2) 0,
        l.part.getD (4 * k.val + 3) 0] := rfl
  have h0 := (l.part.getD (4 * k.val) 0).isLt
  have h1 := (l.part.getD (4 * k.val + 1) 0).isLt
  have h2 := (l.part.getD (4 * k.val + 2) 0).isLt
  have h3 := (l.part.getD (4 * k.val + 3) 0).isLt
  rw [chunkWord, hbytes, BitVec.toNat_ofNat]
  simp only [fromLE]
  omega

/-- Settles O44: while idle every register read is exact, and each readout's value is its lemma above. -/
theorem idleReadoutsShowTheLatch : Obligations.IdleReadoutsShowTheLatch := by
  intro s rest hb
  have reads {r : Reg} (h : NextReads s r rest) := step_reads_exact h (.inl hb)
  refine ⟨reads, reads, reads, reads, fun h hp => ⟨_, reads h, latchInfo_fields s.latch hp⟩, fun h => ?_, fun h => ?_,
    fun i h => ?_, fun k h => ⟨_, reads h, chunkWord_toNat s.latch k⟩⟩
  · rw [reads h, ← extractLsb'_low]
    rfl
  · rw [reads h, ← extractLsb'_high]
    rfl
  · rw [reads h, ← latchWord_eq]
    rfl

end Sys2Proof.Machine
end

section
/-! PROOFS. Host accesses to the buffer window, and the accesses that end in a bus error (`20_memory.md` R63 to R66). -/

namespace Sys2Proof.Machine

open Sys2Proof.Claims

theorem step_access {s : State} {acc : Access} {rest : List Turn} (h : s.turns = .access acc :: rest) :
    step s = hostAccess { s with turns := rest } acc := by
  rw [step, h]
  rfl

/-! ### The address map (`20_memory.md` R63, R64) -/

theorem target_noTarget {p : Params} {off : Nat} (hreg : 0x1000 ≤ off) (hwin : off < 2 ^ 25)
    (hbuf : off < p.bufOffset ∨ p.bufOffset + p.bufBytes ≤ off) : target p (p.base + off) = .noTarget := by
  unfold target Config.hostWindow Config.regWindow
  rw [if_neg (by omega), if_neg (by omega), if_neg (by omega)]

theorem regAccessLegal_iff (off w : Nat) : regAccessLegal off w = true ↔ w = 4 ∧ off % 4 = 0 := by
  simp [regAccessLegal]

theorem bufAccessLegal_iff (addr w : Nat) :
    bufAccessLegal addr w = true ↔ (w = 1 ∨ w = 2 ∨ w = 4) ∧ addr % w = 0 := by
  simp [bufAccessLegal, or_assoc]

/-- The buffer window begins at a multiple of 4 (`00_scope.md` R7), so an access to it is aligned in the host's address
space iff it is aligned in `BUF`. -/
theorem bufAccessLegal_window {p : Params} (hp : p.Legal) (a : Nat) {w : Nat} (hw : w = 1 ∨ w = 2 ∨ w = 4)
    (hal : a % w = 0) : bufAccessLegal (p.base + p.bufOffset + a) w = true := by
  obtain ⟨-, -, -, hbase, hoff, -, -⟩ := legal_facts p hp
  refine (bufAccessLegal_iff _ w).mpr ⟨hw, ?_⟩
  rcases hw with rfl | rfl | rfl <;> omega

/-! ### One legal access to the buffer window (`20_memory.md` R65, R66) -/

theorem readBuf_busy {s : State} (h : s.status.busy = true) (a w : Nat) : readBuf s a w = .next (s.answerDraw w) := by
  rw [readBuf, if_pos h]

theorem readBuf_written {s : State} {a w : Nat} {d : List Byte} (h : s.status.busy = false)
    (hd : s.buf.readBytes a w = .ok d) : readBuf s a w = .next (s.answer (.data w (BitVec.ofNat 32 (fromLE d)))) := by
  simp only [readBuf, h, hd, Bool.false_eq_true, if_false]

theorem readBuf_unwritten {s : State} {a w b : Nat} (h : s.status.busy = false)
    (hd : s.buf.readBytes a w = .error b) : readBuf s a w = .fault (.unwrittenByte b) := by
  simp only [readBuf, h, hd, Bool.false_eq_true, if_false]

theorem writeBuf_idle {s : State} (h : s.status.busy = false) (a w : Nat) (v : Word) :
    writeBuf s a w v = { s with buf := s.buf.writeBytes a (leBytes w v.toNat) } := by
  rw [writeBuf, State.whenIdle_of_idle h]

theorem writeBuf_busy {s : State} (h : s.status.busy = true) (a w : Nat) (v : Word) : writeBuf s a w v = s.refuse := by
  rw [writeBuf, State.whenIdle_of_busy h]

section
variable {s : State} {a w : Nat} {rest : List Turn}

theorem step_buffer_read (hp : s.par.Legal) (hw : w = 1 ∨ w = 2 ∨ w = 4) (hal : a % w = 0) (ha : a < s.par.bufBytes)
    (h : s.turns = .access (.read (s.par.base + s.par.bufOffset + a) w) :: rest) :
    step s = readBuf { s with turns := rest } a w := by
  simp only [step_access h, hostAccess, target_buffer s.par hp a ha, bufAccessLegal_window hp a hw hal, if_true]

theorem step_buffer_write {v : Word} (hp : s.par.Legal) (hw : w = 1 ∨ w = 2 ∨ w = 4) (hal : a % w = 0)
    (ha : a < s.par.bufBytes) (h : s.turns = .access (.write (s.par.base + s.par.bufOffset + a) w v) :: rest) :
    step s = .next ((writeBuf { s with turns := rest } a w v).answer .ack) := by
  simp only [step_access h, hostAccess, target_buffer s.par hp a ha, bufAccessLegal_window hp a hw hal, if_true]

end

/-! ### The bytes of an access -/

theorem fromLE_eq_foldr (d : List Byte) : fromLE d = d.foldr (fun b n => b.toNat + 256 * n) 0 := by
  induction d with
  | nil => rfl
  | cons b d ih => rw [fromLE, List.foldr_cons, ih]

/-- A bus answer of at most 4 bytes holds the integer the bytes encode. -/
theorem toNat_ofNat_fromLE {d : List Byte} (h : d.length ≤ 4) : (BitVec.ofNat 32 (fromLE d)).toNat = fromLE d := by
  rw [BitVec.toNat_ofNat, Nat.mod_eq_of_lt]
  calc fromLE d < 256 ^ d.length := fromLE_lt d
    _ ≤ 256 ^ 4 := Nat.pow_le_pow_right (by decide) h
    _ = 2 ^ 32 := by decide

theorem leBytes_toNat_getElem? (v : Word) {w j : Nat} (h : j < w) :
    (leBytes w v.toNat)[j]? = some (v.extractLsb' (8 * j) 8) := by
  have hpow : 256 ^ j = 2 ^ (8 * j) := by rw [Nat.pow_mul]
  rw [leBytes_getElem? w v.toNat j h, BitVec.extractLsb', Nat.shiftRight_eq_div_pow, hpow]

/-- The value a draw answers is of the access width (`20_memory.md` R66). -/
theorem draw_value_lt (x : Word) (w : Nat) : (BitVec.ofNat 32 (x.toNat % 2 ^ (8 * w))).toNat < 2 ^ (8 * w) := by
  rw [BitVec.toNat_ofNat]
  exact (Nat.mod_le _ _).trans_lt (Nat.mod_lt _ (Nat.two_pow_pos _))

/-- Settles O45: a legal access reaches `readBuf` or `writeBuf`, which are `MemRead` and `MemWrite` while idle, a refusal
and a draw while busy. -/
theorem bufferAccessesAreLittleEndian : Obligations.BufferAccessesAreLittleEndian := by
  intro s a w v rest hp hw hal ha
  refine ⟨fun h hb => ?_, fun h hb => ?_, fun d h hb hlen hd => ?_, fun h hb hgap => ?_, fun h hb => ?_⟩
  · refine ⟨s.buf.writeBytes a (leBytes w v.toNat), ?_, fun j hj => ?_, fun b hout => ?_⟩
    · rw [step_buffer_write hp hw hal ha h, writeBuf_idle (s := { s with turns := rest }) hb]
      rfl
    · rw [Memory.read_writeBytes_inside _ _ _ _ (by rwa [leBytes_length]), leBytes_toNat_getElem? v hj]
    · exact Memory.read_writeBytes_outside _ _ _ _ (by rwa [leBytes_length])
  · rw [step_buffer_write hp hw hal ha h, writeBuf_busy (s := { s with turns := rest }) hb]
    rfl
  · have hread : s.buf.readBytes a w = .ok d := (Memory.readBytes_ok_iff s.buf w a d).mpr ⟨hlen, hd⟩
    refine ⟨BitVec.ofNat 32 (fromLE d), ?_, by rw [toNat_ofNat_fromLE (by omega), fromLE_eq_foldr]⟩
    rw [step_buffer_read hp hw hal ha h, readBuf_written (s := { s with turns := rest }) hb hread]
    rfl
  · cases hread : s.buf.readBytes a w with
    | ok d =>
      obtain ⟨hlen, hd⟩ := (Memory.readBytes_ok_iff s.buf w a d).mp hread
      obtain ⟨j, hj, hnone⟩ := hgap
      simp [hd j (hlen ▸ hj), hlen, hj] at hnone
    | error b =>
      obtain ⟨j, hj, rfl, hnone, -⟩ := (Memory.readBytes_error_iff s.buf w a b).mp hread
      refine ⟨j, hj, hnone, ?_⟩
      rw [step_buffer_read hp hw hal ha h, readBuf_unwritten (s := { s with turns := rest }) hb hread]
  · refine ⟨_, draw_value_lt (Config.draw s.draws) w, ?_⟩
    rw [step_buffer_read hp hw hal ha h, readBuf_busy (s := { s with turns := rest }) hb]
    rfl

/-! ### Bus errors -/

/-- A read and a write of one width at one address end in a bus error alike: at an address with no target, or when the
width or the alignment is illegal for the target (`20_memory.md` R64). -/
theorem hostAccess_busError {s : State} {acc : Access} {addr w : Nat}
    (hacc : acc = .read addr w ∨ ∃ v, acc = .write addr w v)
    (hbad : target s.par addr = .noTarget ∨
      (∃ off, target s.par addr = .register off ∧ ¬ regAccessLegal off w = true) ∨
      ∃ b, target s.par addr = .buffer b ∧ ¬ bufAccessLegal addr w = true) :
    hostAccess s acc = .next (s.answer .busError) := by
  rcases hbad with ht | ⟨off, ht, hl⟩ | ⟨b, ht, hl⟩
  · rcases hacc with rfl | ⟨v, rfl⟩ <;> simp only [hostAccess, ht]
  · rcases hacc with rfl | ⟨v, rfl⟩ <;> simp only [hostAccess, ht, if_neg hl]
  · rcases hacc with rfl | ⟨v, rfl⟩ <;> simp only [hostAccess, ht, if_neg hl]

/-- Settles O46: each of the three cases fixes the target of the address, and none leaves the access legal. -/
theorem illegalAccessesAreBusErrors : Obligations.IllegalAccessesAreBusErrors := by
  intro s acc addr w rest hp hacc h hlo hhi hbad
  rw [step_access h]
  refine hostAccess_busError (s := { s with turns := rest }) hacc ?_
  obtain ⟨off, rfl⟩ := Nat.exists_eq_add_of_le hlo
  rcases hbad with ⟨hreg, hill⟩ | ⟨hge, hlt, hill⟩ | ⟨hreg, hhole⟩
  · refine .inr (.inl ⟨off, target_register s.par off (by omega), fun hl => ?_⟩)
    obtain ⟨-, -, -, hbase, -, -, -⟩ := legal_facts s.par hp
    obtain ⟨hw, h4⟩ := (regAccessLegal_iff off w).mp hl
    omega
  · obtain ⟨b, hb⟩ := Nat.exists_eq_add_of_le hge
    refine .inr (.inr ⟨b, hb ▸ target_buffer s.par hp b (by omega), fun hl => ?_⟩)
    obtain ⟨hw, hal⟩ := (bufAccessLegal_iff _ w).mp hl
    omega
  · exact .inl (target_noTarget (p := s.par) (by omega) (by omega) (by omega))

end Sys2Proof.Machine
end

section
/-! PROOFS. The encoding of commands: a word decodes to a command iff it is that command's word, and what the engine does
with every other word (`30_encoding.md` R80 to R84). -/

namespace Sys2Proof

open Sys2Proof.Machine Sys2Proof.Claims

/-! ### The fields of a word (`30_encoding.md` R80) -/

/-- The three fields of a command word as the decoder reads them. -/
def wordFields (v : Word) : CmdWord := { op := opField v, fam := famField v, rsv := rsvField v }

/-- The fields lie side by side and leave no bit out. -/
theorem toNat_eq_fields (v : Word) :
    v.toNat = (opField v).toNat + 2 ^ 8 * (famField v).toNat + 2 ^ 9 * (rsvField v).toNat := by
  have hv := v.isLt
  rw [opField, famField, rsvField, BitVec.extractLsb'_toNat, BitVec.extractLsb'_toNat, BitVec.getLsbD,
    Nat.toNat_testBit, Nat.shiftRight_eq_div_pow, Nat.shiftRight_eq_div_pow]
  omega

theorem wordFields_injective : Function.Injective wordFields := by
  intro v w h
  obtain ⟨hop, hfam, hrsv⟩ := CmdWord.mk.inj h
  apply BitVec.eq_of_toNat_eq
  rw [toNat_eq_fields v, toNat_eq_fields w, hop, hfam, hrsv]

/-- Every command is well formed: its opcode is assigned, and only a hash command carries family B. -/
theorem Instr.wf_eq_true (i : Instr) : i.wf = true := by
  cases i with
  | hInit f | hAbsorb f | hFinal f | hMdpad f | hImport f | hExport f | mac f | forge f => cases f <;> decide
  | _ => decide

/-! ### Decoding and encoding (`30_encoding.md` R82, R83) -/

/-- Each command's own round trip (`Laws/RoundTrip.lean`). -/
theorem roundTrip (i : Instr) : Laws.RoundTrip.Statement i := by
  cases i with
  | nop => exact Laws.RoundTrip.nop
  | blkEnc => exact Laws.RoundTrip.blkEnc
  | blkDec => exact Laws.RoundTrip.blkDec
  | ecbEnc => exact Laws.RoundTrip.ecbEnc
  | ecbDec => exact Laws.RoundTrip.ecbDec
  | cbcEnc => exact Laws.RoundTrip.cbcEnc
  | cbcDec => exact Laws.RoundTrip.cbcDec
  | ctrXor => exact Laws.RoundTrip.ctrXor
  | ctrEdit => exact Laws.RoundTrip.ctrEdit
  | pad => exact Laws.RoundTrip.pad
  | unpad => exact Laws.RoundTrip.unpad
  | hInit f => exact Laws.RoundTrip.hInit f
  | hAbsorb f => exact Laws.RoundTrip.hAbsorb f
  | hFinal f => exact Laws.RoundTrip.hFinal f
  | hMdpad f => exact Laws.RoundTrip.hMdpad f
  | hImport f => exact Laws.RoundTrip.hImport f
  | hExport f => exact Laws.RoundTrip.hExport f
  | mac f => exact Laws.RoundTrip.mac f
  | forge f => exact Laws.RoundTrip.forge f

theorem decode_encode (i : Instr) : decode (encode i) = .ok i := (roundTrip i i.wf_eq_true).2.2.2

theorem wordFields_encode (i : Instr) : wordFields (encode i) = i.fields := by
  obtain ⟨hop, hfam, hrsv, -⟩ := roundTrip i i.wf_eq_true
  rw [wordFields, hop, hfam, hrsv, Instr.fields]

/-- A row of the command table has the opcode it stands at, and its command has the family asked for or is no hash command. -/
theorem commandOf_eq_some {n : Nat} {f : Family} {i : Instr} (h : commandOf n f = some i) :
    n = i.op.toNat ∧ (i.fam = f ∨ n < 0x30 ∧ i.fam = .A) := by
  unfold commandOf at h
  split at h <;> cases h <;> simp [Instr.op, Instr.fam]

/-- What the decoder's three checks leave of a word. -/
theorem wordFields_of_decode {v : Word} {i : Instr} (h : decode v = .ok i) : wordFields v = i.fields := by
  unfold decode at h
  split at h
  · cases h
  · rename_i hrsv
    split at h
    · cases h
    · rename_i hrow
      split at h
      · cases h
      · rename_i hfam
        cases h
        obtain ⟨hop, hf⟩ := commandOf_eq_some hrow
        have hbit : famField v = i.fam.bit := by
          rcases hf with hf | ⟨hlt, hf⟩
          · rw [hf]
            cases famField v <;> rfl
          · rw [hf]
            exact Bool.of_not_eq_true fun hb => hfam ⟨hlt, hb⟩
        rw [wordFields, BitVec.eq_of_toNat_eq hop, hbit, not_not.mp hrsv, Instr.fields]

/-- A word decodes to a command iff it is the command's word. -/
theorem decode_eq_ok_iff {v : Word} {i : Instr} : decode v = .ok i ↔ v = encode i :=
  ⟨fun h => wordFields_injective ((wordFields_of_decode h).trans (wordFields_encode i).symm), fun h => h ▸ decode_encode i⟩

/-- Settles O1: each command has its round trip, and the bit of family B is 0x100. -/
theorem everyCommandDecodesFromItsWord : Obligations.EveryCommandDecodesFromItsWord := by
  intro i _
  refine ⟨decode_encode i, ?_⟩
  unfold encode
  cases i.fam <;> rfl

/-- Settles O3: each word is evaluated. -/
theorem sampleWordsDecode : Obligations.SampleWordsDecode := ⟨rfl, rfl, rfl, rfl, rfl, rfl, rfl, rfl, rfl⟩

/-! ### The words that do not decode (`30_encoding.md` R83, R84) -/

/-- The table lists the word of every command, and no other word. -/
theorem mem_wordTable_iff {v : Word} {i : Instr} : (v, i) ∈ wordTable ↔ v = encode i := by
  have rows : ∀ p ∈ wordTable, p.1 = encode p.2 := by decide
  refine ⟨rows (v, i), ?_⟩
  rintro rfl
  cases i with
  | hInit f | hAbsorb f | hFinal f | hMdpad f | hImport f | hExport f | mac f | forge f => cases f <;> decide
  | _ => decide

/-- A word of no command makes the command fail with ILLEGAL_OP, and only `STATUS` changes (`60_exceptions.md` R249). -/
theorem engineTurn_illegal {s : State} (hb : s.status.busy = true) (h : ∀ i, decode s.cmd ≠ .ok i) :
    engineTurn s = .next (failed s .illegalOp) := by
  have hturn : engineTurn s = failIllegal s := by
    rw [engineTurn, if_pos hb]
    split
    · exact absurd ‹_› (h _)
    · rfl
  rw [hturn, failIllegal, perform_raise, State.complete, Status.completed, failed]
  simp

/-- Settles O2: the words of the table are those of the commands, which are the words that decode. -/
theorem exactlyTheTableWordsDecode : Obligations.ExactlyTheTableWordsDecode := by
  have htable (v : Word) (i : Instr) : decode v = .ok i ↔ (v, i) ∈ wordTable :=
    decode_eq_ok_iff.trans mem_wordTable_iff.symm
  exact ⟨rfl, by decide, htable, fun s hb h => engineTurn_illegal hb fun i hi => h i ((htable _ i).mp hi)⟩

/-- The ranges of R84 hold no assigned opcode (`30_encoding.md` R81). -/
theorem assignedOps_outside_the_gaps : ∀ op ∈ assignedOps,
    ¬((0x03 ≤ op.toNat ∧ op.toNat ≤ 0x0F) ∨ (0x16 ≤ op.toNat ∧ op.toNat ≤ 0x1F) ∨ (0x22 ≤ op.toNat ∧ op.toNat ≤ 0x2F) ∨
      op.toNat = 0x36 ∨ op.toNat = 0x37 ∨ 0x3A ≤ op.toNat) := by decide

/-- The three checks of a word's fields (`30_encoding.md` R83, R84). -/
theorem CmdWord.wf_iff (w : CmdWord) :
    w.wf = true ↔ w.rsv = 0 ∧ w.op ∈ assignedOps ∧ (w.fam = true → 0x30 ≤ w.op.toNat) := by
  simp [CmdWord.wf, CmdWord.rsvZero, CmdWord.opAssigned, CmdWord.famAllowed, and_assoc, imp_iff_not_or]

/-- A word that decodes is a command's, and so passes the three checks. -/
theorem wordFields_wf_of_decode {v : Word} {i : Instr} (h : decode v = .ok i) : (wordFields v).wf = true := by
  rw [wordFields_of_decode h]
  exact i.wf_eq_true

/-- Settles O5: a word that decodes is well formed, and each of the three cases breaks one of the three checks. -/
theorem illegalWordFailsWithIllegalOp : Obligations.IllegalWordFailsWithIllegalOp := by
  intro s hb hill
  refine engineTurn_illegal hb fun i hi => ?_
  obtain ⟨hrsv, hop, hfam⟩ := (CmdWord.wf_iff _).mp (wordFields_wf_of_decode hi)
  rcases hill with h | h | ⟨h, hlt⟩
  · exact h hrsv
  · exact assignedOps_outside_the_gaps _ hop h
  · exact absurd (hfam h) (Nat.not_le.mpr hlt)

end Sys2Proof
end

section
/-! PROOFS. Host program lines: runs of several steps, the lines made of single accesses, PUT and GET, and a command line
(`30_encoding.md` R87 to R89). -/

namespace Sys2Proof

/-! ### The registers a command line names (`30_encoding.md` R87) -/

/-- The word a line writes to an operand register, if the line names it. -/
def CommandLine.named (l : CommandLine) (r : OpReg) : Option Word :=
  (l.settings.find? fun x => x.1 == r).map fun x => BitVec.ofNat 32 x.2

/-- A line that names no register twice writes to each the value it names (`30_encoding.md` R87). -/
theorem CommandLine.named_of_mem {l : CommandLine} (h : l.namedOnce = true) {x : OpReg × Nat} (hx : x ∈ l.settings) :
    l.named x.1 = some (BitVec.ofNat 32 x.2) := by
  have hnodup : (l.settings.map Prod.fst).Nodup := of_decide_eq_true h
  cases hfind : l.settings.find? fun y => y.1 == x.1 with
  | none => exact absurd (beq_self_eq_true x.1) (List.find?_eq_none.mp hfind x hx)
  | some y =>
    have hkey : y.1 = x.1 := beq_iff_eq.mp (List.find?_some (p := fun y : OpReg × Nat => y.1 == x.1) hfind)
    have hyx : y = x := List.inj_on_of_nodup_map hnodup (List.mem_of_find?_eq_some hfind) hx hkey
    rw [CommandLine.named, hfind, hyx, Option.map_some]

theorem CommandLine.named_of_not_mem {l : CommandLine} {r : OpReg} (h : r ∉ l.settings.map Prod.fst) :
    l.named r = none := by
  have hfind : (l.settings.find? fun y => y.1 == r) = none :=
    List.find?_eq_none.mpr fun y hy hr => h (List.mem_map.mpr ⟨y, hy, beq_iff_eq.mp hr⟩)
  rw [CommandLine.named, hfind, Option.map_none]

theorem CommandLine.namedOnce_of_wf {l : CommandLine} (h : l.wf = true) : l.namedOnce = true :=
  (Bool.and_eq_true_iff.mp h).2

theorem OpReg.mem_all (r : OpReg) : r ∈ OpReg.all := by
  rcases r with (_ | _ | _ | _) | (_ | _ | _ | _) | (_ | _) | _ | _ <;> decide

end Sys2Proof

namespace Sys2Proof.Machine

open Sys2Proof.Claims

/-! ### Runs of several steps -/

theorem stepsTo_one {s t : State} (h : step s = .next t) : stepsTo 1 s t := ⟨t, h, rfl⟩

theorem stepsTo_trans {n : Nat} {t u : State} : ∀ {m : Nat} {s : State},
    stepsTo m s t → stepsTo n t u → stepsTo (m + n) s u
  | 0, _, rfl, h => by rwa [Nat.zero_add]
  | m + 1, _, ⟨v, hv, hm⟩, h => by
    rw [Nat.add_right_comm]
    exact ⟨v, hv, stepsTo_trans hm h⟩

/-! ### WAIT (`30_encoding.md` R89) -/

theorem readReg_status (s : State) : readReg s .status = s.answer (.data 4 s.status.word) := readReg_exact (.inr rfl)

/-- A poll of an idle block ends the wait. -/
theorem step_wait_idle {s : State} {rest : List Turn} (h : s.turns = .wait :: rest) (hb : s.status.busy = false) :
    step s = .next { s with turns := rest, resp := .data 4 s.status.word } := by
  simp [step, h, takeTurn, poll, readReg_status, hb, State.answer]

/-- A poll of a busy block lets the engine go and polls again. -/
theorem step_wait_busy {s : State} {rest : List Turn} (h : s.turns = .wait :: rest) (hb : s.status.busy = true) :
    step s = .next { s with turns := .engine :: .wait :: rest, resp := .data 4 s.status.word } := by
  simp [step, h, takeTurn, poll, readReg_status, hb, State.answer]

/-- The engine's turn runs the command that `CMD` holds (`60_exceptions.md` R247). -/
theorem step_engine {s : State} {i : Instr} {rest : List Turn} (h : s.turns = .engine :: rest)
    (hb : s.status.busy = true) (hi : decode s.cmd = .ok i) : step s = exec i { s with turns := rest } := by
  simp [step, h, takeTurn, engineTurn, hb, hi]

theorem exec_next_idle {i : Instr} {s t : State} (h : exec i s = .next t) : t.status.busy = false := by
  rcases exec_next_cases h with ⟨e, -, rfl⟩ | ⟨e, -, -, rfl⟩ <;> rfl

/-- WAIT with a command pending: a poll that reads `BUSY` = 1, the engine's step, and a poll that reads `BUSY` = 0. -/
theorem stepsTo_wait_command {s u : State} {i : Instr} {rest : List Turn} (h : s.turns = .wait :: rest)
    (hb : s.status.busy = true) (hi : decode s.cmd = .ok i)
    (hu : exec i { s with resp := .data 4 s.status.word } = .next u) :
    stepsTo 3 s { u with turns := rest, resp := .data 4 u.status.word } := by
  rw [h] at hu
  obtain ⟨-, -, -, -, -, hturns, -, -⟩ := commandsKeepTheOtherRegisters i _ u hu
  refine ⟨_, step_wait_busy h hb, u, ?_, stepsTo_one (step_wait_idle hturns (exec_next_idle hu))⟩
  rw [← hu]
  exact step_engine rfl hb hi

/-! ### PUT and GET (`30_encoding.md` R89) -/

/-- One byte of PUT. -/
theorem step_put_byte {s : State} {a : Nat} {b : Byte} {rest : List Turn} (hp : s.par.Legal)
    (hb : s.status.busy = false) (ha : a < s.par.bufBytes)
    (h : s.turns = .access (.write (bufAddr s.par a) 1 (b.setWidth 32)) :: rest) :
    step s = .next { s with turns := rest, buf := s.buf.write a b, resp := .ack } := by
  have hbyte : leBytes 1 (b.setWidth 32).toNat = [b] := by
    rw [BitVec.toNat_setWidth_of_le (by decide), leBytes, leBytes, BitVec.ofNat_toNat, BitVec.setWidth_eq]
  rw [step_buffer_write hp (.inl rfl) (Nat.mod_one a) ha h, writeBuf_idle (s := { s with turns := rest }) hb, hbyte]
  rfl

/-- PUT writes its bytes one after the other. -/
theorem stepsTo_put : ∀ (d : List Byte) (s : State) (a : Nat) (rest : List Turn), s.par.Legal →
    s.status.busy = false → a + d.length ≤ s.par.bufBytes → s.turns = putBytes s.par a d ++ rest →
    stepsTo d.length s
      { s with turns := rest, buf := s.buf.writeBytes a d, resp := if d = [] then s.resp else .ack }
  | [], s, a, rest, _, _, _, h => by
    rw [putBytes, List.nil_append] at h
    subst h
    rfl
  | b :: d, s, a, rest, hp, hb, hfit, h => by
    rw [List.length_cons] at hfit
    refine ⟨_, step_put_byte hp hb (by omega) h, ?_⟩
    simpa [Memory.writeBytes] using stepsTo_put d
      { s with turns := putBytes s.par (a + 1) d ++ rest, buf := s.buf.write a b, resp := .ack } (a + 1) rest hp hb (Nat.add_right_comm a 1 d.length ▸ hfit) rfl

/-- One byte of GET. -/
theorem step_get_byte {s : State} {a : Nat} {b : Byte} {rest : List Turn} (hp : s.par.Legal)
    (hb : s.status.busy = false) (ha : a < s.par.bufBytes) (hread : s.buf.read a = some b)
    (h : s.turns = .access (.read (bufAddr s.par a) 1) :: rest) :
    step s = .next { s with turns := rest, resp := .data 1 (b.setWidth 32) } := by
  have hbytes : s.buf.readBytes a 1 = .ok [b] := by simp [Memory.readBytes, hread]
  rw [step_buffer_read hp (.inl rfl) (Nat.mod_one a) ha h, readBuf_written (s := { s with turns := rest }) hb hbytes]
  simp [fromLE, State.answer, BitVec.ofNat_toNat]

theorem getBytes_of_pos (p : Params) (a : Nat) {n : Nat} (h : 0 < n) :
    getBytes p a n = .access (.read (bufAddr p a) 1) :: getBytes p (a + 1) (n - 1) := by
  obtain ⟨m, rfl⟩ := Nat.exists_eq_add_one.mpr h
  rfl

theorem read_of_bytesAt {m : Memory} {a : Nat} {d : List Byte} (h : BytesAt m a d) {j : Nat} (hj : j < d.length) :
    m.read (a + j) = some (d.getD j 0) := by
  rw [h j hj, List.getElem?_eq_getElem hj, List.getD_eq_getElem _ _ hj]

/-- After `j + 1` of its steps GET has read byte `j`. -/
theorem stepsTo_get {s : State} {a : Nat} {d : List Byte} {rest : List Turn} (hp : s.par.Legal)
    (hb : s.status.busy = false) (hfit : a + d.length ≤ s.par.bufBytes) (hd : BytesAt s.buf a d)
    (h : s.turns = getBytes s.par a d.length ++ rest) (j : Nat) (hj : j < d.length) :
    stepsTo (j + 1) s { s with
      turns := getBytes s.par (a + (j + 1)) (d.length - (j + 1)) ++ rest,
      resp := .data 1 ((d.getD j 0).setWidth 32) } := by
  induction j with
  | zero =>
    rw [getBytes_of_pos s.par a hj] at h
    exact stepsTo_one (step_get_byte hp hb (by omega) (read_of_bytesAt hd hj) h)
  | succ j ih =>
    have ha : a + (j + 1) < s.par.bufBytes := by omega
    have hprev := ih (by omega)
    rw [getBytes_of_pos s.par (a + (j + 1)) (Nat.sub_pos_of_lt hj)] at hprev
    exact stepsTo_trans hprev (stepsTo_one (step_get_byte hp hb ha (read_of_bytesAt hd hj) rfl))

/-! ### The operand writes of a command line (`30_encoding.md` R88) -/

/-- The operand registers after a write of each register of a list that `f` gives a value. -/
def OperandRegs.setNamed (f : OpReg → Option Word) : List OpReg → OperandRegs → OperandRegs
  | [], o => o
  | r :: rs, o => OperandRegs.setNamed f rs ((f r).elim o (o.set r))

/-- The host's writes of the registers of a list that `f` gives a value. -/
def namedWrites (p : Params) (f : OpReg → Option Word) (rs : List OpReg) : List Turn :=
  rs.filterMap fun r => (f r).map (regWrite p (.operand r))

theorem namedWrites_cons_none (p : Params) {f : OpReg → Option Word} {r : OpReg} (rs : List OpReg) (h : f r = none) :
    namedWrites p f (r :: rs) = namedWrites p f rs := by
  simp [namedWrites, h]

theorem namedWrites_cons_some (p : Params) {f : OpReg → Option Word} {r : OpReg} {v : Word} (rs : List OpReg)
    (h : f r = some v) : namedWrites p f (r :: rs) = regWrite p (.operand r) v :: namedWrites p f rs := by
  simp [namedWrites, h]

theorem operandWrites_eq (p : Params) (l : CommandLine) : operandWrites p l = namedWrites p l.named OpReg.all := by
  simp only [operandWrites, namedWrites, CommandLine.named, Option.map_map]
  rfl

/-- Each register of the list takes the value it is given, and every other keeps its own. -/
theorem OperandRegs.get_setNamed (f : OpReg → Option Word) (r : OpReg) : ∀ (rs : List OpReg) (o : OperandRegs),
    (OperandRegs.setNamed f rs o).get r = if r ∈ rs then (f r).getD (o.get r) else o.get r
  | [], o => rfl
  | r' :: rs, o => by
    rw [OperandRegs.setNamed, OperandRegs.get_setNamed f r rs]
    by_cases hr : r = r'
    · subst hr
      cases f r <;> simp [OperandRegs.get_set]
    · cases f r' <;> simp [OperandRegs.get_set, hr]

/-- The writes of an idle block store each value in turn. -/
theorem stepsTo_namedWrites (f : OpReg → Option Word) : ∀ (rs : List OpReg) (s : State) (rest : List Turn),
    s.status.busy = false → s.turns = namedWrites s.par f rs ++ rest →
    ∃ n x, stepsTo n s { s with turns := rest, ops := OperandRegs.setNamed f rs s.ops, resp := x }
  | [], s, rest, _, h => by
    subst h
    exact ⟨0, s.resp, rfl⟩
  | r :: rs, s, rest, hb, h => by
    cases hf : f r with
    | none =>
      rw [namedWrites_cons_none _ _ hf] at h
      rw [OperandRegs.setNamed, hf]
      exact stepsTo_namedWrites f rs s rest hb h
    | some v =>
      rw [namedWrites_cons_some _ _ hf] at h
      rw [OperandRegs.setNamed, hf]
      have hstep := step_writes_idle (r := .operand r) h (fun s => writeReg_operand s r v) hb
      obtain ⟨n, x, hn⟩ := stepsTo_namedWrites f rs
        { s with turns := namedWrites s.par f rs ++ rest, ops := s.ops.set r v, resp := .ack } rest hb rfl
      exact ⟨n + 1, x, _, hstep, hn⟩

/-- The state a command line leaves when its word is issued and WAIT is still to come. -/
def lineIssued (s : State) (l : CommandLine) (rest : List Turn) : State :=
  { s with
    cmd := encode (lineInstr l), ops := OperandRegs.setNamed l.named OpReg.all s.ops, turns := .wait :: rest,
    resp := .ack, status := { s.status with busy := true, done := false } }

/-- The operand writes and the `CMD` write of a command line (`30_encoding.md` R88). -/
theorem stepsTo_lineIssued {s : State} {l : CommandLine} {rest : List Turn} (hb : s.status.busy = false)
    (h : s.turns = expandCommand s.par l ++ rest) : ∃ n, stepsTo n s (lineIssued s l rest) := by
  rw [expandCommand, operandWrites_eq, List.append_assoc] at h
  obtain ⟨n, x, hn⟩ := stepsTo_namedWrites l.named OpReg.all s _ hb h
  have hcmd := step_writes_idle (s := { s with
      turns := [regWrite s.par .cmd (encode (lineInstr l)), .wait] ++ rest,
      ops := OperandRegs.setNamed l.named OpReg.all s.ops, resp := x })
    rfl (fun s => writeReg_cmd s (encode (lineInstr l))) hb
  exact ⟨n + 1, stepsTo_trans hn (stepsTo_one hcmd)⟩

/-- The operand registers a command line leaves. -/
theorem lineIssued_ops {s : State} {l : CommandLine} {rest : List Turn} (r : OpReg) :
    (lineIssued s l rest).ops.get r = (l.named r).getD (s.ops.get r) := by
  rw [lineIssued, OperandRegs.get_setNamed, if_pos r.mem_all]

/-! ### Lines of one access (`30_encoding.md` R89) -/

/-- A soft reset leaves every register at its reset value (`70_reset_and_hazards.md` R270). -/
theorem resetValues_softReset (s : State) : ResetValues (s.softReset.answer .ack) := by
  refine ⟨fun r => ?_, rfl, rfl⟩
  cases r with
  | operand o => rcases o with (_ | _ | _ | _) | (_ | _ | _ | _) | (_ | _) | _ | _ <;> rfl
  | lenHi => exact (by decide : (0 : Dword).extractLsb' 32 32 = 0)
  | h i => exact (by decide : ∀ i, latchWord Latch.reset i = 0) i
  | chunk k => exact (by decide : ∀ k, chunkWord Latch.reset k = 0) k
  | _ => rfl

/-- CHECK asserts the code of `STATUS.ERR`. -/
theorem checkHolds_word_iff (e : Nat) (s : Status) : checkHolds e s.word = true ↔ s.err.code = e := by
  obtain ⟨-, -, -, herr, -⟩ := s.word_fields
  rw [checkHolds, herr, beq_iff_eq]

theorem step_clrst {s : State} {rest : List Turn} (h : s.turns = expand s.par .clrst ++ rest) :
    step s = .next { s with
      turns := rest, resp := .ack, status := { s.status with done := false, sticky := false, ovr := false } } := by
  rw [step_nextWrites (r := .status) (rest := rest) h, writeReg_status, Status.hostWrite_eq]
  rfl

theorem step_srst {s : State} {rest : List Turn} (h : s.turns = expand s.par .srst ++ rest) :
    step s = .next ({ s with turns := rest }.softReset.answer .ack) := by
  rw [step_nextWrites (r := .ctrl) (rest := rest) h, writeReg_ctrl_srst _ (by decide)]

theorem step_blen {s : State} {bits : Bool} {rest : List Turn} (hb : s.status.busy = false)
    (h : s.turns = expand s.par (.blen bits) ++ rest) :
    step s = .next { s with turns := rest, blenBits := bits, resp := .ack } := by
  cases bits with
  | true => exact step_writes_idle (r := .ctrl) h (fun s => writeReg_ctrl_blen s (by decide)) hb
  | false => exact step_writes_idle (r := .ctrl) h (fun s => writeReg_ctrl_blen s (by decide)) hb

/-- Settles O60: a command line is its operand writes, its `CMD` write and WAIT; PUT and GET go byte by byte; each other
line is one access. -/
theorem commandLineRunsItsCommand : Obligations.CommandLineRunsItsCommand := by
  refine ⟨fun s l rest hwf hb h => ?_, fun s a d rest hp hb hfit h => ?_, fun s a d rest hp hb hfit hd h j hj => ?_,
    fun s rest => ⟨fun e h => ?_, step_clrst, fun h => ?_, fun bits => step_blen, fun r v h => h, fun r h => h,
      fun hb h => step_wait_idle h hb⟩⟩
  · obtain ⟨n, hn⟩ := stepsTo_lineIssued hb h
    refine ⟨n, (lineIssued s l rest).ops, _, hn, fun x hx => ?_, fun r hr => ?_, rfl, fun u hu => ?_⟩
    · rw [lineIssued_ops, CommandLine.named_of_mem (CommandLine.namedOnce_of_wf hwf) hx, Option.getD_some]
    · rw [lineIssued_ops, CommandLine.named_of_not_mem hr, Option.getD_none]
    · exact stepsTo_trans hn (stepsTo_wait_command rfl rfl (decode_encode _) hu)
  · exact ⟨s.buf.writeBytes a d, fun i hi => Memory.read_writeBytes_inside _ _ _ _ hi,
      fun b hout => Memory.read_writeBytes_outside _ _ _ _ hout, stepsTo_put d s a rest hp hb hfit h⟩
  · refine ⟨_, _, stepsTo_get hp hb hfit hd h j hj, BitVec.toNat_setWidth_of_le (by decide), fun hlast => ?_⟩
    rw [hlast, Nat.sub_self]
    rfl
  · exact ⟨s.status.word, step_reads_exact (r := .status) h (.inr rfl), checkHolds_word_iff e s.status⟩
  · exact ⟨_, step_srst h, resetValues_softReset _, rfl, rfl, rfl⟩

end Sys2Proof.Machine
end

section
/-! PROOFS. Commands with sources: fetching them in order, and the end of a command that stores one result in `DST0`. -/

namespace Sys2Proof.Machine

open Sys2Proof.Claims

/-! ### The sources of a command, in order -/

/-- A command's pseudocode that begins by fetching the sources `ks`, in this order. -/
inductive Fetches {α : Type} (s : State) : List Src → Except Stop α → Prop
  | rest (x : Except Stop α) : Fetches s [] x
  | next (k : Src) {ks : List Src} {f : List Byte → Except Stop α} (h : ∀ d, Fetches s ks (f d)) :
      Fetches s (k :: ks) (source s k >>= f)

theorem Fetches.bind_check {α : Type} {s : State} {ks : List Src} {c : Bool} {e : Err} {f : Unit → Except Stop α}
    (hc : c = true) (h : Fetches s ks (f ())) : Fetches s ks (check c e >>= f) := by
  rwa [hc, check_true, ok_bind]

/-- The first source that cannot be fetched ends the pseudocode. -/
theorem Fetches.eq_error {α : Type} {s : State} {k : Src} {after : List Src} {e : Stop} (hk : source s k = .error e) :
    ∀ {before : List Src} {x : Except Stop α}, Fetches s (before ++ k :: after) x →
      (∀ j ∈ before, ∃ d, Holds s j d) → x = .error e
  | [], _, .next _ _, _ => by rw [hk, error_bind]
  | j :: _, _, .next _ h, hbefore => by
    obtain ⟨d, hd⟩ := hbefore j List.mem_cons_self
    rw [(source_ok_iff s j d).mpr hd, ok_bind]
    exact (h d).eq_error hk fun i hi => hbefore i (List.mem_cons_of_mem _ hi)

/-- Every command with the latch it needs begins by fetching its sources (`60_exceptions.md` R250). -/
theorem exec_fetches (i : Instr) (s : State) (hl : needsLatch i = true → s.latch.valid = true) :
    ∃ body, exec i s = perform s body ∧ Fetches s (reads i) body := by
  cases i with
  | nop | hInit _ | hFinal _ | hMdpad _ | hExport _ =>
    obtain ⟨body, h⟩ := exec_is_perform _ s
    exact ⟨body, h, .rest body⟩
  | pad | unpad | hImport _ => exact ⟨_, rfl, .next _ fun _ => .rest _⟩
  | hAbsorb _ => exact ⟨_, rfl, .bind_check (hl rfl) (.next _ fun _ => .rest _)⟩
  | blkEnc | blkDec | ecbEnc | ecbDec | mac _ => exact ⟨_, rfl, .next _ fun _ => .next _ fun _ => .rest _⟩
  | cbcEnc | cbcDec | ctrXor | forge _ =>
    exact ⟨_, rfl, .next _ fun _ => .next _ fun _ => .next _ fun _ => .rest _⟩
  | ctrEdit => exact ⟨_, rfl, .next _ fun _ => .next _ fun _ => .next _ fun _ => .next _ fun _ => .rest _⟩

theorem complete_eq_failed (s : State) {e : Err} (he : e ≠ .ok) : s.complete e = failed s e := by
  simp [State.complete, Status.completed, failed, he]

/-- The clause that all statements about commands with sources share. -/
theorem sourcesChecked (i : Instr) : SourcesChecked i := by
  intro s before k after hreads hl hbefore
  obtain ⟨body, hexec, hf⟩ := exec_fetches i s hl
  rw [hreads] at hf
  refine ⟨fun hr => ?_, fun hr j hj hnone hfirst => ?_⟩
  · have hk := (source_raise_iff s k .range).mpr ⟨rfl, hr⟩
    rw [hexec, hf.eq_error hk hbefore, perform_raise, complete_eq_failed s (by decide)]
  · have hk := (source_fault_iff s k _).mpr ⟨hr, j, hj, rfl, hnone, hfirst⟩
    rw [hexec, hf.eq_error hk hbefore, perform_stop]

theorem source_of_holds {s : State} {k : Src} {d : List Byte} (h : Holds s k d) : source s k = .ok d :=
  (source_ok_iff s k d).mpr h

/-! ### A command with one result -/

/-- What is gathered is one write, of `d` to `DST0`: the command succeeds iff `d` fits there. -/
theorem perform_d0 {s : State} {e : Effect} {d : List Byte} (hp : e.pending = [((s.ops.dstAddr .d0).toNat, d)])
    (h0 : e.res0 = d.length) (h1 : e.res1 = 0) :
    perform s (.ok e) = .next (if Fits s .d0 d.length then succeeded s (stored s .d0 d) d.length 0 e.cc e.hc e.newL
      else failed s .range) := by
  have hfits : e.fits s = true ↔ Fits s .d0 d.length := by simp [Effect.fits_iff, hp]
  rw [perform_ok]
  by_cases h : Fits s .d0 d.length
  · rw [if_pos (hfits.mpr h), if_pos h, State.complete, State.commit, hp, h0, h1]
    simp [succeeded, stored, Status.completed, Memory.writeAll]
  · rw [if_neg (mt hfits.mp h), if_neg h, complete_eq_failed s (by decide)]

end Sys2Proof.Machine
end

section
/-! PROOFS. The single-block cipher: AES-128 against its inverse and its reference values, BLK_ENC and BLK_DEC
(`40_cipher.md` R113 to R117). -/

namespace Sys2Proof.Machine

open Sys2Proof.Claims

/-! ### The commands (`40_cipher.md` R116, R117) -/

/-- The end of BLK_ENC and of BLK_DEC, once the block `b` and the key `k` are fetched and `out` is the result. -/
def finishBlock (s : State) (b k out : List Byte) : Host.Outcome State Fault Refusal :=
  perform s do
    need (b.length == 16 && k.length == 16)
    return ((Effect.start s).emit s .d0 out).count 1 0

theorem exec_blkEnc {s : State} {b k : List Byte} (hb : Holds s .s0 b) (hk : Holds s .s1 k) :
    exec .blkEnc s = finishBlock s b k ((cipherOf s.par).enc b k) := by
  rw [exec, execBlkEnc, source_of_holds hb, source_of_holds hk, ok_bind, ok_bind, finishBlock]

theorem exec_blkDec {s : State} {b k : List Byte} (hb : Holds s .s0 b) (hk : Holds s .s1 k) :
    exec .blkDec s = finishBlock s b k ((cipherOf s.par).dec b k) := by
  rw [exec, execBlkDec, source_of_holds hb, source_of_holds hk, ok_bind, ok_bind, finishBlock]

/-- The lengths are checked before the destination. -/
theorem finishBlock_outcomes (s : State) (b k out : List Byte) (hout : k.length = 16 → out.length = 16) :
    (b.length = 16 → k.length = 16 → Fits s .d0 16 →
      finishBlock s b k out = .next (succeeded s (stored s .d0 out) 16 0 1 0 s.latch)) ∧
    (b.length ≠ 16 ∨ k.length ≠ 16 → finishBlock s b k out = .next (failed s .validation)) ∧
    (b.length = 16 → k.length = 16 → ¬ Fits s .d0 16 → finishBlock s b k out = .next (failed s .range)) := by
  have hstore (hb : b.length = 16) (hk : k.length = 16) : finishBlock s b k out =
      .next (if Fits s .d0 16 then succeeded s (stored s .d0 out) 16 0 1 0 s.latch else failed s .range) := by
    have hend := perform_d0 (s := s) (e := ((Effect.start s).emit s .d0 out).count 1 0) rfl rfl rfl
    rw [hout hk] at hend
    rw [finishBlock, hb, hk]
    exact hend
  refine ⟨fun hb hk hf => ?_, fun hbad => ?_, fun hb hk hf => ?_⟩
  · rw [hstore hb hk, if_pos hf]
  · have hneed : (b.length == 16 && k.length == 16) = false := by
      rwa [Bool.and_eq_false_iff, beq_eq_false_iff_ne, beq_eq_false_iff_ne]
    rw [finishBlock, hneed, need_false, error_bind, perform_raise, complete_eq_failed s (by decide)]
  · rw [hstore hb hk, if_neg hf]

/-- Settles O12: with its sources fetched the command checks the two lengths and stores one block. -/
theorem blkEncWritesTheEncryptedBlock : Obligations.BlkEncWritesTheEncryptedBlock := by
  refine ⟨sourcesChecked _, fun s b k hb hk => ?_⟩
  rw [exec_blkEnc hb hk]
  exact finishBlock_outcomes s b k _ (cipherOf_enc_length s.par b k)

/-- Settles O13: as for BLK_ENC, with `D` in the place of `E`. -/
theorem blkDecWritesTheDecryptedBlock : Obligations.BlkDecWritesTheDecryptedBlock := by
  refine ⟨sourcesChecked _, fun s b k hb hk => ?_⟩
  rw [exec_blkDec hb hk]
  exact finishBlock_outcomes s b k _ (cipherOf_dec_length s.par b k)

/-! ### Cipher and InvCipher (`40_cipher.md` R110, R111, R113) -/

/-- The rounds of the inverse cipher undo the rounds of the cipher, between the two S-box layers. -/
theorem decRounds_encRounds {w : List (List Byte)} (s : List Byte) : ∀ {n : Nat},
    (∀ r ≤ n, (roundKey w r).length = 16) →
    decRounds w n (shiftRows (subBytes (encRounds w n s))) = shiftRows (subBytes s)
  | 0, _ => rfl
  | n + 1, hw => by
    rw [decRounds, encRounds, decRound_encRound _ _ (hw _ le_rfl),
      decRounds_encRounds s fun r hr => hw r (Nat.le_succ_of_le hr)]

/-- The rounds of the cipher undo the rounds of the inverse cipher, between the two S-box layers. -/
theorem encRounds_decRounds {w : List (List Byte)} : ∀ {n : Nat} (s : List Byte),
    (∀ r ≤ n, (roundKey w r).length = 16) →
    encRounds w n (invSubBytes (invShiftRows (decRounds w n s))) = invSubBytes (invShiftRows s)
  | 0, _, _ => rfl
  | n + 1, s, hw => by
    rw [decRounds, encRounds, encRounds_decRounds _ fun r hr => hw r (Nat.le_succ_of_le hr),
      encRound_decRound _ _ (hw _ le_rfl)]

theorem aesDec_aesEnc {b k : List Byte} (hb : b.length = 16) (hk : k.length = 16) : aesDec (aesEnc b k) k = b := by
  have hkey {r : Nat} (hr : r ≤ 10) := roundKey_length k hk r hr
  have hfirst : (addRoundKey b (roundKey (keySchedule k) 0)).length = 16 := addRoundKey_length _ _ hb (hkey (by omega))
  rw [aesDec, aesEnc, addRoundKey_cancel _ _ (by rw [shiftRows_length, hkey (by omega)]),
    decRounds_encRounds _ fun r hr => hkey (by omega), invShiftRows_shiftRows _ (by rw [subBytes_length, hfirst]),
    invSubBytes_subBytes, addRoundKey_cancel _ _ (by rw [hb, hkey (by omega)])]

theorem aesEnc_aesDec {b k : List Byte} (hb : b.length = 16) (hk : k.length = 16) : aesEnc (aesDec b k) k = b := by
  have hkey {r : Nat} (hr : r ≤ 10) := roundKey_length k hk r hr
  have hlast : (addRoundKey b (roundKey (keySchedule k) 10)).length = 16 := addRoundKey_length _ _ hb (hkey (by omega))
  rw [aesEnc, aesDec, addRoundKey_cancel _ _ (by rw [invSubBytes_length, invShiftRows_length, hkey (by omega)]),
    encRounds_decRounds _ fun r hr => hkey (by omega), subBytes_invSubBytes, shiftRows_invShiftRows _ hlast,
    addRoundKey_cancel _ _ (by rw [hb, hkey (by omega)])]

/-- Settles O48: each round of the one undoes the round of the other, and so do the first and the last key addition. -/
theorem aesDecryptInvertsEncrypt : Obligations.AesDecryptInvertsEncrypt :=
  fun _ _ hb hk => ⟨aesDec_aesEnc hb hk, aesEnc_aesDec hb hk⟩

/-- Settles O47: the cipher and the key schedule are evaluated on the three vectors. -/
theorem aesReferenceValues : Obligations.AesReferenceValues := by
  refine ⟨?_, ?_, ?_⟩
  · decide +kernel
  · decide +kernel
  · decide +kernel

end Sys2Proof.Machine
end

section
/-! PROOFS. What the mode commands share: the padding of a plaintext, the end of a command once its sources are fetched, and
the blocks of a sequence (`42_padding.md` R161, R162; `41_modes.md` R131 to R143). -/

namespace Sys2Proof.Machine

open Sys2Proof.Claims

/-! ### Padding and unpadding (`42_padding.md` R161, R162) -/

theorem padded_length (s : List Byte) (B : Nat) : (padded s B).length = s.length + (B - s.length % B) :=
  pkcs7Pad_length s B

theorem padCount_padded (s : List Byte) {B : Nat} (hB : 1 ≤ B) : PadCount B (padded s B) (B - s.length % B) := by
  have hmod := Nat.mod_lt s.length hB
  have hle := Nat.mod_le s.length B
  have hstart : (padded s B).length - (B - s.length % B) = s.length := by rw [padded_length, Nat.add_sub_cancel]
  refine ⟨?_, by omega, by omega, ?_, ?_⟩
  · rw [padded_length]
    omega
  · rw [padded_length]
    omega
  · rw [hstart, padded, List.drop_left]

theorem pkcs7Unpad_of_padCount {q : List Byte} {B n : Nat} (hB : B ≤ 255) (h : PadCount B q n) :
    pkcs7Unpad q B = .ok (q.take (q.length - n)) := by
  obtain ⟨hblock, hpos, hle, hlen, hdrop⟩ := h
  exact (pkcs7Unpad_ok_iff q _ B hB).mpr ⟨n, hblock, hpos, hle, hlen, hdrop, rfl⟩

theorem pkcs7Unpad_of_badPadding {q : List Byte} {B : Nat} (hB : B ≤ 255) (h : BadPadding B q) :
    pkcs7Unpad q B = .error (.raise .padding) := by
  cases hu : pkcs7Unpad q B with
  | error x => rw [pkcs7Unpad_error q B x hu]
  | ok p =>
    obtain ⟨n, hblock, hpos, hle, hlen, hdrop, -⟩ := (pkcs7Unpad_ok_iff q p B hB).mp hu
    exact absurd ⟨hblock, hpos, hle, hlen, hdrop⟩ (h n hle)

theorem pkcs7Unpad_padded (s : List Byte) {B : Nat} (hB : 1 ≤ B) (hB' : B ≤ 255) :
    pkcs7Unpad (padded s B) B = .ok s := by
  rw [pkcs7Unpad_of_padCount hB' (padCount_padded s hB), padded_length, Nat.add_sub_cancel, padded, List.take_left]

/-! ### The end of a mode command -/

/-- The end of a mode command with its sources fetched: the check `ok` of their lengths, then the result, with `c` cipher
invocations counted. -/
def finishMode (s : State) (ok : Prop) [Decidable ok] (result : Except Stop (List Byte)) (c : Nat) :
    Host.Outcome State Fault Refusal :=
  perform s do
    need ok
    let out ← result
    return ((Effect.start s).emit s .d0 out).count c 0

section
variable {s : State} {ok : Prop} [Decidable ok] {result : Except Stop (List Byte)} {out q : List Byte} {c n : Nat}

theorem finishMode_invalid (h : ¬ ok) : finishMode s ok result c = .next (failed s .validation) := by
  rw [finishMode, decide_eq_false h, need_false, error_bind, perform_raise, complete_eq_failed s (by decide)]

theorem finishMode_ok (h : ok) : finishMode s ok (.ok out) c = .next (if Fits s .d0 out.length
    then succeeded s (stored s .d0 out) out.length 0 c 0 s.latch else failed s .range) := by
  have hend := perform_d0 (s := s) (e := ((Effect.start s).emit s .d0 out).count c 0) rfl rfl rfl
  rw [Effect.count_cc, Effect.emit_cc, Effect.start_cc, Nat.zero_add] at hend
  rw [finishMode, decide_eq_true h, need_true, ok_bind, ok_bind]
  exact hend

theorem finishMode_fits (h : ok) (hout : out.length = n) (hf : Fits s .d0 n) :
    finishMode s ok (.ok out) c = .next (succeeded s (stored s .d0 out) n 0 c 0 s.latch) := by
  subst hout
  rw [finishMode_ok h, if_pos hf]

theorem finishMode_range (h : ok) (hout : out.length = n) (hf : ¬ Fits s .d0 n) :
    finishMode s ok (.ok out) c = .next (failed s .range) := by
  subst hout
  rw [finishMode_ok h, if_neg hf]

/-- A decryption whose padding is not well formed. -/
theorem finishMode_badPadding (h : ok) (hbad : BadPadding 16 q) :
    finishMode s ok (pkcs7Unpad q 16) c = .next (failed s .padding) := by
  rw [finishMode, decide_eq_true h, need_true, ok_bind, pkcs7Unpad_of_badPadding (by decide) hbad, error_bind,
    perform_raise, complete_eq_failed s (by decide)]

/-- A decryption of `c` blocks whose padding has `n` bytes. -/
theorem finishMode_padCount (h : ok) (hq : q.length = 16 * c) (hpad : PadCount 16 q n) :
    (Fits s .d0 (16 * c - n) → finishMode s ok (pkcs7Unpad q 16) c =
      .next (succeeded s (stored s .d0 (q.take (16 * c - n))) (16 * c - n) 0 c 0 s.latch)) ∧
    (¬ Fits s .d0 (16 * c - n) → finishMode s ok (pkcs7Unpad q 16) c = .next (failed s .range)) := by
  have hlen : (q.take (16 * c - n)).length = 16 * c - n := by
    rw [List.length_take]
    omega
  rw [pkcs7Unpad_of_padCount (by decide) hpad, hq]
  exact ⟨finishMode_fits h hlen, finishMode_range h hlen⟩

end

/-! ### The commands with their sources fetched -/

theorem need_bind_need {α : Type} (a b : Bool) (f : Unit → Except Stop α) :
    (need a >>= fun _ => need b >>= f) = need (a && b) >>= f := by
  cases a with
  | false => rfl
  | true => rfl

section
variable {s : State} {d k v r : List Byte}

theorem exec_ecbEnc {m : Nat} (hd : Holds s .s0 d) (hk : Holds s .s1 k) (hm : (padded d 16).length = 16 * m) :
    exec .ecbEnc s = finishMode s (k.length = 16) (.ok (ecbEncrypt (cipherOf s.par) k m (padded d 16))) m := by
  obtain rfl : m = (padded d 16).length / 16 := by omega
  rw [exec, execEcbEnc, source_of_holds hd, source_of_holds hk, ok_bind, ok_bind, finishMode, beq_eq_decide]
  rfl

theorem exec_ecbDec (hd : Holds s .s0 d) (hk : Holds s .s1 k) :
    exec .ecbDec s = finishMode s (k.length = 16 ∧ d.length % 16 = 0)
      (pkcs7Unpad (ecbDecrypt (cipherOf s.par) k (d.length / 16) d) 16) (d.length / 16) := by
  rw [exec, execEcbDec, source_of_holds hd, source_of_holds hk, ok_bind, ok_bind, finishMode, Bool.decide_and,
    beq_eq_decide, beq_eq_decide]

theorem exec_cbcEnc {m : Nat} (hd : Holds s .s0 d) (hk : Holds s .s1 k) (hv : Holds s .s2 v)
    (hm : (padded d 16).length = 16 * m) :
    exec .cbcEnc s = finishMode s (k.length = 16 ∧ v.length = 16)
      (.ok (cbcEncrypt (cipherOf s.par) k v m (padded d 16))) m := by
  obtain rfl : m = (padded d 16).length / 16 := by omega
  rw [exec, execCbcEnc, source_of_holds hd, source_of_holds hk, source_of_holds hv, ok_bind, ok_bind, ok_bind,
    finishMode, Bool.decide_and, beq_eq_decide, beq_eq_decide]
  rfl

theorem exec_cbcDec (hd : Holds s .s0 d) (hk : Holds s .s1 k) (hv : Holds s .s2 v) :
    exec .cbcDec s = finishMode s ((k.length = 16 ∧ v.length = 16) ∧ d.length % 16 = 0)
      (pkcs7Unpad (cbcDecrypt (cipherOf s.par) k v (d.length / 16) d) 16) (d.length / 16) := by
  rw [exec, execCbcDec, source_of_holds hd, source_of_holds hk, source_of_holds hv, ok_bind, ok_bind, ok_bind,
    finishMode, Bool.decide_and, Bool.decide_and, beq_eq_decide, beq_eq_decide, beq_eq_decide]

theorem exec_ctrXor (hd : Holds s .s0 d) (hk : Holds s .s1 k) (hv : Holds s .s2 v) :
    exec .ctrXor s = finishMode s (k.length = 16 ∧ v.length = 8) (.ok (ctrXor (cipherOf s.par) k v d))
      (ctrBlocks d.length) := by
  rw [exec, execCtrXor, source_of_holds hd, source_of_holds hk, source_of_holds hv, ok_bind, ok_bind, ok_bind,
    finishMode, Bool.decide_and, beq_eq_decide, beq_eq_decide]
  rfl

theorem exec_ctrEdit (hd : Holds s .s0 d) (hk : Holds s .s1 k) (hv : Holds s .s2 v) (hr : Holds s .s3 r) :
    exec .ctrEdit s = finishMode s ((k.length = 16 ∧ v.length = 8) ∧ s.ops.arg0.toNat + r.length ≤ d.length)
      (.ok (ctrEdit (cipherOf s.par) k v d s.ops.arg0.toNat r)) (editBlocks s.ops.arg0.toNat r.length) := by
  rw [exec, execCtrEdit, source_of_holds hd, source_of_holds hk, source_of_holds hv, source_of_holds hr, ok_bind, ok_bind,
    ok_bind, ok_bind, need_bind_need, finishMode, Bool.decide_and, Bool.decide_and, beq_eq_decide, beq_eq_decide]
  rfl

end

/-! ### Blocks of a sequence -/

theorem runs_succ_append {n m : Nat} {a s : List Byte} (h : a.length = n) : runs n (m + 1) (a ++ s) = a :: runs n m s := by
  rw [runs, List.take_left' h, List.drop_left' h]

theorem runs_eq_blockAt (m : Nat) (q : List Byte) : runs 16 m q = (List.range m).map (blockAt q) := runs_eq 16 m q

theorem blockAt_length {q : List Byte} {m i : Nat} (hq : q.length = 16 * m) (hi : i < m) : (blockAt q i).length = 16 := by
  rw [blockAt, slice, List.length_take, List.length_drop]
  omega

/-- The blocks of a concatenation of blocks. -/
theorem blockAt_flatten {m i : Nat} {f : Nat → List Byte} (h : ∀ i < m, (f i).length = 16) (hi : i < m) :
    blockAt ((List.range m).map f).flatten i = f i := by
  have hruns := runs_of_flatten 16 ((List.range m).map f) fun b hb => by
    obtain ⟨i, hi, rfl⟩ := List.mem_map.mp hb
    exact h i (List.mem_range.mp hi)
  rw [List.length_map, List.length_range, runs_eq_blockAt] at hruns
  exact List.map_inj_left.mp hruns i (List.mem_range.mpr hi)

end Sys2Proof.Machine
end

section
/-! PROOFS. ECB: the two commands and their round trip (`41_modes.md` R131 to R133). -/

namespace Sys2Proof.Machine

open Sys2Proof.Claims

/-! ### The commands (`41_modes.md` R131, R132) -/

theorem ecbEncrypt_length (C : BlockCipher) {k q : List Byte} {m : Nat}
    (hC : ∀ i < m, (C.enc (blockAt q i) k).length = 16) : (ecbEncrypt C k m q).length = 16 * m := by
  rw [ecbEncrypt_eq]
  exact map_range_flatten_length m _ hC

theorem ecbDecrypt_length (C : BlockCipher) {k c : List Byte} {m : Nat}
    (hC : ∀ i < m, (C.dec (blockAt c i) k).length = 16) : (ecbDecrypt C k m c).length = 16 * m := by
  rw [ecbDecrypt_eq]
  exact map_range_flatten_length m _ hC

/-- Settles O14: the padded plaintext is encrypted run by run, and its runs are its blocks. -/
theorem ecbEncWritesTheEncryptedBlocks : Obligations.EcbEncWritesTheEncryptedBlocks := by
  refine ⟨sourcesChecked _, fun s p k m hp hk hm => ?_⟩
  have hq : (padded p 16).length = 16 * m := by
    rw [padded_length]
    omega
  have hlen (hk16 : k.length = 16) : (ecbEncrypt (cipherOf s.par) k m (padded p 16)).length = 16 * m :=
    ecbEncrypt_length _ fun _ _ => cipherOf_enc_length s.par _ k hk16
  rw [exec_ecbEnc hp hk hq]
  refine ⟨fun hk16 hf => ?_, finishMode_invalid, fun hk16 => finishMode_range hk16 (hlen hk16)⟩
  rw [finishMode_fits hk16 (hlen hk16) hf, ecbEncrypt_eq]
  rfl

/-- Settles O15: the ciphertext is decrypted run by run, and what remains is the end of a decrypting command. -/
theorem ecbDecWritesTheUnpaddedPlaintext : Obligations.EcbDecWritesTheUnpaddedPlaintext := by
  refine ⟨sourcesChecked _, fun s c k q m hc hk hq hm => ?_⟩
  subst hm
  have hdec : ecbDecrypt (cipherOf s.par) k (c.length / 16) c = q := by
    rw [hq, ecbDecrypt_eq]
    rfl
  have hlen (hk16 : k.length = 16) : q.length = 16 * (c.length / 16) :=
    hdec ▸ ecbDecrypt_length _ fun _ _ => cipherOf_dec_length s.par _ k hk16
  rw [exec_ecbDec hc hk, hdec]
  exact ⟨fun hbad => finishMode_invalid (by omega), fun hk16 hc16 => finishMode_badPadding ⟨hk16, hc16⟩,
    fun n hk16 hc16 => finishMode_padCount ⟨hk16, hc16⟩ (hlen hk16)⟩

/-! ### The round trip (`41_modes.md` R133) -/

/-- A block's pair is lawful when the other pair of `00_scope.md` R7 is; AES-128 is by `40_cipher.md` R113. -/
theorem lawful_cipherOf {p : Params} (h : p.LegalCipher) : Lawful (cipherOf p) where
  enc_length b k _ hk := cipherOf_enc_length p b k hk
  dec_length b k _ hk := cipherOf_dec_length p b k hk
  dec_enc b k hb hk := by
    cases hc : p.cipher with
    | aes128 =>
      simp only [cipherOf, hc, aes128]
      exact aesDec_aesEnc hb hk
    | other =>
      simp only [cipherOf, hc]
      exact onBlocks_inverse _ _ (h hc) b k hb

theorem ecbDecrypt_ecbEncrypt {C : BlockCipher} {k q : List Byte} {m : Nat} (hC : Lawful C) (hk : k.length = 16)
    (hq : q.length = 16 * m) : ecbDecrypt C k m (ecbEncrypt C k m q) = q := by
  have hblock := mem_runs_length 16 m q
  have hruns : runs 16 m (ecbEncrypt C k m q) = (runs 16 m q).map fun b => C.enc b k := by
    have h := runs_of_flatten 16 ((runs 16 m q).map fun b => C.enc b k) fun c hc => by
      obtain ⟨b, hb, rfl⟩ := List.mem_map.mp hc
      exact hC.enc_length b k (hblock b hq hb) hk
    rwa [List.length_map, runs_length] at h
  have hinv : ((runs 16 m q).map fun b => C.dec (C.enc b k) k) = runs 16 m q :=
    (List.map_congr_left fun b hb => hC.dec_enc b k (hblock b hq hb) hk).trans (List.map_id' _)
  rw [ecbDecrypt, hruns, List.map_map]
  exact (congrArg List.flatten hinv).trans (runs_flatten 16 m q hq)

/-- What one command stored, the next finds at that address with the result length as its length. -/
theorem holds_of_stored {s u : State} {d : List Byte} (hp : s.par.Legal) (hf : Fits s .d0 d.length) (hpar : u.par = s.par)
    (hbuf : u.buf = stored s .d0 d) (haddr : u.ops.src0Addr = s.ops.dst0Addr)
    (hlen : u.ops.src0Len = BitVec.ofNat 32 d.length) : Holds u .s0 d := by
  obtain ⟨-, hsize, -⟩ := legal_facts s.par hp
  have hd : (u.ops.srcLen .s0).toNat = d.length := by
    rw [OperandRegs.srcLen, hlen, BitVec.toNat_ofNat, Nat.mod_eq_of_lt (by omega)]
  have ha : (u.ops.srcAddr .s0).toNat = (s.ops.dstAddr .d0).toNat := by
    rw [OperandRegs.srcAddr, haddr, OperandRegs.dstAddr]
  refine ⟨by rwa [SrcInRange, ha, hd, hpar], hd.symm, fun i hi => ?_⟩
  rw [hbuf, ha, stored, Memory.read_writeBytes_inside _ _ _ _ hi]

/-- Settles O51: the encryption is found where it was stored, decrypts to the padded plaintext, and that unpads. -/
theorem ecbRoundTrip : Obligations.EcbRoundTrip := by
  intro s p k hpar hC hp hk hk16 hf
  have hlaw := lawful_cipherOf hC
  obtain ⟨m, hm⟩ : ∃ m, (padded p 16).length = 16 * m := ⟨p.length / 16 + 1, by rw [padded_length]; omega⟩
  have hlen : (ecbEncrypt (cipherOf s.par) k m (padded p 16)).length = 16 * m :=
    ecbEncrypt_length _ fun _ _ => cipherOf_enc_length s.par _ k hk16
  rw [show p.length + 16 - p.length % 16 = 16 * m by rw [← hm, padded_length]; omega] at hf
  refine ⟨_, (exec_ecbEnc hp hk hm).trans (finishMode_fits hk16 hlen hf), rfl, fun u hu hbuf haddr hlen0 hk' hf' => ?_⟩
  have hc : Holds u .s0 (ecbEncrypt (cipherOf s.par) k m (padded p 16)) :=
    holds_of_stored hpar (by rwa [hlen]) hu hbuf haddr (by rw [hlen0, hlen]; rfl)
  have hparu : u.par = s.par := hu
  have hexec := exec_ecbDec hc hk'
  rw [hlen, Nat.mul_div_cancel_left m (by decide), hparu, ecbDecrypt_ecbEncrypt hlaw hk16 hm,
    pkcs7Unpad_padded p (by decide) (by decide)] at hexec
  exact ⟨_, hexec.trans (finishMode_fits ⟨hk16, Nat.mul_mod_right 16 m⟩ rfl hf'), rfl, rfl,
    fun i hi => Memory.read_writeBytes_inside _ _ _ _ hi⟩

end Sys2Proof.Machine
end

section
/-! PROOFS. CBC: the two commands, their round trip and bit flipping (`41_modes.md` R134 to R136). -/

namespace Sys2Proof.Machine

open Sys2Proof.Claims

/-! ### The commands (`41_modes.md` R134, R135) -/

/-- Decrypted block `i` before unpadding (`41_modes.md` R135). -/
def cbcPlainBlock (C : BlockCipher) (k iv c : List Byte) (i : Nat) : List Byte :=
  xorBytes (C.dec (blockAt c i) k) (if i = 0 then iv else blockAt c (i - 1))

theorem cbcDecrypt_eq_plainBlocks (C : BlockCipher) (k iv c : List Byte) (m : Nat) :
    cbcDecrypt C k iv m c = ((List.range m).map (cbcPlainBlock C k iv c)).flatten := cbcDecrypt_eq C k iv c m

theorem cbcPlainBlock_length {C : BlockCipher} {k iv c : List Byte} {m : Nat} (hc : c.length = 16 * m) (hiv : iv.length = 16)
    {i : Nat} (hi : i < m) (hC : (C.dec (blockAt c i) k).length = 16) : (cbcPlainBlock C k iv c i).length = 16 := by
  have hprev : (if i = 0 then iv else blockAt c (i - 1)).length = 16 := by
    split
    · exact hiv
    · exact blockAt_length hc (by omega)
  rw [cbcPlainBlock, xorBytes_length, hC, hprev, Nat.min_self]

/-- Settles O16: the ciphertext chains run by run, and the padded plaintext's runs are its blocks. -/
theorem cbcEncWritesTheChainedBlocks : Obligations.CbcEncWritesTheChainedBlocks := by
  refine ⟨sourcesChecked _, fun s p k iv m hp hk hiv hm => ?_⟩
  have hq : (padded p 16).length = 16 * m := by
    rw [padded_length]
    omega
  have hspec (hk16 : k.length = 16) := cbcEncBlocks_spec (cipherOf s.par) k
    (fun b => cipherOf_enc_length s.par b k hk16) (runs 16 m (padded p 16)) iv
  simp only [runs_length] at hspec
  rw [exec_cbcEnc hp hk hiv hq]
  refine ⟨fun hk16 hiv16 hf => ?_, fun hbad => finishMode_invalid (by omega), fun hk16 hiv16 hf => ?_⟩
  · obtain ⟨hlen, hblocks⟩ := hspec hk16
    refine ⟨_, hlen, fun i hi => ?_, finishMode_fits ⟨hk16, hiv16⟩ hlen hf⟩
    have hrun : (runs 16 m (padded p 16)).getD i [] = blockAt (padded p 16) i := by
      simp [runs_eq_blockAt, hi]
    rw [← hrun]
    exact hblocks i hi
  · exact finishMode_range ⟨hk16, hiv16⟩ (hspec hk16).1 hf

/-- Settles O17: the ciphertext is decrypted block by block, and what remains is the end of a decrypting command. -/
theorem cbcDecWritesTheUnpaddedPlaintext : Obligations.CbcDecWritesTheUnpaddedPlaintext := by
  refine ⟨sourcesChecked _, fun s c k iv q m hc hk hiv hq hm => ?_⟩
  subst hm
  have hdec : cbcDecrypt (cipherOf s.par) k iv (c.length / 16) c = q := by
    rw [hq, cbcDecrypt_eq]
    rfl
  have hlen (hk16 : k.length = 16) (hiv16 : iv.length = 16) (hc16 : c.length % 16 = 0) :
      q.length = 16 * (c.length / 16) := by
    rw [← hdec, cbcDecrypt_eq_plainBlocks]
    exact map_range_flatten_length _ _ fun i hi =>
      cbcPlainBlock_length (by omega) hiv16 hi (cipherOf_dec_length s.par _ k hk16)
  rw [exec_cbcDec hc hk hiv, hdec]
  exact ⟨fun hbad => finishMode_invalid (by omega),
    fun hk16 hiv16 hc16 => finishMode_badPadding ⟨⟨hk16, hiv16⟩, hc16⟩,
    fun n hk16 hiv16 hc16 => finishMode_padCount ⟨⟨hk16, hiv16⟩, hc16⟩ (hlen hk16 hiv16 hc16)⟩

/-! ### The round trip and bit flipping (`41_modes.md` R136) -/

/-- Decryption undoes the chained encryption of a list of blocks. -/
theorem cbcDecrypt_cbcEncBlocks {C : BlockCipher} {k : List Byte} (hC : Lawful C) (hk : k.length = 16) :
    ∀ {bs : List (List Byte)} {prev : List Byte}, prev.length = 16 → (∀ b ∈ bs, b.length = 16) →
      cbcDecrypt C k prev bs.length (cbcEncBlocks C k prev bs) = bs.flatten
  | [], _, _, _ => rfl
  | b :: bs, prev, hprev, hbs => by
    have hb : b.length = 16 := hbs b List.mem_cons_self
    have hx : (xorBytes b prev).length = 16 := by rw [xorBytes_length, hb, hprev, Nat.min_self]
    have hci := hC.enc_length _ k hx hk
    have ih := cbcDecrypt_cbcEncBlocks hC hk hci fun c hc => hbs c (List.mem_cons_of_mem _ hc)
    rw [cbcEncBlocks, cbcDecrypt, List.length_cons, runs_succ_append hci, cbcDecBlocks, hC.dec_enc _ k hx hk,
      xorBytes_cancel _ _ (by omega), List.flatten_cons, ← ih, cbcDecrypt]

/-- `d` with `x` XORed into byte `j`. -/
def xorAt (d : List Byte) (j : Nat) (x : Byte) : List Byte := d.set j (d.getD j 0 ^^^ x)

theorem xorAt_append_left {a : List Byte} (b : List Byte) {j : Nat} (x : Byte) (h : j < a.length) :
    xorAt (a ++ b) j x = xorAt a j x ++ b := by
  rw [xorAt, List.getD_append _ _ _ _ h, List.set_append_left _ _ h, xorAt]

theorem xorBytes_xorAt_right : ∀ {a b : List Byte} {j : Nat} (x : Byte), j < a.length → j < b.length →
    xorBytes a (xorAt b j x) = xorAt (xorBytes a b) j x
  | a :: as, b :: bs, 0, x, _, _ => by simp [xorBytes, xorAt, BitVec.xor_assoc]
  | a :: as, b :: bs, j + 1, x, ha, hb => by
    have ih := xorBytes_xorAt_right x (Nat.lt_of_succ_lt_succ ha) (Nat.lt_of_succ_lt_succ hb)
    simpa [xorBytes, xorAt] using ih

theorem blockAt_xorAt_same (c : List Byte) (i : Nat) {j : Nat} (x : Byte) (hj : j < 16) :
    blockAt (xorAt c (16 * i + j) x) i = xorAt (blockAt c i) j x := by
  have hbyte : (blockAt c i).getD j 0 = c.getD (16 * i + j) 0 := by
    simp [blockAt, slice, List.getD_eq_getElem?_getD, hj]
  rw [xorAt, xorAt, hbyte, blockAt, slice, List.drop_set, if_neg (by omega), List.take_set, Nat.add_sub_cancel_left,
    Nat.add_sub_cancel_left, blockAt, slice, Nat.add_sub_cancel_left]

theorem blockAt_xorAt_other (c : List Byte) {i l j : Nat} (x : Byte) (hil : i ≠ l) (hj : j < 16) :
    blockAt (xorAt c (16 * l + j) x) i = blockAt c i := by
  rw [xorAt, blockAt, slice, List.drop_set]
  split
  · rfl
  · rw [List.take_set, List.set_eq_of_length_le, blockAt, slice]
    rw [List.length_take]
    omega

/-- Bit flipping: a change of a ciphertext byte changes that byte of the next decrypted block. -/
theorem cbcPlainBlock_xorAt {C : BlockCipher} {k iv c : List Byte} {m i j : Nat} (x : Byte) (hc : c.length = 16 * m)
    (hpos : 1 ≤ i) (hi : i < m) (hj : j < 16) (hC : (C.dec (blockAt c i) k).length = 16) :
    cbcPlainBlock C k iv (xorAt c (16 * (i - 1) + j) x) i = xorAt (cbcPlainBlock C k iv c i) j x := by
  have hne : i ≠ 0 := by omega
  have hprev : (blockAt c (i - 1)).length = 16 := blockAt_length hc (by omega)
  rw [cbcPlainBlock, cbcPlainBlock, if_neg hne, if_neg hne, blockAt_xorAt_other c x (by omega) hj,
    blockAt_xorAt_same c _ x hj, xorBytes_xorAt_right x (by omega) (by omega)]

/-- A change of a byte of the IV changes that byte of the first decrypted block. -/
theorem cbcDecrypt_xorAt_iv {C : BlockCipher} {k iv c : List Byte} {m j : Nat} (x : Byte) (hiv : iv.length = 16)
    (hj : j < 16) (hC : (C.dec (c.take 16) k).length = 16) :
    cbcDecrypt C k (xorAt iv j x) (m + 1) c = xorAt (cbcDecrypt C k iv (m + 1) c) j x := by
  rw [cbcDecrypt, cbcDecrypt, runs, cbcDecBlocks, cbcDecBlocks, xorBytes_xorAt_right x (by omega) (by omega),
    xorAt_append_left _ _ (by rw [xorBytes_length]; omega)]

/-- Settles O52: decryption undoes encryption block by block, and a ciphertext block reaches the next decrypted block by
XOR alone. -/
theorem cbcRoundTripAndBitFlips : Obligations.CbcRoundTripAndBitFlips := by
  intro C k iv hC hk hiv
  refine ⟨fun p m hm => ?_, fun c m i j x hc hpos hi hj => ?_, fun c m j x hc hm hj => ?_⟩
  · have hround := cbcDecrypt_cbcEncBlocks hC hk hiv fun b => mem_runs_length 16 m (padded p 16) b hm.symm
    rw [runs_length, runs_flatten 16 m _ hm.symm] at hround
    rw [cbcEncrypt, hround, pkcs7Unpad_padded p (by decide) (by decide)]
  · have hblock {c : List Byte} (hc : c.length = 16 * m) :
        blockAt (cbcDecrypt C k iv m c) i = cbcPlainBlock C k iv c i := by
      rw [cbcDecrypt_eq_plainBlocks]
      exact blockAt_flatten
        (fun l hl => cbcPlainBlock_length hc hiv hl (hC.dec_length _ k (blockAt_length hc hl) hk)) hi
    rw [hblock hc, ← xorAt, ← xorAt, hblock (by rw [xorAt, List.length_set, hc])]
    exact cbcPlainBlock_xorAt x hc hpos hi hj (hC.dec_length _ k (blockAt_length hc hi) hk)
  · obtain ⟨m, rfl⟩ := Nat.exists_eq_add_of_le' hm
    exact cbcDecrypt_xorAt_iv x hiv hj (hC.dec_length _ k (by rw [List.length_take]; omega) hk)

end Sys2Proof.Machine
end

section
/-! PROOFS. CTR: the two commands, decrypting after an edit, and the cost of an edit (`41_modes.md` R140 to R146). -/

namespace Sys2Proof.Machine

open Sys2Proof.Claims

/-! ### The commands (`41_modes.md` R141, R143) -/

/-- Settles O18: byte `j` of the keystream is byte `j mod 16` of its block `j div 16`. -/
theorem ctrXorWritesDataXorKeystream : Obligations.CtrXorWritesDataXorKeystream := by
  refine ⟨sourcesChecked _, fun s d k n hd hk hn => ?_⟩
  have hspec (hk16 : k.length = 16) :=
    ctrXor_spec (cipherOf s.par) k n d fun b _ => cipherOf_enc_length s.par b k hk16
  rw [exec_ctrXor hd hk hn]
  refine ⟨fun hk16 hn8 hf => ?_, fun hbad => finishMode_invalid (by omega), fun hk16 hn8 => ?_⟩
  · obtain ⟨hlen, hbytes⟩ := hspec hk16 hn8
    exact ⟨_, hlen, hbytes, finishMode_fits ⟨hk16, hn8⟩ hlen hf⟩
  · exact finishMode_range ⟨hk16, hn8⟩ (hspec hk16 hn8).1

/-- Settles O19: the edited bytes are spliced into the ciphertext. -/
theorem ctrEditSplicesTheReplacement : Obligations.CtrEditSplicesTheReplacement := by
  refine ⟨sourcesChecked _, fun s c k n r off hc hk hn hr hoff => ?_⟩
  subst hoff
  have hspec (hk16 : k.length = 16) := ctrEdit_spec (cipherOf s.par) k n c r s.ops.arg0.toNat
    fun b _ => cipherOf_enc_length s.par b k hk16
  rw [exec_ctrEdit hc hk hn hr]
  refine ⟨fun hk16 hn8 hin hf => ?_, fun hbad => finishMode_invalid (by omega), fun hk16 hn8 hin => ?_⟩
  · obtain ⟨hlen, hbytes⟩ := hspec hk16 hn8 hin
    exact ⟨_, hlen, hbytes, finishMode_fits ⟨⟨hk16, hn8⟩, hin⟩ hlen hf⟩
  · exact finishMode_range ⟨⟨hk16, hn8⟩, hin⟩ (hspec hk16 hn8 hin).1

/-! ### Decrypting an edited ciphertext (`41_modes.md` R142, R144) -/

theorem eq_of_getD {s t : List Byte} (hl : s.length = t.length) (h : ∀ j < s.length, s.getD j 0 = t.getD j 0) : s = t :=
  List.ext_getElem hl fun j hs ht => by
    rw [← List.getD_eq_getElem _ 0 hs, h j hs, List.getD_eq_getElem _ 0 ht]

/-- Byte `j` of `p` with `r` in place of its bytes from `off` on. -/
theorem getD_splice (p r : List Byte) {off j : Nat} (hr : off + r.length ≤ p.length) :
    (p.take off ++ r ++ p.drop (off + r.length)).getD j 0 =
      if off ≤ j ∧ j < off + r.length then r.getD (j - off) 0 else p.getD j 0 := by
  have ht : (p.take off).length = off := by
    rw [List.length_take]
    omega
  rw [List.append_assoc]
  rcases Nat.lt_or_ge j off with hbefore | hfrom
  · rw [if_neg (by omega), List.getD_append _ _ _ _ (by omega), List.getD_eq_getElem?_getD,
      List.getElem?_take_of_lt hbefore, List.getD_eq_getElem?_getD]
  · rw [List.getD_append_right _ _ _ _ (by omega), ht]
    rcases Nat.lt_or_ge j (off + r.length) with hin | hafter
    · rw [if_pos ⟨hfrom, hin⟩, List.getD_append _ _ _ _ (by omega)]
    · rw [if_neg (by omega), List.getD_append_right _ _ _ _ (by omega), List.getD_eq_getElem?_getD, List.getElem?_drop,
        show off + r.length + (j - off - r.length) = j by omega, List.getD_eq_getElem?_getD]

/-- Settles O53: the keystream byte XORed twice cancels. -/
theorem ctrEditThenDecrypt : Obligations.CtrEditThenDecrypt := by
  intro C k n p r off hC hk hn hr
  have henc (b : List Byte) (hb : b.length = 16) := hC.enc_length b k hb hk
  obtain ⟨hclen, hc⟩ := ctrXor_spec C k n p henc hn
  obtain ⟨helen, he⟩ := ctrEdit_spec C k n (ctrXor C k n p) r off henc hn (by omega)
  obtain ⟨hdlen, hd⟩ := ctrXor_spec C k n (ctrEdit C k n (ctrXor C k n p) off r) henc hn
  refine eq_of_getD ?_ fun j hj => ?_
  · simp only [List.length_append, List.length_take, List.length_drop]
    omega
  · rw [hd j (by omega), he j (by omega), getD_splice p r hr]
    split
    · rw [BitVec.xor_assoc, BitVec.xor_self, BitVec.xor_zero]
    · rw [hc j (by omega), BitVec.xor_assoc, BitVec.xor_self, BitVec.xor_zero]

/-! ### The cost of an edit (`41_modes.md` R146) -/

/-- A command that completes with OK has committed what its pseudocode gathered. -/
theorem perform_next_ok {P : Effect → Prop} {s t : State} {body : Except Stop Effect} (h : perform s body = .next t)
    (hok : t.status.err = .ok) (hends : Ends P body) : ∃ e, P e ∧ t = (s.commit e).complete .ok := by
  obtain ⟨hgather, hraise⟩ := hends
  rcases (perform_next_iff s t body).mp h with ⟨e, he, rfl⟩ | ⟨e, he, -, rfl⟩ | ⟨e, -, -, rfl⟩
  · exact absurd hok (hraise e he)
  · exact ⟨e, hgather e he, rfl⟩
  · exact nomatch hok

theorem ends_source (s : State) (k : Src) : Ends (fun d => d.length = (s.ops.srcLen k).toNat) (source s k) := by
  refine ⟨fun d hd => ((source_ok_iff s k d).mp hd).2.1, fun e he => ?_⟩
  obtain ⟨rfl, -⟩ := (source_raise_iff s k e).mp he
  decide

/-- The count of an edit depends on `ARG0` and on the replacement's length alone. -/
theorem execCtrEdit_next_ok {s t : State} (h : execCtrEdit s = .next t) (hok : t.status.err = .ok) :
    t.ciphCnt = s.ciphCnt + BitVec.ofNat 32 (editBlocks s.ops.arg0.toNat s.ops.src3Len.toNat) := by
  obtain ⟨e, he, rfl⟩ := perform_next_ok (P := fun e => e.cc = editBlocks s.ops.arg0.toNat s.ops.src3Len.toNat) h hok <|
    .bind_source fun _ => .bind_source fun _ => .bind_source fun _ => .bind (ends_source s .s3) fun r hr =>
      .bind_need fun _ => .bind_need fun _ => .pure (by simp [hr, OperandRegs.srcLen])
  rw [State.complete_ciphCnt, State.commit_ciphCnt, he]

theorem editBlocks_of_pos {off len : Nat} (h : 0 < len) :
    editBlocks off len = (off + len - 1) / 16 - off / 16 + 1 := if_neg (by omega)

/-- Settles O54: what a successful edit counts is the number of blocks from its first byte's to its last byte's. -/
theorem editCostFollowsTheReplacement : Obligations.EditCostFollowsTheReplacement := by
  intro s t h hok hpos
  exact ⟨_, execCtrEdit_next_ok h hok, editBlocks_of_pos hpos, by rw [editBlocks_of_pos hpos]; omega⟩

end Sys2Proof.Machine
end

section
/-! PROOFS. PAD and UNPAD, unpadding a padded buffer, and exactly when unpadding succeeds (`42_padding.md` R160 to
R166). -/

namespace Sys2Proof.Machine

open Sys2Proof.Claims

/-! ### The commands (`42_padding.md` R163, R164) -/

/-- Past `need (ARG0 ≤ 255)` the block size is at most 255 as well. -/
theorem blockSize_le {o : OperandRegs} (h : o.arg0.toNat ≤ 255) : o.blockSize ≤ 255 := by
  rw [OperandRegs.blockSize]
  split
  · decide
  · exact h

theorem finishMode_raise {s : State} {ok : Prop} [Decidable ok] {e : Err} {c : Nat} (h : ok) (he : e ≠ .ok) :
    finishMode s ok (.error (.raise e)) c = .next (failed s e) := by
  rw [finishMode, decide_eq_true h, need_true, ok_bind, error_bind, perform_raise, complete_eq_failed s he]

section
variable {s : State} {d : List Byte}

theorem exec_pad (hd : Holds s .s0 d) :
    exec .pad s = finishMode s (s.ops.arg0.toNat ≤ 255) (.ok (padded d s.ops.blockSize)) 0 := by
  rw [exec, execPad, source_of_holds hd, ok_bind, finishMode]
  rfl

theorem exec_unpad (hd : Holds s .s0 d) :
    exec .unpad s = finishMode s (s.ops.arg0.toNat ≤ 255) (pkcs7Unpad d s.ops.blockSize) 0 := by
  rw [exec, execUnpad, source_of_holds hd, ok_bind, finishMode]
  rfl

end

/-- Settles O20: with the source fetched, PAD ends as a command whose one result is the padded buffer. -/
theorem padAppendsThePadding : Obligations.PadAppendsThePadding := by
  refine ⟨sourcesChecked _, fun s d B hd hB => ?_⟩
  obtain rfl : B = s.ops.blockSize := hB
  rw [exec_pad hd, ← padded_length]
  exact ⟨fun hle => finishMode_fits hle rfl, fun hgt => finishMode_invalid (by omega),
    fun hle => finishMode_range hle rfl⟩

/-- Settles O21: a bad padding raises PADDING, and a padding of `n` bytes leaves all bytes but the last `n`. -/
theorem unpadStripsThePadding : Obligations.UnpadStripsThePadding := by
  refine ⟨sourcesChecked _, fun s d B hd hB => ?_⟩
  obtain rfl : B = s.ops.blockSize := hB
  rw [exec_unpad hd]
  refine ⟨fun hgt => finishMode_invalid (by omega), fun hle hbad => ?_, fun n hle hpad => ?_⟩
  · rw [pkcs7Unpad_of_badPadding (blockSize_le hle) hbad]
    exact finishMode_raise hle (by decide)
  · have hlen : (d.take (d.length - n)).length = d.length - n := List.length_take_of_le (Nat.sub_le _ _)
    rw [pkcs7Unpad_of_padCount (blockSize_le hle) hpad]
    exact ⟨finishMode_fits hle hlen, finishMode_range hle hlen⟩

/-! ### Unpadding (`42_padding.md` R165, R166) -/

/-- Settles O49: the padding of a padded buffer is well formed, and what precedes it is the buffer. -/
theorem unpadInvertsPad : Obligations.UnpadInvertsPad := fun s _ hB hB' => pkcs7Unpad_padded s hB hB'

/-- The last byte of a well-formed padding is its length, so the length is unique. -/
theorem last_toNat_of_padCount {q : List Byte} {B n : Nat} (hB : B ≤ 255) (h : PadCount B q n) :
    (q.getD (q.length - 1) 0).toNat = n := by
  obtain ⟨-, hpos, hle, hlen, hdrop⟩ := h
  rw [last_of_drop_replicate q n _ hpos hlen hdrop, BitVec.toNat_ofNat]
  omega

theorem pkcs7Unpad_succeeds_iff {q : List Byte} {B : Nat} (hB : B ≤ 255) :
    (∃ p, pkcs7Unpad q B = .ok p) ↔ ∃ n, PadCount B q n := by
  constructor
  · rintro ⟨p, hp⟩
    obtain ⟨n, hblock, hpos, hle, hlen, hdrop, -⟩ := (pkcs7Unpad_ok_iff q p B hB).mp hp
    exact ⟨n, hblock, hpos, hle, hlen, hdrop⟩
  · rintro ⟨n, h⟩
    exact ⟨_, pkcs7Unpad_of_padCount hB h⟩

/-- The last `n` bytes of a sequence are all `b`, as one sequence and byte by byte. -/
theorem drop_eq_replicate_iff (q : List Byte) {n : Nat} (b : Byte) (hn : n ≤ q.length) :
    q.drop (q.length - n) = List.replicate n b ↔ ∀ j, q.length - n ≤ j → j < q.length → q.getD j 0 = b := by
  have hlen : (q.drop (q.length - n)).length = n := by
    rw [List.length_drop]
    omega
  rw [List.eq_replicate_iff, and_iff_right hlen]
  constructor
  · intro h j hj hj'
    rw [List.getD_eq_getElem _ _ hj']
    exact h _ (List.mem_drop_iff_getElem.mpr ⟨j - (q.length - n), by omega, by simp [hj]⟩)
  · intro h c hc
    obtain ⟨i, hi, rfl⟩ := List.mem_drop_iff_getElem.mp hc
    rw [← List.getD_eq_getElem _ 0]
    exact h _ (by omega) (by omega)

/-- Settles O50: a padding that makes unpadding succeed has the length the last byte says. -/
theorem unpadIsStrict : Obligations.UnpadIsStrict := by
  intro s B n _ hB hblock hlast hpos hle
  rw [pkcs7Unpad_succeeds_iff hB, ← drop_eq_replicate_iff s _ (by omega)]
  constructor
  · rintro ⟨m, hpad⟩
    obtain rfl : m = n := (last_toNat_of_padCount hB hpad).symm.trans hlast
    obtain ⟨-, -, -, -, hdrop⟩ := hpad
    exact hdrop
  · intro hdrop
    exact ⟨n, hblock, hpos, hle, hle.trans hblock, hdrop⟩

end Sys2Proof.Machine
end

section
/-! PROOFS. The bytes of the hash engine: the words of a chunk, the bytes of a serialisation and the words of a parse, and
the bytes of the MD padding (`43_hash.md` R182, R189 to R192). -/

namespace Sys2Proof.Machine

open Sys2Proof.Claims

/-! ### Words from bytes (`43_hash.md` R182) -/

theorem fromBE_word (a b c d : Byte) :
    fromBE [a, b, c, d] = a.toNat * 2 ^ 24 + b.toNat * 2 ^ 16 + c.toNat * 2 ^ 8 + d.toNat := by
  rw [fromBE, List.reverse_cons, List.reverse_cons, List.reverse_cons, List.reverse_singleton]
  simp only [List.cons_append, List.nil_append, fromLE]
  omega

theorem fromLE_word (a b c d : Byte) :
    fromLE [a, b, c, d] = a.toNat + b.toNat * 2 ^ 8 + c.toNat * 2 ^ 16 + d.toNat * 2 ^ 24 := by
  simp only [fromLE]
  omega

theorem chunkWords_getD_A {m : List Byte} {i : Nat} (h : 4 * i + 3 < m.length) :
    (chunkWords .A m).getD i 0 = BitVec.ofNat 32 (beWordAt m i) := by
  rw [chunkWords, wordsBy_getD _ _ _ h, fromBE_word, beWordAt]

theorem chunkWords_getD_B {m : List Byte} {i : Nat} (h : 4 * i + 3 < m.length) :
    (chunkWords .B m).getD i 0 = BitVec.ofNat 32 (leWordAt m i) := by
  rw [chunkWords, wordsBy_getD _ _ _ h, fromLE_word, leWordAt]

theorem chunkWords_toNat_A {m : List Byte} {i : Nat} (h : 4 * i + 3 < m.length) :
    ((chunkWords .A m).getD i 0).toNat = beWordAt m i := by
  rw [chunkWords_getD_A h, BitVec.toNat_ofNat, beWordAt]
  omega

theorem chunkWords_toNat_B {m : List Byte} {i : Nat} (h : 4 * i + 3 < m.length) :
    ((chunkWords .B m).getD i 0).toNat = leWordAt m i := by
  rw [chunkWords_getD_B h, BitVec.toNat_ofNat, leWordAt]
  omega

/-! ### Serialising and parsing chaining words (`43_hash.md` R192) -/

/-- The four bytes of one chaining word in a serialisation. -/
def wordBytes (f : Family) (w : Word) : List Byte :=
  match f with
  | .A => beBytes 4 w.toNat
  | .B => leBytes 4 w.toNat

theorem serialize_eq_flatMap (f : Family) (H : Chain) : serialize f H = (H.used f).flatMap (wordBytes f) := by
  cases f with
  | A => rfl
  | B => rfl

theorem wordBytes_length (f : Family) (w : Word) : (wordBytes f w).length = 4 := by
  cases f with
  | A => exact beBytes_length 4 _
  | B => exact leBytes_length 4 _

theorem wordBytes_getD (f : Family) (w : Word) {j : Nat} (h : j < 4) :
    ((wordBytes f w).getD j 0).toNat = w.toNat / 2 ^ (8 * if f = .A then 3 - j else j) % 256 := by
  cases f with
  | A => exact beBytes_getD 4 _ j h
  | B => exact leBytes_getD 4 _ j h

/-- Byte `j` of piece `i`, in a concatenation of pieces of four bytes. -/
theorem flatMap_getD_of_length_four {g : Word → List Byte} (hg : ∀ w, (g w).length = 4) {j : Nat} (hj : j < 4) :
    ∀ {ws : List Word} {i : Nat}, i < ws.length → (ws.flatMap g).getD (4 * i + j) 0 = (g (ws.getD i 0)).getD j 0
  | w :: ws, 0, _ => by
    rw [List.flatMap_cons, Nat.mul_zero, Nat.zero_add, List.getD_append _ _ _ _ (by rw [hg]; exact hj),
      List.getD_cons_zero]
  | w :: ws, i + 1, h => by
    rw [List.flatMap_cons, List.getD_append_right _ _ _ _ (by rw [hg]; omega), hg,
      show 4 * (i + 1) + j - 4 = 4 * i + j by omega,
      flatMap_getD_of_length_four hg hj (Nat.lt_of_succ_lt_succ h), List.getD_cons_succ]

theorem used_length (f : Family) (H : Chain) : (H.used f).length = f.words := by
  cases f with
  | A => rfl
  | B => rfl

theorem used_getD (f : Family) (H : Chain) {i : Nat} (h : i < f.words) : (H.used f).getD i 0 = chainWord H i := by
  cases f with
  | A => rfl
  | B =>
    match i, h with
    | 0, _ | 1, _ | 2, _ | 3, _ => rfl

theorem chainWord_parse (f : Family) (d : List Byte) {i : Nat} (h : i < f.words) :
    chainWord (parse f d) i = (chunkWords f d).getD i 0 := by
  cases f with
  | A =>
    match i, h with
    | 0, _ | 1, _ | 2, _ | 3, _ | 4, _ => rfl
  | B =>
    match i, h with
    | 0, _ | 1, _ | 2, _ | 3, _ => rfl

theorem serialize_getD (f : Family) (H : Chain) {i j : Nat} (hi : i < f.words) (hj : j < 4) :
    ((serialize f H).getD (4 * i + j) 0).toNat =
      (chainWord H i).toNat / 2 ^ (8 * if f = .A then 3 - j else j) % 256 := by
  rw [serialize_eq_flatMap, flatMap_getD_of_length_four (wordBytes_length f) hj (by rwa [used_length]), used_getD f H hi,
    wordBytes_getD f _ hj]

theorem parse_toNat (f : Family) {d : List Byte} (hd : d.length = 4 * f.words) {i : Nat} (h : i < f.words) :
    (chainWord (parse f d) i).toNat = if f = .A then beWordAt d i else leWordAt d i := by
  rw [chainWord_parse f d h]
  cases f with
  | A => exact chunkWords_toNat_A (by omega)
  | B => exact chunkWords_toNat_B (by omega)

theorem parse_B_h4 (d : List Byte) : (parse .B d).h4 = 0 := rfl

/-! ### The MD padding (`43_hash.md` R189 to R191) -/

theorem mul_eight_toNat (Lt : Dword) : (8 * Lt).toNat = 8 * Lt.toNat % 2 ^ 64 := by
  rw [BitVec.toNat_mul]
  rfl

theorem lenField_getD (f : Family) (bits : Bool) (Lt : Dword) {i : Nat} (h : i < 8) :
    ((lenField f bits Lt).getD i 0).toNat =
      if f = .A then 8 * Lt.toNat % 2 ^ 64 / 2 ^ (8 * (7 - i)) % 256
      else if bits = true then 8 * Lt.toNat % 2 ^ 64 / 2 ^ (8 * i) % 256
      else Lt.toNat / 2 ^ (8 * i) % 256 := by
  rw [← mul_eight_toNat]
  cases f with
  | A => exact beBytes_getD 8 _ i h
  | B =>
    cases bits with
    | true => exact leBytes_getD 8 _ i h
    | false => exact leBytes_getD 8 _ i h

theorem mdpad_length_eq_padZeros (f : Family) (bits : Bool) (Lt : Dword) :
    (mdpad f bits Lt).length = 9 + padZeros Lt := mdpad_length f bits Lt

theorem mdpad_zeros (f : Family) (bits : Bool) (Lt : Dword) {i : Nat} (hi : 1 ≤ i)
    (h : i + 8 < (mdpad f bits Lt).length) : (mdpad f bits Lt)[i]? = some 0 := by
  rw [mdpad_length_eq_padZeros] at h
  obtain ⟨k, rfl⟩ := Nat.exists_eq_add_of_le' hi
  have hk : k < padZeros Lt := by omega
  rw [mdpad, List.getElem?_cons_succ, List.getElem?_append_left (by rwa [rep_length]), rep,
    List.getElem?_replicate_of_lt hk]

/-- The last eight bytes are the length field. -/
theorem mdpad_getD_lenField (f : Family) (bits : Bool) (Lt : Dword) (i : Nat) :
    (mdpad f bits Lt).getD ((mdpad f bits Lt).length - 8 + i) 0 = (lenField f bits Lt).getD i 0 := by
  rw [mdpad_length_eq_padZeros, show 9 + padZeros Lt - 8 + i = padZeros Lt + i + 1 by omega, mdpad, List.getD_cons_succ,
    List.getD_append_right _ _ _ _ (by rw [rep_length]; omega), rep_length, Nat.add_sub_cancel_left]

theorem mdpad_ends_chunk (f : Family) (bits : Bool) (Lt : Dword) : (Lt.toNat + (mdpad f bits Lt).length) % 64 = 0 := by
  rw [mdpad_length]
  omega

/-- The padded length is a multiple of 64 as a 64-bit word, too. -/
theorem add_mdpad_length_aligned (f : Family) (bits : Bool) (Lt : Dword) :
    (Lt + BitVec.ofNat 64 (mdpad f bits Lt).length).toNat % 64 = 0 := by
  have h := mdpad_ends_chunk f bits Lt
  rw [BitVec.toNat_add, BitVec.toNat_ofNat]
  omega

/-- Settles O55: the bytes of the three pieces of the padding, and arithmetic on its length. -/
theorem mdPaddingFacts : Obligations.MdPaddingFacts := by
  intro f bits Lt
  have hlen := mdpad_length f bits Lt
  refine ⟨hlen, rfl, fun i => mdpad_zeros f bits Lt, fun i hi => ?_, by omega, by omega, by omega, by omega,
    mdpad_ends_chunk f bits Lt, add_mdpad_length_aligned f bits Lt, rfl⟩
  rw [mdpad_getD_lenField, lenField_getD f bits Lt hi]

end Sys2Proof.Machine
end

section
/-! PROOFS. The two compression functions step by step, as `43_hash.md` R183 to R187 write them. -/

namespace Sys2Proof.Machine

open Sys2Proof.Claims

/-! ### The message schedule of SHA-1 (`43_hash.md` R184) -/

/-- `W[t]`: the schedule holds its words with the latest first. -/
def sha1W (M : List Word) (t : Nat) : Word := (sha1Schedule M 64).reverse.getD t 0

section
variable {M : List Word} (hM : M.length = 16)
include hM

/-- `W[t]` stands at place `i` of every schedule that has `i` words after it. -/
theorem sha1W_eq_getD {k i t : Nat} (hk : k ≤ 64) (ht : t + i + 1 = 16 + k) :
    sha1W M t = (sha1Schedule M k).getD i 0 := by
  have hlen : (sha1Schedule M 64).length = 80 := by rw [sha1Schedule_length, hM]
  have hadd := sha1Schedule_getD_add M k (64 - k) i
  rw [Nat.add_sub_cancel' hk] at hadd
  rw [← hadd, sha1W, List.getD_reverse _ (by omega), hlen, show 80 - 1 - t = 64 - k + i by omega]

theorem sha1W_of_lt {t : Nat} (ht : t < 16) : sha1W M t = M.getD t 0 := by
  rw [sha1W_eq_getD hM (k := 0) (i := 15 - t) (by omega) (by omega), sha1Schedule, List.getD_reverse _ (by omega), hM,
    show 16 - 1 - (15 - t) = t by omega]

theorem sha1W_of_ge {t : Nat} (ht : 16 ≤ t) (ht' : t < 80) :
    sha1W M t = (sha1W M (t - 3) ^^^ sha1W M (t - 8) ^^^ sha1W M (t - 14) ^^^ sha1W M (t - 16)).rotateLeft 1 := by
  have hword {i : Nat} (hi : i < 16) : sha1W M (t - (i + 1)) = (sha1Schedule M (t - 16)).getD i 0 :=
    sha1W_eq_getD hM (by omega) (by omega)
  rw [sha1W_eq_getD hM (k := t - 16 + 1) (i := 0) (by omega) (by omega), sha1Schedule, List.getD_cons_zero, sha1NextW,
    rotl32_eq _ _ (by decide), hword (i := 2) (by decide), hword (i := 7) (by decide), hword (i := 13) (by decide),
    hword (i := 15) (by decide)]

end

/-! ### The steps of SHA-1 (`43_hash.md` R183, R186) -/

/-- The round function and constant by the range of `t`. -/
theorem sha1_round_eq {t : Nat} {b c d f K : Word}
    (h0 : t < 20 → f = (b &&& c) ^^^ (~~~b &&& d) ∧ K = 0x5A827999)
    (h20 : 20 ≤ t ∧ t < 40 → f = b ^^^ c ^^^ d ∧ K = 0x6ED9EBA1)
    (h40 : 40 ≤ t ∧ t < 60 → f = (b &&& c) ^^^ (b &&& d) ^^^ (c &&& d) ∧ K = 0x8F1BBCDC)
    (h60 : 60 ≤ t → f = b ^^^ c ^^^ d ∧ K = 0xCA62C1D6) : f = sha1F t b c d ∧ K = sha1K t := by
  rw [sha1F, sha1K]
  rcases Nat.lt_or_ge t 20 with hlt | hge
  · rw [if_pos hlt, if_pos hlt]
    exact h0 hlt
  rw [if_neg hge.not_gt, if_neg hge.not_gt]
  rcases Nat.lt_or_ge t 40 with hlt | hge'
  · rw [if_pos hlt, if_pos hlt]
    exact h20 ⟨hge, hlt⟩
  rw [if_neg hge'.not_gt, if_neg hge'.not_gt]
  rcases Nat.lt_or_ge t 60 with hlt | hge''
  · rw [if_pos hlt, if_pos hlt]
    exact h40 ⟨hge', hlt⟩
  rw [if_neg hge''.not_gt, if_neg hge''.not_gt]
  exact h60 hge''

/-- The working registers after the first `t` steps. -/
def sha1Regs (M : List Word) (H : Chain) (t : Nat) : Chain := sha1Steps 0 ((sha1Schedule M 64).reverse.take t) H

theorem sha1Regs_succ {M : List Word} (hM : M.length = 16) (H : Chain) {t : Nat} (ht : t < 80) :
    sha1Regs M H (t + 1) = sha1Step (sha1Regs M H t) t (sha1W M t) :=
  sha1Steps_take_succ _ t H (by rw [List.length_reverse, sha1Schedule_length, hM]; exact ht)

theorem sha1Regs_eighty {M : List Word} (hM : M.length = 16) (H : Chain) :
    sha1Regs M H 80 = sha1Steps 0 (sha1Schedule M 64).reverse H := by
  rw [sha1Regs, List.take_of_length_le (by rw [List.length_reverse, sha1Schedule_length, hM])]

theorem sha1Compression : Sha1Compression := by
  intro H m hm
  have hM : (chunkWords .A m).length = 16 := wordsBy_length _ 16 m hm
  refine ⟨sha1W (chunkWords .A m), sha1Regs (chunkWords .A m) H, fun t ht => ?_, fun t => sha1W_of_ge hM, rfl,
    fun t f K ht h0 h20 h40 h60 => ?_, ?_⟩
  · rw [sha1W_of_lt hM ht, chunkWords_toNat_A (by omega)]
  · obtain ⟨rfl, rfl⟩ := sha1_round_eq h0 h20 h40 h60
    rw [sha1Regs_succ hM H ht, sha1Step, rotl32_eq _ _ (by decide), rotl32_eq _ _ (by decide)]
  · rw [sha1Regs_eighty hM]
    rfl

/-! ### The steps of MD4 (`43_hash.md` R185, R187) -/

/-- The four turning registers after the first `n` steps. -/
def md4Turning (X : List Word) (H : Chain) (n : Nat) : Chain :=
  (md4All.take n).foldl (fun v s => md4Step s.1 X v s.2) H

/-- Register `i` after `n` steps: the registers have been turned by `n` places. -/
def md4Reg (X : List Word) (H : Chain) (n i : Nat) : Word := chainWord (md4Turning X H n) ((i + n) % 4)

theorem md4All_getElem? {n : Nat} {js : Nat × Nat} (hn : n < 48) (h : md4Steps[n]? = some js) :
    md4All[n]? = some (n / 16 + 1, js) := by
  have hall : ∀ n < 48, md4All[n]? = md4Steps[n]?.map (Prod.mk (n / 16 + 1)) := by decide
  rw [hall n hn, h, Option.map_some]

theorem md4Steps_bounds {n : Nat} {js : Nat × Nat} (h : md4Steps[n]? = some js) : js.1 < 16 ∧ js.2 < 32 := by
  have hall : ∀ js ∈ md4Steps, js.1 < 16 ∧ js.2 < 32 := by decide
  exact hall js (List.mem_of_getElem? h)

theorem md4Turning_succ (X : List Word) (H : Chain) {n : Nat} {js : Nat × Nat} (hn : n < 48)
    (h : md4Steps[n]? = some js) :
    md4Turning X H (n + 1) = md4Step (n / 16 + 1) X (md4Turning X H n) js := by
  rw [md4Turning, List.take_add_one, md4All_getElem? hn h, Option.toList_some, List.foldl_append, List.foldl_cons,
    List.foldl_nil, md4Turning]

/-- The auxiliary function and constant by the range of the step number. -/
theorem md4_round_eq {n : Nat} {x y z f k : Word}
    (h1 : n < 16 → f = (x &&& y) ||| (~~~x &&& z) ∧ k = 0)
    (h2 : 16 ≤ n ∧ n < 32 → f = (x &&& y) ||| (x &&& z) ||| (y &&& z) ∧ k = 0x5A827999)
    (h3 : 32 ≤ n → f = x ^^^ y ^^^ z ∧ k = 0x6ED9EBA1) : f = md4F (n / 16 + 1) x y z ∧ k = md4K (n / 16 + 1) := by
  rcases Nat.lt_or_ge n 16 with hlt | hge
  · rw [show n / 16 + 1 = 1 by omega]
    exact h1 hlt
  rcases Nat.lt_or_ge n 32 with hlt | hge'
  · rw [show n / 16 + 1 = 2 by omega]
    exact h2 ⟨hge, hlt⟩
  · have hne1 : n / 16 + 1 ≠ 1 := by omega
    have hne2 : n / 16 + 1 ≠ 2 := by omega
    rw [md4F, md4K, if_neg hne1, if_neg hne2, if_neg hne1, if_neg hne2]
    exact h3 hge'

section
variable (X : List Word) (H : Chain) {n : Nat} {js : Nat × Nat} (hn : n < 48) (hjs : md4Steps[n]? = some js)
include hn hjs

/-- The register a step updates is the one that stands first. -/
theorem md4Reg_succ_same {t : Nat} (ht : t = (48 - n) % 4) :
    md4Reg X H (n + 1) t =
      rotl32 (md4Reg X H n t + md4F (n / 16 + 1) (md4Reg X H n ((t + 1) % 4)) (md4Reg X H n ((t + 2) % 4))
        (md4Reg X H n ((t + 3) % 4)) + X.getD js.1 0 + md4K (n / 16 + 1)) js.2 := by
  rw [md4Reg, md4Reg, md4Reg, md4Reg, md4Reg, show (t + (n + 1)) % 4 = 1 by omega, show (t + n) % 4 = 0 by omega,
    show ((t + 1) % 4 + n) % 4 = 1 by omega, show ((t + 2) % 4 + n) % 4 = 2 by omega,
    show ((t + 3) % 4 + n) % 4 = 3 by omega, md4Turning_succ X H hn hjs]
  rfl

/-- The other three registers turn by one place. -/
theorem md4Reg_succ_other {i : Nat} (hi : i < 4) (hne : i ≠ (48 - n) % 4) :
    md4Reg X H (n + 1) i = md4Reg X H n i := by
  have hplace : (i + n) % 4 = 1 ∨ (i + n) % 4 = 2 ∨ (i + n) % 4 = 3 := by omega
  rw [md4Reg, md4Reg, md4Turning_succ X H hn hjs, ← Nat.add_assoc]
  rcases hplace with h | h | h
  · rw [h, show (i + n + 1) % 4 = 2 by omega]
    rfl
  · rw [h, show (i + n + 1) % 4 = 3 by omega]
    rfl
  · rw [h, show (i + n + 1) % 4 = 0 by omega]
    rfl

end

theorem md4Compression : Md4Compression := by
  intro H m hm
  refine ⟨md4Reg (chunkWords .B m) H, ⟨rfl, rfl, rfl, rfl⟩, fun n js t x y z f k hn hjs ht hx hy hz h1 h2 h3 => ?_,
    md4Compress_steps H m⟩
  obtain ⟨hword, hshift⟩ := md4Steps_bounds hjs
  obtain ⟨rfl, rfl⟩ := md4_round_eq h1 h2 h3
  subst hx hy hz
  refine ⟨?_, fun i hi hne => md4Reg_succ_other _ H hn hjs hi (ht ▸ hne)⟩
  rw [md4Reg_succ_same _ H hn hjs ht, chunkWords_getD_B (by omega), rotl32_eq _ _ hshift]

end Sys2Proof.Machine
end

section
/-! PROOFS. The commands of the hash engine, and the identities of importing a digest (`43_hash.md` R194 to R202). -/

namespace Sys2Proof.Machine

open Sys2Proof.Claims Sys2Proof.Safety

/-! ### Checks and ends of the hash commands -/

theorem need_eq_check (c : Bool) : need c = check c .validation := rfl

section
variable {s : State}

/-- A failed check ends the command with its code. -/
theorem perform_check_false {c : Bool} {e : Err} {f : Unit → Except Stop Effect} (hc : c = false) (he : e ≠ .ok) :
    perform s (check c e >>= f) = .next (failed s e) := by
  rw [hc, check_false, error_bind, perform_raise, complete_eq_failed s he]

/-- What is gathered has no write: the command succeeds. -/
theorem perform_no_write {e : Effect} (hp : e.pending = []) (h0 : e.res0 = 0) (h1 : e.res1 = 0) :
    perform s (.ok e) = .next (succeeded s s.buf 0 0 e.cc e.hc e.newL) := by
  rw [perform_ok, Effect.fits, hp, List.all_nil, if_pos rfl, State.complete, State.commit, hp, h0, h1]
  simp [succeeded, Status.completed, Memory.writeAll]

/-- What is gathered is one write to `DST0` of chaining words. -/
theorem perform_digest {e : Effect} {f : Family} {H : Chain}
    (hp : e.pending = [((s.ops.dstAddr .d0).toNat, serialize f H)]) (h0 : e.res0 = (serialize f H).length)
    (h1 : e.res1 = 0) :
    perform s (.ok e) = .next (if Fits s .d0 (4 * f.words)
      then succeeded s (stored s .d0 (serialize f H)) (4 * f.words) 0 e.cc e.hc e.newL else failed s .range) := by
  rw [perform_d0 hp h0 h1, serialize_length]

end

/-! ### H_INIT and H_MDPAD (`43_hash.md` R194, R197) -/

theorem exec_hInit (s : State) (f : Family) :
    exec (.hInit f) s = .next (succeeded s s.buf 0 0 0 0 (initLatch f)) := by
  rw [exec, execHInit]
  exact perform_no_write rfl rfl rfl

/-- Settles O22: the initial words of both families, with `H[4]` = 0 for family B. -/
theorem hInitLoadsTheInitialWords : Obligations.HInitLoadsTheInitialWords := by
  intro s f
  rw [exec_hInit]
  cases f with
  | A => rfl
  | B => rfl

/-- `ARG64` as the 64-bit word of its number (`30_encoding.md` R85). -/
theorem OperandRegs.ofNat_arg64 (o : OperandRegs) : BitVec.ofNat 64 (o.arg1.toNat * 2 ^ 32 + o.arg0.toNat) = o.arg64 := by
  rw [← o.arg64_toNat, BitVec.ofNat_toNat, BitVec.setWidth_eq]

/-- Settles O25: the one result is the padding of `ARG64`, and the latch is not touched. -/
theorem hMdpadWritesTheDeclaredPadding : Obligations.HMdpadWritesTheDeclaredPadding := by
  intro s f p hp
  rw [s.ops.ofNat_arg64] at hp
  have hexec : exec (.hMdpad f) s =
      .next (if Fits s .d0 p.length then succeeded s (stored s .d0 p) p.length 0 0 0 s.latch else failed s .range) := by
    rw [exec, execHMdpad, ← hp]
    exact perform_d0 rfl rfl rfl
  exact ⟨fun hf => by rw [hexec, if_pos hf], fun hf => by rw [hexec, if_neg hf]⟩

/-! ### H_ABSORB, H_FINAL and H_EXPORT (`43_hash.md` R195, R196, R199, R200) -/

/-- A command that needs a valid latch checks it first (`10_state.md` R44). -/
theorem exec_invalid_latch {i : Instr} {s : State} (hi : needsLatch i = true) (hv : s.latch.valid = false) :
    exec i s = .next (failed s .state) := by
  cases i with
  | hAbsorb f => rw [exec, execHAbsorb, perform_check_false hv (by decide)]
  | hFinal f => rw [exec, execHFinal, perform_check_false hv (by decide)]
  | hExport f => rw [exec, execHExport, perform_check_false hv (by decide)]
  | _ => cases hi

section
variable {s : State} {f : Family}

theorem exec_hAbsorb_family {d : List Byte} (hv : s.latch.valid = true) (hd : Holds s .s0 d) (hf : f ≠ s.latch.fam) :
    exec (.hAbsorb f) s = .next (failed s .validation) := by
  rw [exec, execHAbsorb, hv, check_true, ok_bind, source_of_holds hd, ok_bind, need_eq_check,
    perform_check_false (beq_false_of_ne hf) (by decide)]

theorem exec_hAbsorb {d : List Byte} (hv : s.latch.valid = true) (hd : Holds s .s0 d) (hf : f = s.latch.fam) :
    exec (.hAbsorb f) s =
      .next (succeeded s s.buf 0 0 0 (absorbCount s.latch d) (absorb s.latch d)) := by
  have hend := perform_no_write (s := s)
    (e := ((Effect.start s).latch (absorb s.latch d)).count 0 (absorbCount s.latch d)) rfl rfl rfl
  rw [Effect.count_hc, Effect.latch_hc, Effect.start_hc, Nat.zero_add] at hend
  rw [exec, execHAbsorb, hv, check_true, ok_bind, source_of_holds hd, ok_bind, hf, beq_self_eq_true, need_true, ok_bind]
  exact hend

theorem exec_hFinal_family (hv : s.latch.valid = true) (hf : f ≠ s.latch.fam) :
    exec (.hFinal f) s = .next (failed s .validation) := by
  rw [exec, execHFinal, hv, check_true, ok_bind, need_eq_check, perform_check_false (beq_false_of_ne hf) (by decide)]

theorem exec_hFinal {p : List Byte} (hv : s.latch.valid = true) (hf : f = s.latch.fam)
    (hp : p = mdpad f s.blenBits s.latch.len) :
    exec (.hFinal f) s = .next (if Fits s .d0 (4 * f.words)
      then succeeded s (stored s .d0 (serialize f (absorb s.latch p).h)) (4 * f.words) 0 0 (absorbCount s.latch p)
        (absorb s.latch p)
      else failed s .range) := by
  subst hf hp
  have hend := perform_digest (s := s) (f := s.latch.fam) (H := (absorb s.latch (finalPad s.latch s.blenBits)).h)
    (e := (((Effect.start s).emit s .d0 _).latch (absorb s.latch (finalPad s.latch s.blenBits))).count 0
      (absorbCount s.latch (finalPad s.latch s.blenBits))) rfl rfl rfl
  rw [Effect.count_hc, Effect.latch_hc, Effect.emit_hc, Effect.start_hc, Nat.zero_add] at hend
  rw [exec, execHFinal, hv, check_true, ok_bind, beq_self_eq_true, need_true, ok_bind]
  exact hend

theorem exec_hExport_family (hv : s.latch.valid = true) (hf : f ≠ s.latch.fam) :
    exec (.hExport f) s = .next (failed s .validation) := by
  rw [exec, execHExport, hv, check_true, ok_bind, need_eq_check, perform_check_false (beq_false_of_ne hf) (by decide)]

theorem exec_hExport (hv : s.latch.valid = true) (hf : f = s.latch.fam) :
    exec (.hExport f) s = .next (if Fits s .d0 (4 * f.words)
      then succeeded s (stored s .d0 (serialize f s.latch.h)) (4 * f.words) 0 0 0 s.latch else failed s .range) := by
  subst hf
  rw [exec, execHExport, hv, check_true, ok_bind, beq_self_eq_true, need_true, ok_bind]
  exact perform_digest rfl rfl rfl

end

/-- The new latch of an absorption, its chunks written out (`43_hash.md` R193). -/
theorem absorb_eq (L : Latch) (d : List Byte) (hv : L.valid = true) : absorb L d =
    { valid := true, fam := L.fam, len := L.len + BitVec.ofNat 64 d.length,
      part := (L.part ++ d).drop (64 * absorbCount L d),
      h := ((List.range (absorbCount L d)).map fun i => slice (L.part ++ d) (64 * i) (64 * i + 64)).foldl
        (compress L.fam) L.h } := by
  rw [absorb, hv, compressChunks_eq_foldl]

/-- Settles O23: the compressed chunks are the runs of 64 bytes of PART ∥ data. -/
theorem hAbsorbCompressesTheCompleteChunks : Obligations.HAbsorbCompressesTheCompleteChunks := by
  refine ⟨sourcesChecked _, sourcesChecked _, fun s f => ⟨exec_invalid_latch rfl, fun d buf c hv hd hbuf hc => ?_⟩⟩
  obtain rfl : c = absorbCount s.latch d := hc
  subst hbuf
  refine ⟨fun hf => ?_, exec_hAbsorb_family hv hd⟩
  rw [exec_hAbsorb hv hd hf, absorb_eq s.latch d hv, hf]

/-- From a latch that meets the invariant, absorbing the padding takes one compression, or two when the length field does
not fit in the first chunk. -/
theorem absorbCount_mdpad {L : Latch} (bits : Bool) (hL : LatchInv L) (hv : L.valid = true) :
    absorbCount L (mdpad L.fam bits L.len) = if 56 ≤ L.len.toNat % 64 then 2 else 1 := by
  obtain ⟨-, hpart, -, -⟩ := hL
  rw [absorbCount, hpart hv, mdpad_length]
  split
  · omega
  · omega

/-- Settles O24: both compressions follow their rules, the digests of "abc" are evaluated, and the command's latch is the
latch with its own padding absorbed. -/
theorem hFinalWritesTheDigest : Obligations.HFinalWritesTheDigest := by
  refine ⟨sha1Compression, md4Compression, ?_, ?_, ?_, fun s f => ⟨exec_invalid_latch rfl, exec_hFinal_family, ?_⟩⟩
  · decide +kernel
  · decide +kernel
  · decide +kernel
  · intro p L hv hf hp hL
    subst hL
    refine ⟨fun hfit => ?_, fun hfit => ?_, fun hinv => ?_⟩
    · rw [exec_hFinal hv hf hp, if_pos hfit, absorbCount]
    · rw [exec_hFinal hv hf hp, if_neg hfit]
    · subst hf hp
      exact ⟨part_absorb_mdpad s.latch s.blenBits hinv hv, absorbCount_mdpad s.blenBits hinv hv⟩

/-- Settles O27: the bytes of serialisation and parsing, and the command's one result. -/
theorem hExportWritesTheChainingWords : Obligations.HExportWritesTheChainingWords := by
  refine ⟨fun f H => ⟨serialize_length f H, fun i j => serialize_getD f H⟩,
    fun f d hd => ⟨fun hB => hB ▸ parse_B_h4 d, fun i => parse_toNat f hd⟩,
    fun s f => ⟨exec_invalid_latch rfl, exec_hExport_family, fun hv hf hfit => ?_, fun hv hf hfit => ?_⟩⟩
  · rw [exec_hExport hv hf, if_pos hfit]
  · rw [exec_hExport hv hf, if_neg hfit]

/-! ### H_IMPORT (`43_hash.md` R198) -/

section
variable {s : State} {f : Family} {dg : List Byte} (hdg : Holds s .s0 dg)
include hdg

theorem exec_hImport_length (hlen : dg.length ≠ 4 * f.words) :
    exec (.hImport f) s = .next (failed s .validation) := by
  rw [exec, execHImport, source_of_holds hdg, ok_bind, need_eq_check,
    perform_check_false (beq_false_of_ne hlen) (by decide)]

theorem exec_hImport_unaligned (hlen : dg.length = 4 * f.words) (hmod : s.ops.arg64.toNat % 64 ≠ 0) :
    exec (.hImport f) s = .next (failed s .alignment) := by
  rw [exec, execHImport, source_of_holds hdg, ok_bind, beq_iff_eq.mpr hlen, need_true, ok_bind,
    perform_check_false (beq_false_of_ne hmod) (by decide)]

theorem exec_hImport (hlen : dg.length = 4 * f.words) (hmod : s.ops.arg64.toNat % 64 = 0) :
    exec (.hImport f) s = .next (succeeded s s.buf 0 0 0 0 (importLatch f dg s.ops.arg64)) := by
  rw [exec, execHImport, source_of_holds hdg, ok_bind, beq_iff_eq.mpr hlen, need_true, ok_bind, beq_iff_eq.mpr hmod,
    check_true, ok_bind]
  exact perform_no_write rfl rfl rfl

end

/-- Settles O26: the length of the digest, then the alignment of `ARG64`, then the import. -/
theorem hImportLoadsTheDigest : Obligations.HImportLoadsTheDigest := by
  refine ⟨sourcesChecked _, sourcesChecked _, fun s f dg Ld hdg hLd => ?_⟩
  have hmod : Ld % 64 = s.ops.arg64.toNat % 64 := by rw [hLd, OperandRegs.arg64_toNat]
  refine ⟨exec_hImport_length hdg, fun hlen hne => exec_hImport_unaligned hdg hlen (hmod ▸ hne), fun hlen heq => ?_⟩
  rw [exec_hImport hdg hlen (hmod ▸ heq), hLd, OperandRegs.ofNat_arg64]
  rfl

/-! ### Importing what was written (`43_hash.md` R201, R202) -/

/-- The bytes read back where a sequence of the same length was stored are that sequence. -/
theorem eq_of_bytesAt_stored {s : State} {k : Dst} {d d' : List Byte}
    (hb : BytesAt (stored s k d') (s.ops.dstAddr k).toNat d) (hl : d.length = d'.length) : d = d' :=
  List.ext_getElem? fun i => by
    rcases Nat.lt_or_ge i d.length with hi | hi
    · rw [← hb i hi, stored, Memory.read_writeBytes_inside _ _ _ _ (hl ▸ hi)]
    · rw [List.getElem?_eq_none hi, List.getElem?_eq_none (hl ▸ hi)]

theorem len_aligned_iff {L : Latch} (hL : LatchInv L) (hv : L.valid = true) : L.len.toNat % 64 = 0 ↔ L.part = [] := by
  obtain ⟨-, hpart, -, -⟩ := hL
  rw [← hpart hv, List.length_eq_zero_iff]

/-- Importing the chaining words of a chunk-aligned latch at its length restores it in every field. -/
theorem exec_hImport_serialize {s : State} {L : Latch} (hL : LatchInv L) (hv : L.valid = true) (hpart : L.part = [])
    (hd : Holds s .s0 (serialize L.fam L.h)) (hlen : s.ops.arg64 = L.len) :
    exec (.hImport L.fam) s = .next (succeeded s s.buf 0 0 0 0 L) := by
  have hmod : s.ops.arg64.toNat % 64 = 0 := by rwa [hlen, len_aligned_iff hL hv]
  obtain ⟨-, -, -, hB⟩ := hL
  rw [exec_hImport hd (serialize_length _ _) hmod, hlen, importLatch_serialize L hv hpart hB]

/-- Settles O56: the latch H_FINAL leaves is chunk-aligned, and absorbing in two pieces is absorbing the concatenation. -/
theorem continuationIdentity : Obligations.ContinuationIdentity := by
  intro s f p hL hv hf hfit hp
  have hexec := exec_hFinal hv hf hp
  rw [if_pos hfit] at hexec
  refine ⟨_, hexec, rfl, fun u d hd hb hu hlen => ?_, fun x => ?_⟩
  · have hpart : (absorb s.latch p).part = [] := by
      rw [hp, hf]
      exact part_absorb_mdpad s.latch s.blenBits hL hv
    obtain rfl := eq_of_bytesAt_stored hb (hd.trans (serialize_length _ _).symm)
    subst hf
    have hinv : LatchInv (absorb s.latch p) := latchInv_absorb s.latch p hL hv
    have himport := exec_hImport_serialize hinv hv hpart hu hlen
    exact ⟨_, himport, rfl, rfl⟩
  · exact congrArg (digestOf · s.blenBits) (absorb_absorb s.latch p x)

/-- Settles O57: a latch is chunk-aligned iff its length is a multiple of 64. -/
theorem exportImportIdentity : Obligations.ExportImportIdentity := by
  intro s f hL hv hf hfit
  have hexec := exec_hExport hv hf
  rw [if_pos hfit] at hexec
  refine ⟨_, hexec, rfl, rfl, fun u d hd hb hu hlen => ?_⟩
  obtain rfl := eq_of_bytesAt_stored hb (hd.trans (serialize_length _ _).symm)
  subst hf
  refine ⟨fun hpart => ⟨_, exec_hImport_serialize hL hv hpart hu hlen, rfl, rfl⟩, fun hpart => ?_⟩
  refine exec_hImport_unaligned hu hd ?_
  rwa [hlen, Ne, len_aligned_iff hL hv]

end Sys2Proof.Machine
end

section
/-! PROOFS. The MAC of key ∥ message and the length-extension forgery: the two commands, a forgery against the MAC of the forged
message, and FORGE against the four hash commands (`44_mac_forge.md` R221 to R226). -/

namespace Sys2Proof.Machine

open Sys2Proof.Claims Sys2Proof.Safety

/-! ### MAC (`44_mac_forge.md` R221) -/

/-- From a latch between chunks, the compressions are the complete chunks of the data. -/
theorem absorbCount_of_part_nil {L : Latch} (h : L.part = []) (d : List Byte) : absorbCount L d = d.length / 64 := by
  rw [absorbCount, h, List.length_nil, Nat.zero_add]

theorem exec_mac {s : State} {f : Family} {m k p : List Byte} {S1 : Latch} (hm : Holds s .s0 m) (hk : Holds s .s1 k)
    (hS1 : S1 = absorb (initLatch f) (k ++ m)) (hp : p = mdpad f s.blenBits S1.len) :
    exec (.mac f) s = .next (if Fits s .d0 (4 * f.words)
      then succeeded s (stored s .d0 (serialize f (absorb S1 p).h)) (4 * f.words) 0 0
        ((k.length + m.length) / 64 + absorbCount S1 p) (absorb S1 p)
      else failed s .range) := by
  have hcount : absorbCount (initLatch f) (k ++ m) = (k.length + m.length) / 64 := by
    rw [absorbCount_of_part_nil rfl, List.length_append]
  have hend := perform_digest (s := s) (f := f) (H := (absorb S1 p).h)
    (e := (((Effect.start s).emit s .d0 _).latch (absorb S1 p)).count 0
      (absorbCount (initLatch f) (k ++ m) + absorbCount S1 p)) rfl rfl rfl
  rw [Effect.count_hc, Effect.latch_hc, Effect.emit_hc, Effect.start_hc, Nat.zero_add, hcount] at hend
  subst hS1 hp
  rw [exec, execMac, source_of_holds hm, source_of_holds hk, ok_bind, ok_bind, hcount]
  exact hend

/-- Settles O28: with its sources fetched MAC absorbs key ∥ message and the padding from the initial latch, and stores one
digest. -/
theorem macWritesTheKeyedDigest : Obligations.MacWritesTheKeyedDigest := by
  refine ⟨sourcesChecked _, sourcesChecked _, fun s f m k p S1 S2 hm hk hS1 hp hS2 => ?_⟩
  subst hS2
  rw [exec_mac hm hk hS1 hp]
  exact ⟨fun hfit => by rw [if_pos hfit, absorbCount], fun hfit => by rw [if_neg hfit]⟩

/-! ### FORGE (`44_mac_forge.md` R222) -/

/-- `BUF` after FORGE's two writes; where they overlap the digest's bytes stand. -/
def forgeStored (s : State) (message digest : List Byte) : Memory :=
  stored { s with buf := stored s .d1 message } .d0 digest

/-- What is gathered is a write to `DST1` and then one to `DST0`: the command succeeds iff both fit. -/
theorem perform_d1_d0 {s : State} {e : Effect} {d1 d0 : List Byte}
    (hp : e.pending = [((s.ops.dstAddr .d1).toNat, d1), ((s.ops.dstAddr .d0).toNat, d0)])
    (h0 : e.res0 = d0.length) (h1 : e.res1 = d1.length) :
    perform s (.ok e) = .next (if Fits s .d1 d1.length ∧ Fits s .d0 d0.length
      then succeeded s (forgeStored s d1 d0) d0.length d1.length e.cc e.hc e.newL else failed s .range) := by
  have hfits : e.fits s = true ↔ Fits s .d1 d1.length ∧ Fits s .d0 d0.length := by simp [Effect.fits_iff, hp]
  rw [perform_ok]
  by_cases h : Fits s .d1 d1.length ∧ Fits s .d0 d0.length
  · rw [if_pos (hfits.mpr h), if_pos h, State.complete, State.commit, hp, h0, h1]
    simp [succeeded, forgeStored, stored, Status.completed, Memory.writeAll]
  · rw [if_neg (mt hfits.mp h), if_neg h, complete_eq_failed s (by decide)]

section
variable {s : State} {f : Family} {m x t p q : List Byte} {T : Dword} {S1 : Latch}
  (hm : Holds s .s0 m) (hx : Holds s .s1 x) (ht : Holds s .s2 t)
include hm hx ht

theorem exec_forge_length (hlen : t.length ≠ 4 * f.words) : exec (.forge f) s = .next (failed s .validation) := by
  rw [exec, execForge, source_of_holds hm, source_of_holds hx, source_of_holds ht, ok_bind, ok_bind, ok_bind,
    need_eq_check, perform_check_false (beq_false_of_ne hlen) (by decide)]

/-- FORGE with a known MAC of the right length; its alignment check never fails (`44_mac_forge.md` R225). -/
theorem exec_forge (hlen : t.length = 4 * f.words) (hT : T = BitVec.ofNat 64 (s.ops.arg0.toNat + m.length))
    (hp : p = mdpad f s.blenBits T) (hS1 : S1 = absorb (importLatch f t (T + BitVec.ofNat 64 p.length)) x)
    (hq : q = mdpad f s.blenBits S1.len) :
    exec (.forge f) s = .next (if Fits s .d1 (m.length + p.length + x.length) ∧ Fits s .d0 (4 * f.words)
      then succeeded s (forgeStored s (m ++ p ++ x) (serialize f (absorb S1 q).h)) (4 * f.words)
        (m.length + p.length + x.length) 0 (x.length / 64 + absorbCount S1 q) (absorb S1 q)
      else failed s .range) := by
  have hcount := absorbCount_of_part_nil (L := importLatch f t (T + BitVec.ofNat 64 p.length)) rfl x
  have hend := perform_d1_d0 (s := s) (d1 := m ++ p ++ x) (d0 := serialize f (absorb S1 q).h)
    (e := ((((Effect.start s).emit s .d1 _).emit s .d0 _).latch (absorb S1 q)).count 0
      (x.length / 64 + absorbCount S1 q)) rfl rfl rfl
  rw [Effect.count_hc, Effect.latch_hc, Effect.emit_hc, Effect.emit_hc, Effect.start_hc, Nat.zero_add,
    serialize_length, List.length_append, List.length_append] at hend
  have haligned : (T + BitVec.ofNat 64 p.length).toNat % 64 = 0 := by
    rw [hp]
    exact add_mdpad_length_aligned f s.blenBits T
  subst hT hp hS1 hq
  rw [exec, execForge, source_of_holds hm, source_of_holds hx, source_of_holds ht, ok_bind, ok_bind, ok_bind,
    beq_iff_eq.mpr hlen, need_true, ok_bind]
  simp only [forgeTotal, forgeDeclared]
  rw [beq_iff_eq.mpr haligned, check_true, ok_bind, hcount]
  exact hend

end

/-- Settles O29: with its sources fetched FORGE checks the known MAC's length, then both destinations. -/
theorem forgeExtendsTheKnownMac : Obligations.ForgeExtendsTheKnownMac := by
  refine ⟨sourcesChecked _, sourcesChecked _, fun s f m x t p q T S1 S2 hm hx ht hT hp hS1 hq hS2 => ?_⟩
  subst hS2
  have hexec (hlen : t.length = 4 * f.words) := exec_forge hm hx ht hlen hT hp hS1 hq
  refine ⟨exec_forge_length hm hx ht, fun hlen h1 h0 => ?_, fun hlen hfit => ?_⟩
  · rw [hexec hlen, if_pos ⟨h1, h0⟩, absorbCount]
    rfl
  · rw [hexec hlen, if_neg hfit]

/-! ### Forgery correctness (`44_mac_forge.md` R223) -/

theorem bytesAt_stored (s : State) (k : Dst) (d : List Byte) : BytesAt (stored s k d) (s.ops.dstAddr k).toNat d :=
  Memory.read_writeBytes_inside s.buf _ d

/-- Importing the digest of a message at its padded length gives the latch with the padding absorbed (`43_hash.md` R201). -/
theorem importLatch_digest {L : Latch} {f : Family} {bits : Bool} {p : List Byte} (hL : LatchInv L)
    (hv : L.valid = true) (hf : L.fam = f) (hp : p = mdpad f bits L.len) :
    importLatch f (serialize f (absorb L p).h) (L.len + BitVec.ofNat 64 p.length) = absorb L p := by
  subst hf hp
  obtain ⟨-, -, -, hB⟩ := latchInv_absorb L (mdpad L.fam bits L.len) hL hv
  exact importLatch_serialize (absorb L _) hv (part_absorb_mdpad L bits hL hv) hB

/-- What FORGE has absorbed when the guess is right: the key and the forged message. -/
theorem absorb_importLatch_mac {f : Family} {bits : Bool} {k m p : List Byte} {S : Latch}
    (hS : S = absorb (initLatch f) (k ++ m)) (hp : p = mdpad f bits S.len) (x : List Byte) :
    absorb (importLatch f (serialize f (absorb S p).h) (S.len + BitVec.ofNat 64 p.length)) x =
      absorb (initLatch f) (k ++ (m ++ p ++ x)) := by
  subst hS
  have hinv := latchInv_absorb (initLatch f) (k ++ m) (latchInv_init f) rfl
  rw [importLatch_digest (f := f) hinv rfl rfl hp, absorb_absorb, absorb_absorb]
  simp only [List.append_assoc]

/-- The total length that MAC pads for. -/
theorem absorb_initLatch_len (f : Family) (k m : List Byte) :
    (absorb (initLatch f) (k ++ m)).len = BitVec.ofNat 64 (k.length + m.length) := by
  rw [← List.length_append]
  exact BitVec.zero_add _

/-- Settles O58: FORGE imports the latch MAC left, so it finishes the same latch as MAC of the forged message. -/
theorem forgeryCorrectness : Obligations.ForgeryCorrectness := by
  intro s f m k hm hk hfit
  have hmac := exec_mac (f := f) hm hk rfl rfl
  rw [if_pos hfit] at hmac
  refine ⟨_, hmac, rfl, fun u d x p hd hb hbits hum hux hud hguess hp hfit1 hfit0 => ?_⟩
  obtain rfl := eq_of_bytesAt_stored hb (hd.trans (serialize_length _ _).symm)
  rw [← absorb_initLatch_len f] at hp
  have hT : (absorb (initLatch f) (k ++ m)).len = BitVec.ofNat 64 (u.ops.arg0.toNat + m.length) := by
    rw [hguess, absorb_initLatch_len]
  subst hp
  have hforge := exec_forge hum hux hud hd hT (hbits ▸ rfl) (absorb_importLatch_mac rfl rfl x).symm rfl
  rw [if_pos ⟨hfit1, hfit0⟩] at hforge
  refine ⟨_, hforge, rfl, fun w h hh hwb hwbits hwm hwk hwfit => ?_⟩
  obtain rfl := eq_of_bytesAt_stored hwb (hh.trans (serialize_length _ _).symm)
  have hverify := exec_mac hwm hwk rfl (congrArg (mdpad f · _) (hbits.trans hwbits.symm))
  rw [if_pos hwfit] at hverify
  exact ⟨_, hverify, rfl, bytesAt_stored w .d0 _⟩

/-! ### FORGE in four steps (`44_mac_forge.md` R226) -/

theorem exec_hMdpad_fits {s : State} {f : Family} {p : List Byte} (hp : p = mdpad f s.blenBits s.ops.arg64)
    (hfit : Fits s .d0 p.length) :
    exec (.hMdpad f) s = .next (succeeded s (stored s .d0 p) p.length 0 0 0 s.latch) := by
  rw [← s.ops.ofNat_arg64] at hp
  obtain ⟨hexec, -⟩ := hMdpadWritesTheDeclaredPadding s f p hp
  exact hexec hfit

/-- Settles O59: the latch goes through import, absorption and finishing as inside FORGE. -/
theorem forgeEqualsItsSteps : Obligations.ForgeEqualsItsSteps := by
  intro s f m x d p T hm hx hd hlen hT hp hfit1 hfit0
  have hforge := exec_forge hm hx hd hlen hT hp rfl rfl
  rw [if_pos ⟨hfit1, hfit0⟩] at hforge
  refine ⟨_, hforge, rfl, fun u hbits harg hfit => ?_⟩
  refine ⟨_, exec_hMdpad_fits (by rw [hbits, harg, hp]) hfit, rfl, bytesAt_stored u .d0 p, fun u2 hd2 harg2 => ?_⟩
  have haligned : u2.ops.arg64.toNat % 64 = 0 := by
    rw [harg2, hp]
    exact add_mdpad_length_aligned f s.blenBits T
  refine ⟨_, exec_hImport hd2 hlen haligned, rfl, fun u3 hl3 hx3 => ?_⟩
  replace hl3 : u3.latch = importLatch f d (T + BitVec.ofNat 64 p.length) := by rw [hl3, ← harg2]; rfl
  refine ⟨_, exec_hAbsorb (by rw [hl3]; rfl) hx3 (by rw [hl3]; rfl), rfl, fun u4 hl4 hbits4 hfit4 => ?_⟩
  replace hl4 : u4.latch = absorb (importLatch f d (T + BitVec.ofNat 64 p.length)) x := by rw [hl4, ← hl3]; rfl
  have hfinal := exec_hFinal (by rw [hl4]; rfl) (by rw [hl4]; rfl) (f := f) rfl
  rw [if_pos hfit4, hl4, hbits4] at hfinal
  refine ⟨_, hfinal, rfl, rfl, fun i hi => ?_⟩
  rw [← serialize_length f] at hi
  exact (bytesAt_stored u4 .d0 _ i hi).trans (bytesAt_stored _ .d0 _ i hi).symm

end Sys2Proof.Machine
end

section
/-! PROOFS. The control command NOP (`45_control.md` R240). -/

namespace Sys2Proof.Machine

open Sys2Proof.Claims

/-- NOP gathers nothing, so nothing is stored or counted and the latch stays. -/
theorem exec_nop (s : State) : exec .nop s = .next (succeeded s s.buf 0 0 0 0 s.latch) := by
  rw [exec, execNop]
  exact perform_no_write rfl rfl rfl

/-- Success without output, invocations or a new latch leaves only `STATUS` and the result lengths changed. -/
theorem succeeded_without_effect (s : State) : succeeded s s.buf 0 0 0 0 s.latch = { s with
    res0Len := 0, res1Len := 0,
    status := { busy := false, done := true, err := .ok, sticky := s.status.sticky, ovr := s.status.ovr } } := by
  rw [succeeded, BitVec.ofNat_eq_ofNat, BitVec.add_zero, BitVec.add_zero]

/-- Settles O11: NOP succeeds without any effect of its own. -/
theorem nopOnlyCompletes : Obligations.NopOnlyCompletes := by
  intro s
  rw [exec_nop, succeeded_without_effect]

end Sys2Proof.Machine
end

section
/-! PROOFS. The end of a command (`60_exceptions.md` R245 to R254): the engine's step, what completion leaves in `STATUS`,
the codes each command reports, and what the outcome of a command depends on. -/

namespace Sys2Proof.Machine

open Sys2Proof.Claims

/-! ### The engine's step (R247, R248) -/

theorem engineTurn_idle {s : State} (hb : s.status.busy = false) : engineTurn s = .next s := by
  rw [engineTurn, hb, if_neg Bool.false_ne_true]

theorem engineTurn_decoded {s : State} {i : Instr} (hb : s.status.busy = true) (hi : decode s.cmd = .ok i) :
    engineTurn s = exec i s := by
  rw [engineTurn, if_pos hb, hi]

theorem engineTurn_undecoded {s : State} {e : DecodeError} (hb : s.status.busy = true) (he : decode s.cmd = .error e) :
    engineTurn s = .next (s.complete .illegalOp) := by
  rw [complete_eq_failed s (by decide)]
  exact engineTurn_illegal hb fun _ hi => nomatch he.symm.trans hi

theorem step_of_no_turns {s : State} (h : s.turns = []) : step s = engineTurn s := by rw [step, h]

theorem step_of_engine_turn {s : State} {rest : List Turn} (h : s.turns = .engine :: rest) :
    step s = engineTurn { s with turns := rest } := by
  rw [step, h]
  rfl

/-- Settles O4: the engine's turn is a step of its own, and a busy engine's is the command's. -/
theorem engineStepRunsTheDecodedCommand : Obligations.EngineStepRunsTheDecodedCommand :=
  ⟨fun _ => ⟨step_of_no_turns, fun _ => step_of_engine_turn⟩, fun _ _ hb hi =>
    ⟨engineTurn_decoded hb hi, fun h => (step_of_no_turns h).trans (engineTurn_decoded hb hi),
      fun _ h => step_engine h hb hi⟩⟩

/-- Settles O6: the turn of an idle engine changes nothing but that it is taken. -/
theorem idleEngineLeavesTheStateAlone : Obligations.IdleEngineLeavesTheStateAlone := fun _ hb =>
  ⟨fun h => (step_of_no_turns h).trans (engineTurn_idle hb),
    fun _ h => (step_of_engine_turn h).trans (engineTurn_idle hb)⟩

/-! ### Completion and failure (R246, R249) -/

/-- `STATUS` after completion with code `e`, in the words of R246. -/
theorem Status.completed_eq (s : Status) (e : Err) : s.completed e =
    { busy := false, done := true, err := e, ovr := s.ovr, sticky := if e = .ok then s.sticky else true } := by
  by_cases he : e = .ok <;> simp [Status.completed, he]

theorem exec_status {i : Instr} {s t : State} (h : exec i s = .next t) : t.status = s.status.completed t.status.err := by
  rcases exec_next_cases h with ⟨e, -, rfl⟩ | ⟨e, -, -, rfl⟩ <;> rfl

theorem exec_failed {i : Instr} {s t : State} (h : exec i s = .next t) (herr : t.status.err ≠ .ok) :
    t = { s with status := t.status } := by
  rcases exec_next_cases h with ⟨e, -, rfl⟩ | ⟨e, -, -, rfl⟩
  · rfl
  · exact absurd rfl herr

/-- A busy engine runs the command `CMD` decodes to, or completes with ILLEGAL_OP. -/
theorem engineTurn_busy_cases {s t : State} (hb : s.status.busy = true) (h : engineTurn s = .next t) :
    (∃ i, exec i s = .next t) ∨ t = s.complete .illegalOp := by
  cases hd : decode s.cmd with
  | ok i => exact .inl ⟨i, engineTurn_decoded hb hd ▸ h⟩
  | error e => exact .inr (Host.Outcome.next.inj (h.symm.trans (engineTurn_undecoded hb hd)))

/-- Settles O30: every command and every word that does not decode ends in a completion. -/
theorem completionSetsStatus : Obligations.CompletionSetsStatus := by
  refine ⟨fun i s t h => (exec_status h).trans (s.status.completed_eq _), fun s t hb h => ?_, fun s t e hb he h => ?_⟩
  · rcases engineTurn_busy_cases hb h with ⟨i, hi⟩ | rfl
    · exact (exec_status hi).trans (s.status.completed_eq _)
    · exact s.status.completed_eq .illegalOp
  · rw [engineTurn_undecoded hb he] at h
    cases h
    rfl

/-- Settles O31: of the two ways a command ends, only the commit touches more than `STATUS`, and it reports OK. -/
theorem failedCommandChangesOnlyStatus : Obligations.FailedCommandChangesOnlyStatus := by
  refine ⟨fun i s t h herr => exec_failed h herr, fun s t hb h herr => ?_⟩
  rcases engineTurn_busy_cases hb h with ⟨i, hi⟩ | rfl
  · exact exec_failed hi herr
  · rfl

/-! ### The codes a command raises (R251) -/

/-- A command's pseudocode that raises only errors of the list `E`. -/
def Raises {α : Type} (E : List Err) (x : Except Stop α) : Prop := ∀ e, x = .error (.raise e) → e ∈ E

section
variable {α β : Type} {E : List Err}

theorem Raises.ok (a : α) : Raises E (.ok a) := fun _ he => nomatch he

theorem Raises.bind {x : Except Stop α} {f : α → Except Stop β} (hx : Raises E x) (hf : ∀ a, Raises E (f a)) :
    Raises E (x >>= f) := by
  intro e he
  rcases (bind_error_iff x f _).mp he with he | ⟨a, -, he⟩
  · exact hx e he
  · exact hf a e he

theorem Raises.bind_source {s : State} {k : Src} {f : List Byte → Except Stop β} (hf : ∀ d, Raises E (f d))
    (hE : .range ∈ E := by simp [errorsOf]) : Raises E (source s k >>= f) := by
  refine .bind (fun e he => ?_) hf
  obtain ⟨rfl, -⟩ := (source_raise_iff s k e).mp he
  exact hE

/-- A check may raise its code when it can fail. -/
theorem Raises.bind_check {c : Bool} {e : Err} {f : Unit → Except Stop β} (hf : Raises E (f ()))
    (hE : c = false → e ∈ E := by simp [errorsOf]) : Raises E (check c e >>= f) := by
  refine .bind (fun e' he => ?_) fun _ => hf
  obtain ⟨hc, he⟩ := (check_error_iff c e _).mp he
  exact Stop.raise.inj he ▸ hE hc

theorem Raises.bind_need {c : Bool} {f : Unit → Except Stop β} (hf : Raises E (f ()))
    (hE : .validation ∈ E := by simp [errorsOf]) : Raises E (need c >>= f) :=
  .bind_check hf fun _ => hE

theorem Raises.bind_unpad {q : List Byte} {B : Nat} {f : List Byte → Except Stop β} (hf : ∀ p, Raises E (f p))
    (hE : .padding ∈ E := by simp [errorsOf]) : Raises E (pkcs7Unpad q B >>= f) := by
  refine .bind (fun e he => ?_) hf
  rw [Stop.raise.inj (pkcs7Unpad_error q B _ he)]
  exact hE

end

/-! ### What a command's pseudocode depends on (R254) -/

/-- `s'` with all that a command may use besides `CMD` taken from `s`: the parameters, the operand registers, `BLEN_BITS`,
the latch and `BUF`. -/
def State.withInputs (s' s : State) : State :=
  { s' with par := s.par, ops := s.ops, blenBits := s.blenBits, latch := s.latch, buf := s.buf }

theorem State.withInputs_eq {s s' : State} (hpar : s.par = s'.par) (hops : s.ops = s'.ops)
    (hbits : s.blenBits = s'.blenBits) (hlatch : s.latch = s'.latch) (hbuf : s.buf = s'.buf) : s'.withInputs s = s' := by
  rw [State.withInputs, hpar, hops, hbits, hlatch, hbuf]

/-- Every command is one `perform` of a pseudocode that is the same in a state with the same inputs and raises only the
command's own errors; the alignment check of FORGE never fails (`44_mac_forge.md` R225). -/
theorem exec_perform_withInputs (i : Instr) (s s' : State) : ∃ body, exec i s = perform s body ∧
    exec i (s'.withInputs s) = perform (s'.withInputs s) body ∧ Raises (errorsOf i) body := by
  cases i with
  | nop => exact ⟨.ok (Effect.start s), rfl, rfl, .ok _⟩
  | hInit f => exact ⟨.ok ((Effect.start s).latch (initLatch f)), rfl, rfl, .ok _⟩
  | hMdpad _ => exact ⟨_, rfl, rfl, .ok _⟩
  | blkEnc | blkDec | ecbEnc =>
    exact ⟨_, rfl, rfl, .bind_source fun _ => .bind_source fun _ => .bind_need (.ok _)⟩
  | ecbDec =>
    exact ⟨_, rfl, rfl, .bind_source fun _ => .bind_source fun _ => .bind_need (.bind_unpad fun _ => .ok _)⟩
  | cbcEnc | ctrXor =>
    exact ⟨_, rfl, rfl, .bind_source fun _ => .bind_source fun _ => .bind_source fun _ => .bind_need (.ok _)⟩
  | cbcDec =>
    exact ⟨_, rfl, rfl, .bind_source fun _ => .bind_source fun _ => .bind_source fun _ =>
      .bind_need (.bind_unpad fun _ => .ok _)⟩
  | ctrEdit =>
    exact ⟨_, rfl, rfl, .bind_source fun _ => .bind_source fun _ => .bind_source fun _ => .bind_source fun _ =>
      .bind_need (.bind_need (.ok _))⟩
  | pad => exact ⟨_, rfl, rfl, .bind_source fun _ => .bind_need (.ok _)⟩
  | unpad => exact ⟨_, rfl, rfl, .bind_source fun _ => .bind_need (.bind_unpad fun _ => .ok _)⟩
  | hAbsorb f => exact ⟨_, rfl, rfl, .bind_check (.bind_source fun _ => .bind_need (.ok _))⟩
  | hFinal f | hExport f => exact ⟨_, rfl, rfl, .bind_check (.bind_need (.ok _))⟩
  | hImport f => exact ⟨_, rfl, rfl, .bind_source fun _ => .bind_need (.bind_check (.ok _))⟩
  | mac f => exact ⟨_, rfl, rfl, .bind_source fun _ => .bind_source fun _ => .ok _⟩
  | forge f =>
    exact ⟨_, rfl, rfl, .bind_source fun m => .bind_source fun _ => .bind_source fun _ =>
      .bind_need (.bind_check (.ok _) fun hc => absurd (add_mdpad_length_aligned f s.blenBits (forgeTotal s.ops.arg0 m))
        (ne_of_beq_false hc))⟩

/-! ### The codes a command reports (R251) -/

/-- NOP and H_INIT have no region to check and succeed; every other command may report RANGE. -/
theorem range_mem_errorsOf_or_ok {i : Instr} {s t : State} (h : exec i s = .next t) :
    .range ∈ errorsOf i ∨ t.status.err = .ok := by
  cases i with
  | nop =>
    rw [exec_nop] at h
    cases h
    exact .inr rfl
  | hInit f =>
    rw [exec_hInit] at h
    cases h
    exact .inr rfl
  | _ => exact .inl (by simp [errorsOf])

/-- Settles O32: a command reports what its pseudocode raises, OK, or RANGE for a destination. -/
theorem commandReportsOnlyItsErrors : Obligations.CommandReportsOnlyItsErrors := by
  intro i s t h
  obtain ⟨body, hexec, -, hraises⟩ := exec_perform_withInputs i s s
  rcases (perform_next_iff s t body).mp (hexec ▸ h) with ⟨e, he, rfl⟩ | ⟨e, -, -, rfl⟩ | ⟨e, -, -, rfl⟩
  · exact .inr (hraises e he)
  · exact .inl rfl
  · exact (range_mem_errorsOf_or_ok h).symm

/-! ### The outcome is determined (R254) -/

theorem ok_not_mem_errorsOf (i : Instr) : .ok ∉ errorsOf i := by cases i <;> simp [errorsOf]

/-- In busy states with the same `CMD` and the same inputs, the engine's step is one `perform` of the same pseudocode, which
raises only errors. -/
theorem engineTurn_perform_withInputs {s s' : State} (hb : s.status.busy = true) (hb' : s'.status.busy = true)
    (hcmd : s.cmd = s'.cmd) : ∃ body, engineTurn s = perform s body ∧
      engineTurn (s'.withInputs s) = perform (s'.withInputs s) body ∧ body ≠ .error (.raise .ok) := by
  have hbusy : (s'.withInputs s).status.busy = true := hb'
  have hword : (s'.withInputs s).cmd = s.cmd := hcmd.symm
  cases hd : decode s.cmd with
  | ok i =>
    obtain ⟨body, hbody, hbody', hraises⟩ := exec_perform_withInputs i s s'
    exact ⟨body, (engineTurn_decoded hb hd).trans hbody, (engineTurn_decoded hbusy (hword ▸ hd)).trans hbody',
      fun hok => ok_not_mem_errorsOf i (hraises .ok hok)⟩
  | error e =>
    exact ⟨.error (.raise .illegalOp), engineTurn_undecoded hb hd, engineTurn_undecoded hbusy (hword ▸ hd), nofun⟩

/-- Settles O34: the same pseudocode ends in the same way in both states, and what it gathered is committed to both. -/
theorem commandOutcomeIsDetermined : Obligations.CommandOutcomeIsDetermined := by
  intro s s' hb hb' hcmd hpar hops hbits hlatch hbuf
  obtain ⟨body, hs, hs', hok⟩ := engineTurn_perform_withInputs hb hb' hcmd
  rw [State.withInputs_eq hpar hops hbits hlatch hbuf] at hs'
  rw [hs, hs']
  refine ⟨fun f hf => (perform_fault_iff s' body f).mpr ((perform_fault_iff s body f).mp hf), fun t ht => ?_⟩
  rcases (perform_next_iff s t body).mp ht with ⟨e, rfl, rfl⟩ | ⟨e, rfl, hfits, rfl⟩ | ⟨e, rfl, hfits, rfl⟩
  · refine ⟨rfl, s'.complete e, rfl, rfl, hbuf.symm, hlatch.symm, ?_, by simp, by simp⟩
    rintro rfl
    exact absurd rfl hok
  · have hfits' : e.fits s' = true := by rwa [Effect.fits, ← hpar]
    exact ⟨rfl, (s'.commit e).complete .ok, by rw [perform_ok, if_pos hfits'], rfl, by simp [hbuf], rfl,
      fun _ => ⟨rfl, rfl⟩, by simp, by simp⟩
  · have hfits' : e.fits s' = false := by rwa [Effect.fits, ← hpar]
    exact ⟨rfl, s'.complete .range, by rw [perform_ok, hfits', if_neg Bool.false_ne_true], rfl, hbuf.symm, hlatch.symm,
      nofun, by simp, by simp⟩

end Sys2Proof.Machine
end

section
/-! PROOFS. The resets (`70_reset_and_hazards.md` R270 to R273), and the one way the block stops: an unwritten byte of `BUF`
(R272). -/

namespace Sys2Proof.Machine

open Sys2Proof.Claims Sys2Proof.Safety

/-! ### The source at which a command stops (R272) -/

/-- A command's pseudocode that ends in a model fault only by fetching one of the sources `ks`. -/
def FaultsAt {α : Type} (s : State) (ks : List Src) (x : Except Stop α) : Prop :=
  ∀ f, x = .error (.fault f) → ∃ k ∈ ks, source s k = .error (.fault f)

section
variable {α β : Type} {s : State} {ks : List Src}

theorem FaultsAt.pure {a : α} : FaultsAt s ks (.ok a) := fun _ hf => nomatch hf

theorem FaultsAt.bind_source {k : Src} {f : List Byte → Except Stop α} (h : ∀ d, FaultsAt s ks (f d)) :
    FaultsAt s (k :: ks) (source s k >>= f) := by
  intro fault hf
  rcases (bind_error_iff _ f _).mp hf with hk | ⟨d, -, hd⟩
  · exact ⟨k, List.mem_cons_self, hk⟩
  · obtain ⟨j, hj, hsource⟩ := h d fault hd
    exact ⟨j, List.mem_cons_of_mem _ hj, hsource⟩

/-- What can only raise a code does not add a fault. -/
theorem FaultsAt.bind_raising {x : Except Stop β} {f : β → Except Stop α} (hx : ∀ e, x = .error e → ∃ c, e = .raise c)
    (h : ∀ b, FaultsAt s ks (f b)) : FaultsAt s ks (x >>= f) := by
  intro fault hf
  rcases (bind_error_iff x f _).mp hf with he | ⟨b, -, hb⟩
  · obtain ⟨c, hc⟩ := hx _ he
    cases hc
  · exact h b fault hb

theorem FaultsAt.bind_check {c : Bool} {e : Err} {f : Unit → Except Stop α} (h : ∀ u, FaultsAt s ks (f u)) :
    FaultsAt s ks (check c e >>= f) :=
  .bind_raising (fun _ hx => ⟨e, ((check_error_iff c e _).mp hx).2⟩) h

theorem FaultsAt.bind_need {c : Bool} {f : Unit → Except Stop α} (h : ∀ u, FaultsAt s ks (f u)) :
    FaultsAt s ks (need c >>= f) :=
  .bind_raising (fun _ hx => ⟨.validation, ((need_error_iff c _).mp hx).2⟩) h

theorem FaultsAt.bind_unpad {q : List Byte} {B : Nat} {f : List Byte → Except Stop α} (h : ∀ p, FaultsAt s ks (f p)) :
    FaultsAt s ks (pkcs7Unpad q B >>= f) :=
  .bind_raising (fun e hx => ⟨.padding, pkcs7Unpad_error q B e hx⟩) h

end

/-- Every command is one `perform` of a pseudocode that stops only at one of the sources the command reads. -/
theorem exec_faultsAt (i : Instr) (s : State) : ∃ body, exec i s = perform s body ∧ FaultsAt s (reads i) body := by
  cases i with
  | nop => exact ⟨.ok (Effect.start s), rfl, .pure⟩
  | hInit f => exact ⟨.ok ((Effect.start s).latch (initLatch f)), rfl, .pure⟩
  | hMdpad _ => exact ⟨_, rfl, .pure⟩
  | hFinal _ | hExport _ => exact ⟨_, rfl, .bind_check fun _ => .bind_need fun _ => .pure⟩
  | pad => exact ⟨_, rfl, .bind_source fun _ => .bind_need fun _ => .pure⟩
  | unpad => exact ⟨_, rfl, .bind_source fun _ => .bind_need fun _ => .bind_unpad fun _ => .pure⟩
  | hAbsorb _ => exact ⟨_, rfl, .bind_check fun _ => .bind_source fun _ => .bind_need fun _ => .pure⟩
  | hImport _ => exact ⟨_, rfl, .bind_source fun _ => .bind_need fun _ => .bind_check fun _ => .pure⟩
  | mac _ => exact ⟨_, rfl, .bind_source fun _ => .bind_source fun _ => .pure⟩
  | blkEnc | blkDec | ecbEnc =>
    exact ⟨_, rfl, .bind_source fun _ => .bind_source fun _ => .bind_need fun _ => .pure⟩
  | ecbDec =>
    exact ⟨_, rfl, .bind_source fun _ => .bind_source fun _ => .bind_need fun _ => .bind_unpad fun _ => .pure⟩
  | cbcEnc | ctrXor =>
    exact ⟨_, rfl, .bind_source fun _ => .bind_source fun _ => .bind_source fun _ => .bind_need fun _ => .pure⟩
  | cbcDec =>
    exact ⟨_, rfl, .bind_source fun _ => .bind_source fun _ => .bind_source fun _ => .bind_need fun _ =>
      .bind_unpad fun _ => .pure⟩
  | ctrEdit =>
    exact ⟨_, rfl, .bind_source fun _ => .bind_source fun _ => .bind_source fun _ => .bind_source fun _ =>
      .bind_need fun _ => .bind_need fun _ => .pure⟩
  | forge _ =>
    exact ⟨_, rfl, .bind_source fun _ => .bind_source fun _ => .bind_source fun _ => .bind_need fun _ =>
      .bind_check fun _ => .pure⟩

/-- A command stops at an unwritten byte of one of its sources, which is in range. -/
theorem exec_fault_cases {i : Instr} {s : State} {f : Fault} (h : exec i s = .fault f) :
    ∃ k ∈ reads i, ∃ j, j < (s.ops.srcLen k).toNat ∧ SrcInRange s k ∧
      s.buf.read ((s.ops.srcAddr k).toNat + j) = none ∧ f = .unwrittenByte ((s.ops.srcAddr k).toNat + j) := by
  obtain ⟨body, hbody, hfaults⟩ := exec_faultsAt i s
  rw [hbody, perform_fault_iff] at h
  obtain ⟨k, hk, hsource⟩ := hfaults f h
  obtain ⟨hrange, j, hj, hf, hnone, -⟩ := (source_fault_iff s k f).mp hsource
  exact ⟨k, hk, j, hj, hrange, hnone, hf⟩

/-! ### The outcomes of a step (R272) -/

/-- An outcome of a block with parameters `p` and `BUF` `m`: a next state, or the stop at an unwritten byte, which lies in
`BUF` when the parameters are legal. -/
inductive StopsAtUnwritten (p : Params) (m : Memory) : Host.Outcome State Fault Refusal → Prop
  | next (t : State) : StopsAtUnwritten p m (.next t)
  | fault (a : Nat) (hin : p.Legal → a < p.bufBytes) (hnone : m.read a = none) :
      StopsAtUnwritten p m (.fault (.unwrittenByte a))

theorem StopsAtUnwritten.ne_refused {p : Params} {m : Memory} {o : Host.Outcome State Fault Refusal}
    (h : StopsAtUnwritten p m o) (r : Refusal) : o ≠ .refused r := by
  cases h with
  | next t => exact nofun
  | fault a _ _ => exact nofun

theorem StopsAtUnwritten.exists_next {p : Params} {m : Memory} {o : Host.Outcome State Fault Refusal}
    (h : StopsAtUnwritten p m o) (hp : p.Legal) (hwritten : ∀ a, a < p.bufBytes → m.read a ≠ none) : ∃ t, o = .next t := by
  cases h with
  | next t => exact ⟨t, rfl⟩
  | fault a hin hnone => exact absurd hnone (hwritten a (hin hp))

theorem exec_stopsAtUnwritten (i : Instr) (s : State) : StopsAtUnwritten s.par s.buf (exec i s) := by
  cases h : exec i s with
  | next t => exact .next t
  | fault f =>
    obtain ⟨k, -, j, hj, hrange, hnone, rfl⟩ := exec_fault_cases h
    exact .fault _ (fun _ => by omega) hnone
  | refused r =>
    obtain ⟨body, hbody⟩ := exec_is_perform i s
    exact absurd (hbody ▸ h) (perform_not_refused s body r)

theorem engineTurn_stopsAtUnwritten (s : State) : StopsAtUnwritten s.par s.buf (engineTurn s) := by
  cases hb : s.status.busy with
  | false => rw [engineTurn_idle hb]; exact .next s
  | true =>
    cases hd : decode s.cmd with
    | ok i => rw [engineTurn_decoded hb hd]; exact exec_stopsAtUnwritten i s
    | error e => rw [engineTurn_undecoded hb hd]; exact .next _

/-- A legal buffer read, which stays inside `BUF`. -/
theorem readBuf_stopsAtUnwritten {s : State} {a w : Nat} (hin : s.par.Legal → a + w ≤ s.par.bufBytes) :
    StopsAtUnwritten s.par s.buf (readBuf s a w) := by
  cases hb : s.status.busy with
  | true => rw [readBuf_busy hb]; exact .next _
  | false =>
    cases hd : s.buf.readBytes a w with
    | ok d => rw [readBuf_written hb hd]; exact .next _
    | error b =>
      rw [readBuf_unwritten hb hd]
      obtain ⟨j, hj, rfl, hnone, -⟩ := (Memory.readBytes_error_iff s.buf w a b).mp hd
      exact .fault _ (fun hp => by have := hin hp; omega) hnone

/-- Of the accesses, only a legal buffer read is not answered at once. -/
theorem hostAccess_stopsAtUnwritten (s : State) (a : Access) : StopsAtUnwritten s.par s.buf (hostAccess s a) := by
  cases a with
  | read addr w =>
    cases ht : target s.par addr with simp only [hostAccess, ht]
    | outside | noTarget => exact .next _
    | register off => split <;> exact .next _
    | buffer b =>
      split
      · exact readBuf_stopsAtUnwritten fun hp => bufAccess_inside hp ht ‹_›
      · exact .next _
  | write addr w v =>
    cases ht : target s.par addr with simp only [hostAccess, ht]
    | outside | noTarget => exact .next _
    | register off | buffer b => split <;> exact .next _

theorem takeTurn_stopsAtUnwritten (s : State) (u : Turn) : StopsAtUnwritten s.par s.buf (takeTurn s u) := by
  cases u with
  | engine => exact engineTurn_stopsAtUnwritten s
  | access a => exact hostAccess_stopsAtUnwritten s a
  | wait => exact .next _
  | hardReset => exact .next _

theorem step_stopsAtUnwritten (s : State) : StopsAtUnwritten s.par s.buf (step s) := by
  cases h : s.turns with
  | nil => rw [step_of_no_turns h]; exact engineTurn_stopsAtUnwritten s
  | cons u rest => rw [step, h]; exact takeTurn_stopsAtUnwritten { s with turns := rest } u

/-- Settles O33: a command's only faults are those of its sources, and a step's only ones are a command's and a host read's. -/
theorem onlyUnwrittenBytesStop : Obligations.OnlyUnwrittenBytesStop :=
  ⟨fun _ _ _ h => exec_fault_cases h, fun s r => (step_stopsAtUnwritten s).ne_refused r,
    fun s hp hwritten => (step_stopsAtUnwritten s).exists_next hp hwritten⟩

/-! ### The values after a reset (R270, R271) -/

/-- Settles O8: nothing is written, and the latch and `STATUS` are at their reset values. -/
theorem resetMeetsTheInvariant : Obligations.ResetMeetsTheInvariant :=
  blockInv_of_reset (by decide) .nil (insideBuf_nil _) rfl rfl

/-- Every register but `ID` reads 0 after reset. -/
theorem regValue_reset (r : Reg) : regValue State.reset r = if r = .id then 0x43505831 else 0 := by
  cases r with
  | operand o => rcases o with (_ | _ | _ | _) | (_ | _ | _ | _) | (_ | _) | _ | _ <;> rfl
  | h i => revert i; decide
  | chunk k => revert k; decide
  | _ => rfl

/-- The parameters, `BUF` and the model's own fields have no part in the values of R270. -/
theorem resetValues_of_reset (p : Params) (m : Memory) (ts : List Turn) (x : Resp) (n : Nat) :
    ResetValues { State.reset with par := p, buf := m, turns := ts, resp := x, draws := n } := by
  refine ⟨fun r => ?_, rfl, rfl⟩
  rw [← regValue_reset r]
  cases r <;> rfl

/-- Settles O10: both resets leave the state after reset but for fields that R270 does not list, and a write of `CTRL` with
bit 0 = 1 is the soft reset whatever `BUSY` and the other bits are. -/
theorem resetsLeaveTheStatedValues : Obligations.ResetsLeaveTheStatedValues := by
  refine ⟨resetValues_of_reset .., fun _ => rfl, fun s rest h => ?_, fun s v rest h hv => ?_⟩
  · exact ⟨State.hardReset { s with turns := rest }, by rw [step, h]; rfl, resetValues_of_reset .., fun _ => rfl, rfl, rfl⟩
  · have hstep := step_nextWrites h
    rw [writeReg_ctrl_srst _ hv] at hstep
    exact ⟨_, hstep, resetValues_of_reset .., rfl, rfl, rfl⟩

end Sys2Proof.Machine
end
